-- ==== Sys2Proof/Word.lean ====
section
/-! DEFINITION. The word types: the 32-bit datum `F`, a byte, a host register word. -/

namespace Sys2Proof

/-- A binary32 datum as its 32-bit pattern (R9, R10): sign bit 31, exponent bits 30:23, fraction
bits 22:0. The spec writes `F(h)` for the datum a pattern `h` encodes; the model keeps the pattern. -/
abbrev F := BitVec 32

/-- One byte of buffer memory (R45: the platform's byte view of a 32-bit cell). -/
abbrev Byte := BitVec 8

/-- A slope index inside the core, "a 2-bit unsigned field" (R67). -/
abbrev SlopeIndex := BitVec 2

end Sys2Proof
end

