-- ==== Sys2Proof/Syntax.lean ====
section
/-! DEFINITION. The syntax: the small enumerations of R69, coefficient sets (R68), and `Instr`, one
constructor per row of the opcode table (R70). -/

namespace Sys2Proof

/-- A channel chain: 0 left, 1 right (R7 `NCHAIN`, R69). Chain c filters channel c (R128). -/
inductive Chain where
  | left
  | right
deriving DecidableEq, Repr, Inhabited

/-- A biquad slot `k` of a chain, in signal order (R18): 0..3 low cut, 4 peak, 5..8 high cut. -/
inductive SlotId where
  | lc0 | lc1 | lc2 | lc3
  | pk
  | hc0 | hc1 | hc2 | hc3
deriving DecidableEq, Repr, Inhabited

/-- A cut side: `LOW = 0` the LowCut stage, `HIGH = 1` the HighCut stage (R69). -/
inductive Side where
  | low
  | high
deriving DecidableEq, Repr, Inhabited

/-- A filter kind: `HP = 0` highpass, `LP = 1` lowpass (R69). -/
inductive Kind where
  | hp
  | lp
deriving DecidableEq, Repr, Inhabited

/-- A filter order, the four entries of the lookup of R75. -/
inductive Order where
  | o2 | o4 | o6 | o8
deriving DecidableEq, Repr, Inhabited

/-- The register index `j` of `RF[c][k][j]`, by the aliases of R19. -/
inductive Reg where
  | b0 | b1 | b2 | a1 | a2
  | w1 | w2
deriving DecidableEq, Repr, Inhabited

/-- A parameter index `j` in 0..6, by the names of R32. -/
inductive ParamId where
  | lowCutFreq | highCutFreq | peakFreq | peakGainDb | peakQuality | lowCutSlope | highCutSlope
deriving DecidableEq, Repr, Inhabited

/-- The five arithmetic operations of R11. -/
inductive FOp where
  | add | sub | mul | div | sqrt
deriving DecidableEq, Repr, Inhabited

/-- A coefficient set: five `F` in the order b0, b1, b2, a1, a2, normalised to a0 = 1 (R68, R90). -/
structure CoefSet where
  b0 : F
  b1 : F
  b2 : F
  a1 : F
  a2 : F
deriving DecidableEq, Repr, Inhabited

/-- The operations of the opcode table, one constructor per row (R70). The H, B and P rows carry the
fields of their words; the U rows carry none, because "operands and results of a micro-operation
travel in the staging registers and in `RF`" (R63). -/
inductive Instr where
  /-- `PREPARE` (R61, R126): `maxBlockSize`; the sample rate is in `ARG_SR`. -/
  | prepare (maxblk : BitVec 16)
  /-- `PROCESS` (R62, R127): channel count and block length. -/
  | process (nch : BitVec 8) (len : BitVec 16)
  /-- `SLOPE2COUNT` (R74). -/
  | slope2count
  /-- `SLOPE2ORDER` (R75). -/
  | slope2order
  /-- `CALC_PEAK` (R81). -/
  | calcPeak
  /-- `CALC_CUT` (R84). -/
  | calcCut
  /-- `BQ_LOAD` (R92). -/
  | bqLoad
  /-- `BQ_RESET` (R93). -/
  | bqReset
  /-- `BQ_STEP` (R94). -/
  | bqStep
  /-- `CFG_CUT` (R99). -/
  | cfgCut
  /-- `CASC_STEP` (R102). -/
  | cascStep
  /-- `CFG_PEAK` (R108). -/
  | cfgPeak
  /-- `CHAIN_STEP` (R109). -/
  | chainStep
  /-- `CHAIN_PROC` (R110). -/
  | chainProc
  /-- `SNAPSHOT` (R116). -/
  | snapshot
  /-- `PCHECK` (R118). -/
  | pcheck
  /-- `UPDATE` (R115). -/
  | update
  /-- `UPD_APPLY` (R119). -/
  | updApply
  /-- `WRREG` (R64, R133): word address and the value written. -/
  | wrreg (addr : BitVec 3) (data : BitVec 32)
  /-- `RDREG` (R64, R134): word address; the data bits sent are ignored. -/
  | rdreg (addr : BitVec 3)
  /-- `PWRITE` (R65, R132): parameter index (0..6 in a well-formed one) and value. -/
  | pwrite (idx : BitVec 3) (val : F)
deriving DecidableEq, Repr, Inhabited

end Sys2Proof
end

