-- ==== Sys2Proof/Config.lean ====
section
/-! DEFINITION. What an implementation fixes (the four elementary functions, R79) and the free
values: constants with no body, of which Lean can prove nothing but their type. -/

namespace Sys2Proof

/-- The four elementary functions as one record argument (R79: "A model should take the four
functions as a record argument"). E1 holds because they are functions. -/
structure NumFns where
  sin : F → F
  cos : F → F
  tan : F → F
  pow10 : F → F

/-- `NUM.sin` before E3 and E4 are imposed on it (D4, OPEN; log 8). -/
opaque Config.rawSin : F → F

/-- `NUM.cos` before E3 and E4 are imposed on it (D4, OPEN; log 8). -/
opaque Config.rawCos : F → F

/-- `NUM.tan` before E3 and E4 are imposed on it (D4, OPEN; log 8). -/
opaque Config.rawTan : F → F

/-- `NUM.pow10` before E2, E3 and E4 are imposed on it (D4, OPEN; log 8). -/
opaque Config.rawPow10 : F → F

/-- The bits from which a NaN result takes its sign and payload (R78, U13: "any value among NaN
patterns"): free in each operation and operands (log 10). -/
opaque Config.nanBits : FOp → F → F → F

/-- What a register of `RF` that holds `novalue` reads as (R36, R157, U15: "any bits"; log 11). -/
opaque Config.novalueReg : Chain → SlotId → Reg → F

/-- What an `act` flag that holds `novalue` reads as (R36, R157, U15; log 11). -/
opaque Config.novalueFlag : Chain → SlotId → Bool

/-- What a staged parameter that holds `novalue` reads as in an operation whose operand must have
passed `PCHECK` (R36, R119, U15; log 12). -/
opaque Config.novalueParam : ParamId → F

/-- The slope index an unchecked slope value counts as in `UPD_APPLY` (R117: it has none; log 12). -/
opaque Config.slopeOfUnchecked : F → SlopeIndex

/-- The set at position `i` of a coefficient sequence too short for `CFG_CUT` (R99: "cannot be
passed"; log 12). -/
opaque Config.missingSet : Nat → CoefSet

end Sys2Proof
end

