-- ==== Sys2Proof/Machine/Arith.lean ====
section
/-! DEFINITION. IEEE 754 binary32 arithmetic on patterns (R9, R11, R78): round to nearest, ties to
even, one rounding per operation, gradual underflow, default results, no flag and no trap. Finite
magnitudes are counted exactly in units of 2^-149, the least subnormal. -/

namespace Sys2Proof.Machine

/-- The sign bit, bit 31 (R9). -/
def signBit (a : F) : Bool := a.msb

/-- The exponent field, bits 30:23 (R9). -/
def expField (a : F) : Nat := a.toNat / 2 ^ 23 % 2 ^ 8

/-- The fraction field, bits 22:0 (R9). -/
def fracField (a : F) : Nat := a.toNat % 2 ^ 23

/-- A NaN: all exponent bits set, fraction not zero. -/
def isNaN (a : F) : Bool := expField a == 255 && fracField a != 0

/-- An infinity: all exponent bits set, fraction zero. -/
def isInf (a : F) : Bool := expField a == 255 && fracField a == 0

/-- A zero of either sign. -/
def isZero (a : F) : Bool := a.toNat % 2 ^ 31 == 0

/-- "`isfinite(a)` is true when `a` is neither infinite nor NaN" (R11). -/
def isFinite (a : F) : Bool := expField a != 255

/-- The magnitude of a finite datum in units of 2^-149. -/
def magUnits (a : F) : Nat :=
  if expField a = 0 then fracField a else (2 ^ 23 + fracField a) * 2 ^ (expField a - 1)

/-- The value of a finite datum in units of 2^-149. -/
def signedUnits (a : F) : Int := if signBit a then -(magUnits a : Int) else (magUnits a : Int)

/-- The pattern with sign `neg` and magnitude bits `m`. -/
def packBits (neg : Bool) (m : Nat) : F := BitVec.ofNat 32 (m + if neg then 2 ^ 31 else 0)

/-- A zero of the given sign. -/
def fZero (neg : Bool) : F := packBits neg 0

/-- An infinity of the given sign. -/
def fInf (neg : Bool) : F := packBits neg 0x7F800000

/-- Round `num / den` units of 2^-149 to nearest, ties to even (R11, R78); `den` is not 0. With `k`
the number of bits dropped, the magnitude bits are `k * 2^23` plus the rounded significand, whose
carry moves into the exponent; a result past the largest finite datum is an infinity. -/
def roundRatio (neg : Bool) (num den : Nat) : F :=
  let q := num / den
  let k := if q < 2 ^ 24 then 0 else Nat.log2 q - 23
  let d := den * 2 ^ k
  let n := num / d
  let r := num % d
  let n' := if d < 2 * r ∨ (2 * r = d ∧ n % 2 = 1) then n + 1 else n
  let m := k * 2 ^ 23 + n'
  if 0x7F800000 ≤ m then fInf neg else packBits neg m

/-- A NaN result of operation `op`: the exponent bits are set and the fraction is made not zero;
sign and payload are free (R78, U13, log 10). -/
def nanResult (op : FOp) (a b : F) : F :=
  let v := Config.nanBits op a b ||| 0x7F800000#32
  if fracField v = 0 then v ||| 0x00400000#32 else v

/-- "`-. a` flips the sign bit and does not round" (R11). -/
def fNeg (a : F) : F := a ^^^ 0x80000000#32

/-- The exact sum of two finite data, rounded. A sum that is exactly zero is `-0` when both operands
are negative and `+0` otherwise (R78: `x -. x = +0`, `+0 +. -0 = +0`). -/
def addFinite (a b : F) : F :=
  let v := signedUnits a + signedUnits b
  if v = 0 then fZero (signBit a && signBit b) else roundRatio (decide (v < 0)) v.natAbs 1

/-- The sum of `a` and `b'` with the NaN results of operation `op` on operands `a`, `b`. -/
def addWith (op : FOp) (a b b' : F) : F :=
  if isNaN a || isNaN b' then nanResult op a b
  else if isInf a then
    if isInf b' && signBit a != signBit b' then nanResult op a b else a
  else if isInf b' then b'
  else addFinite a b'

/-- `a +. b` (R11). -/
def fAdd (a b : F) : F := addWith .add a b b

/-- `a -. b` (R11): the sum with the negated operand. -/
def fSub (a b : F) : F := addWith .sub a b (fNeg b)

/-- `a *. b` (R11). -/
def fMul (a b : F) : F :=
  let neg := signBit a != signBit b
  if isNaN a || isNaN b then nanResult .mul a b
  else if isInf a || isInf b then
    if isZero a || isZero b then nanResult .mul a b else fInf neg
  else roundRatio neg (magUnits a * magUnits b) (2 ^ 149)

/-- `a /. b` (R11); a nonzero finite value over zero is an infinity (R78). -/
def fDiv (a b : F) : F :=
  let neg := signBit a != signBit b
  if isNaN a || isNaN b then nanResult .div a b
  else if isInf a then
    if isInf b then nanResult .div a b else fInf neg
  else if isInf b then fZero neg
  else if isZero b then
    if isZero a then nanResult .div a b else fInf neg
  else roundRatio neg (magUnits a * 2 ^ 149) (magUnits b)

/-- The integer square root, rounded down, of a number below `4 ^ fuel`, found bit by bit. -/
def isqrt : (fuel n : Nat) → Nat
  | 0, _ => 0
  | fuel + 1, n =>
    let r := 2 * isqrt fuel (n / 4)
    if (r + 1) * (r + 1) ≤ n then r + 1 else r

/-- `fsqrt(a)` (R11). The root of `m` units is the root of `m * 2^149` in units; an inexact root is
rounded as the half above its floor, which lies on the same side of every rounding boundary. -/
def fSqrt (a : F) : F :=
  if isNaN a then nanResult .sqrt a a
  else if isZero a then a
  else if signBit a then nanResult .sqrt a a
  else if isInf a then a
  else
    let n := magUnits a * 2 ^ 149
    let r := isqrt 214 n
    roundRatio false (2 * r + if r * r = n then 0 else 1) 2

/-- The place of a datum that is no NaN in the order of values; both zeros have the same place. -/
def orderKey (a : F) : Int :=
  if signBit a then -((a.toNat % 2 ^ 31 : Nat) : Int) else ((a.toNat % 2 ^ 31 : Nat) : Int)

/-- `a <. b`: false whenever an operand is NaN (R11). -/
def fLt (a b : F) : Bool := !isNaN a && !isNaN b && decide (orderKey a < orderKey b)

/-- `a <=. b` (R11). -/
def fLe (a b : F) : Bool := !isNaN a && !isNaN b && decide (orderKey a ≤ orderKey b)

/-- `a ==. b`: `-0 ==. +0` is true (R11). -/
def fEq (a b : F) : Bool := !isNaN a && !isNaN b && decide (orderKey a = orderKey b)

end Sys2Proof.Machine
end

