-- ==== Sys2Proof/WellFormed.lean ====
section
/-! DEFINITION. Which instructions are well formed. The field widths leave one check: the side
condition of `PWRITE` (R65). -/

namespace Sys2Proof

/-- R65: "`PWRITE` is every P word with `idx` in 0..6; `idx = 7` names no parameter". Every other
field admits all its values: `nch` and `len` of `PROCESS` (R62: "Every value of `nch` and `len`
decodes"), the eight word addresses (R64). -/
def Instr.wf : Instr → Bool
  | .prepare _ => true
  | .process _ _ => true
  | .slope2count => true
  | .slope2order => true
  | .calcPeak => true
  | .calcCut => true
  | .bqLoad => true
  | .bqReset => true
  | .bqStep => true
  | .cfgCut => true
  | .cascStep => true
  | .cfgPeak => true
  | .chainStep => true
  | .chainProc => true
  | .snapshot => true
  | .pcheck => true
  | .update => true
  | .updApply => true
  | .wrreg _ _ => true
  | .rdreg _ => true
  | .pwrite idx _ => idx != 7

/-- A well-formed instruction. -/
abbrev Instr.WellFormed (i : Instr) : Prop := i.wf = true

end Sys2Proof
end

