-- ==== Sys2Proof/Decode.lean ====
section
/-! DEFINITION. The decoder of the four formats (R59 to R65), total, rejecting by name; after it the
encoder, the opcode table's match and mask per row, and the reading of a table word. -/

namespace Sys2Proof

/-- One word on the port that fixes its format (R72: "a format is known from the port the word
arrives on"). -/
inductive Packet where
  /-- Format H: the word written to `CMD` (R60). -/
  | command (w : BitVec 32)
  /-- Format U: a micro-operation's tag word, which crosses no port (R63). -/
  | micro (w : BitVec 32)
  /-- Format B: one transaction on the host port (R64). -/
  | bus (w : BitVec 36)
  /-- Format P: one transaction on the parameter port (R65). -/
  | param (w : BitVec 35)
deriving DecidableEq, Repr

/-- Why a word is not an instruction. -/
inductive DecodeError where
  /-- R71: an H word that is neither a `PREPARE` nor a `PROCESS`. -/
  | illegalCommand
  /-- R63: a U word that is no row of the table. -/
  | noSuchTag
  /-- R65: a P word with `idx = 7`, "the transaction is ignored". -/
  | ignoredIndex
deriving DecidableEq, Repr

/-- The two host commands, the contents of `cmd` in `RUN(cmd, ph)` (R25), with the operands of their
words (R60). -/
inductive Cmd where
  | prepare (maxblk : BitVec 16)
  | process (nch : BitVec 8) (len : BitVec 16)
deriving DecidableEq, Repr

/-- R70: "it tests `op` first, then for `op = 0x01` tests `nch = 0`"; R61, R62, R71. -/
def decodeCommand (w : BitVec 32) : Option Cmd :=
  if w.extractLsb' 24 8 = 0x01#8 then
    if w.extractLsb' 16 8 = 0x00#8 then some (.prepare (w.extractLsb' 0 16)) else none
  else if w.extractLsb' 24 8 = 0x02#8 then
    some (.process (w.extractLsb' 16 8) (w.extractLsb' 0 16))
  else none

/-- The instruction a command in flight is. -/
def cmdInstr : Cmd → Instr
  | .prepare m => .prepare m
  | .process nch len => .process nch len

/-- R63: tag word and operation of the sixteen micro-operations. -/
def microTable : List (BitVec 32 × Instr) :=
  [(0x10000000#32, .slope2count), (0x11000000#32, .slope2order),
   (0x12000000#32, .calcPeak), (0x13000000#32, .calcCut),
   (0x18000000#32, .bqLoad), (0x19000000#32, .bqReset), (0x1A000000#32, .bqStep),
   (0x20000000#32, .cfgCut), (0x21000000#32, .cascStep),
   (0x28000000#32, .cfgPeak), (0x29000000#32, .chainStep), (0x2A000000#32, .chainProc),
   (0x30000000#32, .snapshot), (0x31000000#32, .pcheck),
   (0x32000000#32, .update), (0x33000000#32, .updApply)]

/-- R64: bit 35 `rw`, bits 34:32 `addr`, bits 31:0 `data`; on a read the data bits are ignored. -/
def decodeBus (w : BitVec 36) : Instr :=
  if w.extractLsb' 35 1 = 1#1 then .wrreg (w.extractLsb' 32 3) (w.extractLsb' 0 32)
  else .rdreg (w.extractLsb' 32 3)

/-- The decoder, total on every word of every format. -/
def decode : Packet → Except DecodeError Instr
  | .command w =>
    match decodeCommand w with
    | some c => .ok (cmdInstr c)
    | none => .error .illegalCommand
  | .micro w =>
    match microTable.lookup w with
    | some i => .ok i
    | none => .error .noSuchTag
  | .bus w => .ok (decodeBus w)
  | .param w =>
    if w.extractLsb' 32 3 = 7#3 then .error .ignoredIndex
    else .ok (.pwrite (w.extractLsb' 32 3) (w.extractLsb' 0 32))

/-- The encoder, from the tables of R60 to R65. -/
def encode : Instr → Packet
  | .prepare m => .command (0x01#8 ++ 0x00#8 ++ m)
  | .process nch len => .command (0x02#8 ++ nch ++ len)
  | .slope2count => .micro (0x10#8 ++ 0#24)
  | .slope2order => .micro (0x11#8 ++ 0#24)
  | .calcPeak => .micro (0x12#8 ++ 0#24)
  | .calcCut => .micro (0x13#8 ++ 0#24)
  | .bqLoad => .micro (0x18#8 ++ 0#24)
  | .bqReset => .micro (0x19#8 ++ 0#24)
  | .bqStep => .micro (0x1A#8 ++ 0#24)
  | .cfgCut => .micro (0x20#8 ++ 0#24)
  | .cascStep => .micro (0x21#8 ++ 0#24)
  | .cfgPeak => .micro (0x28#8 ++ 0#24)
  | .chainStep => .micro (0x29#8 ++ 0#24)
  | .chainProc => .micro (0x2A#8 ++ 0#24)
  | .snapshot => .micro (0x30#8 ++ 0#24)
  | .pcheck => .micro (0x31#8 ++ 0#24)
  | .update => .micro (0x32#8 ++ 0#24)
  | .updApply => .micro (0x33#8 ++ 0#24)
  | .wrreg addr data => .bus (1#1 ++ addr ++ data)
  | .rdreg addr => .bus (0#1 ++ addr ++ 0#32)
  | .pwrite idx val => .param (idx ++ val)

/-- The bits of a packet as a number, bit 0 the least significant (R10). -/
def Packet.bits : Packet → Nat
  | .command w => w.toNat
  | .micro w => w.toNat
  | .bus w => w.toNat
  | .param w => w.toNat

/-- One row's bit pattern in the opcode table: the bits under `mask` equal `fixed`. -/
structure Row where
  fixed : Nat
  mask : Nat
deriving DecidableEq, Repr

/-- The opcode table's match and mask (R61 to R65). -/
def tableRow : Instr → Row
  | .prepare _ => ⟨0x01000000, 0xFFFF0000⟩
  | .process _ _ => ⟨0x02000000, 0xFF000000⟩
  | .slope2count => ⟨0x10000000, 0xFFFFFFFF⟩
  | .slope2order => ⟨0x11000000, 0xFFFFFFFF⟩
  | .calcPeak => ⟨0x12000000, 0xFFFFFFFF⟩
  | .calcCut => ⟨0x13000000, 0xFFFFFFFF⟩
  | .bqLoad => ⟨0x18000000, 0xFFFFFFFF⟩
  | .bqReset => ⟨0x19000000, 0xFFFFFFFF⟩
  | .bqStep => ⟨0x1A000000, 0xFFFFFFFF⟩
  | .cfgCut => ⟨0x20000000, 0xFFFFFFFF⟩
  | .cascStep => ⟨0x21000000, 0xFFFFFFFF⟩
  | .cfgPeak => ⟨0x28000000, 0xFFFFFFFF⟩
  | .chainStep => ⟨0x29000000, 0xFFFFFFFF⟩
  | .chainProc => ⟨0x2A000000, 0xFFFFFFFF⟩
  | .snapshot => ⟨0x30000000, 0xFFFFFFFF⟩
  | .pcheck => ⟨0x31000000, 0xFFFFFFFF⟩
  | .update => ⟨0x32000000, 0xFFFFFFFF⟩
  | .updApply => ⟨0x33000000, 0xFFFFFFFF⟩
  | .wrreg _ _ => ⟨0x800000000, 0x800000000⟩
  | .rdreg _ => ⟨0, 0x800000000⟩
  | .pwrite _ _ => ⟨0, 0⟩

/-- A table word of `nbits` bits as a packet. A table word names no port, and the formats H and U
share a width, as B and P do when counted in whole bytes: a 32-bit word with a U tag is a micro word
and any other a command word; a word of 36 or 40 bits is a host-port transaction, one of 35 a
parameter-port transaction (log 14). -/
def packetOfTable (nbits w : Nat) : Option Packet :=
  match nbits with
  | 32 =>
    let b := BitVec.ofNat 32 w
    some (if (microTable.lookup b).isSome then .micro b else .command b)
  | 35 => some (.param (BitVec.ofNat 35 w))
  | 36 => some (.bus (BitVec.ofNat 36 w))
  | 40 => some (.bus (BitVec.ofNat 36 w))
  | _ => none

/-- The instruction the decoder reads from a table word. -/
def decodeTableWord (nbits w : Nat) : Option Instr :=
  match packetOfTable nbits w with
  | some p => (decode p).toOption
  | none => none

end Sys2Proof
end

