-- ==== Sys2Proof/Machine/State.lean ====
section
/-! DEFINITION. The machine's state as plain data, its fault and refusal names, and the state right
after hardware reset (R37, R157). -/

namespace Sys2Proof.Machine

/-- The seven registers of one slot (R19). A cell nothing has written since hardware reset holds
`novalue`, here `none` (R36: "a model gives the cell an option type"). -/
structure Slot where
  b0 : Option F
  b1 : Option F
  b2 : Option F
  a1 : Option F
  a2 : Option F
  w1 : Option F
  w2 : Option F
deriving DecidableEq, Repr

/-- One chain's nine slots (R18) and its eight stored flags (R23: the peak slot's flag is hard-wired
to 1 and has no storage, D34). -/
structure ChainRegs where
  lc0 : Slot
  lc1 : Slot
  lc2 : Slot
  lc3 : Slot
  pk : Slot
  hc0 : Slot
  hc1 : Slot
  hc2 : Slot
  hc3 : Slot
  actLc0 : Option Bool
  actLc1 : Option Bool
  actLc2 : Option Bool
  actLc3 : Option Bool
  actHc0 : Option Bool
  actHc1 : Option Bool
  actHc2 : Option Bool
  actHc3 : Option Bool
deriving DecidableEq, Repr

/-- The coefficient and state register file `RF` with the `act` flags, one part per chain (R19, R23). -/
structure RegFile where
  left : ChainRegs
  right : ChainRegs
deriving DecidableEq, Repr

/-- Seven parameter cells, each an `F` or `novalue` (R32); the snapshot `S[0..6]` has the same shape
(R33). -/
structure Params where
  lowCutFreq : Option F
  highCutFreq : Option F
  peakFreq : Option F
  peakGainDb : Option F
  peakQuality : Option F
  lowCutSlope : Option F
  highCutSlope : Option F
deriving DecidableEq, Repr

/-- The phases of a command in flight (R25). -/
inductive Phase where
  | check
  | snap (j : ParamId)
  | pcheck
  | commit
  | proc (c : Chain) (n : BitVec 16)
deriving DecidableEq, Repr

/-- The sequence counter (R25): `IDLE`, `HALT` or `RUN(cmd, ph)`. -/
inductive Seq where
  | idle
  | halt
  | run (cmd : Cmd) (ph : Phase)
deriving DecidableEq, Repr

/-- The seven faults of R135, which are next states and no Lean fault. -/
inductive FaultCode where
  | illcmd | notprep | nch | len | sr | param | nyq
deriving DecidableEq, Repr

/-- The staging registers of R33 (with `rate`, the `sr` that `PREPARE` reads once at `CHECK`, R126).
"None of these survives the command that wrote it"; that they stay live after a `C:` line outside a
command, until a command ends, a fault or a reset, is a DESIGN CHOICE (log 4). -/
structure Staging where
  snap : Params
  nL : BitVec 3
  nH : BitVec 3
  pk : CoefSet
  lc : List CoefSet
  hc : List CoefSet
  rate : F
deriving DecidableEq, Repr

/-- Operand and result latches of a micro-operation (R63), named as in the operand lists of R74 to
R119. -/
structure Latches where
  c : Chain
  k : SlotId
  side : Side
  idx : SlopeIndex
  order : Order
  kind : Kind
  len : BitVec 16
  count : BitVec 3
  sr : F
  freq : F
  q : F
  gdb : F
  x : F
  y : F
  set : CoefSet
  seqn : List CoefSet
deriving DecidableEq, Repr

/-- The steps of an `UPDATE` (R115): seven `SNAP(j)`, `PCHECK`, `COMMIT`. -/
inductive UpdPhase where
  | snap (j : ParamId)
  | pcheck
  | commit
deriving DecidableEq, Repr

/-- The model's own: the next step of a several-step micro-operation that a `C:` line issued (log 5). -/
inductive MicroPos where
  | snapshot (j : ParamId)
  | update (ph : UpdPhase)
  | chainProc (n : BitVec 16)
deriving DecidableEq, Repr

/-- The model's own: one move of an agent, a line of a listing (R73, log 2). -/
inductive Move where
  /-- A word on a port: an H, B or P transaction, or the tag of a `C:` line. -/
  | send (p : Packet)
  /-- The operands of a `C:` line, put into the latches (R63). -/
  | stage (u : Latches)
  /-- The core takes its next step; it tells the place of a move that follows (R54). -/
  | core
  /-- Hardware reset (R156). -/
  | reset
  /-- The host writes sample `i` of channel `ch` of the buffer (R44, R150). -/
  | bufWrite (ch : BitVec 8) (i : BitVec 16) (v : F)
  /-- The host reads sample `i` of channel `ch` of the buffer (R44, R150). -/
  | bufRead (ch : BitVec 8) (i : BitVec 16)
deriving DecidableEq, Repr

/-- Buffer memory: (byte address, byte) pairs, addresses strictly rising, no byte equal to what an
unlisted address reads as (log 3). -/
abbrev Memory := List Host.Cell

/-- Why the machine stops with a fault. Both stops are safe: no run reaches them. -/
inductive Fault where
  /-- Raised by `PROCESS` and `CHAIN_PROC` at a sample that is not in the block: R42 gives `MemRead`
  and `MemWrite` a meaning only "when `ch < nch` and `i < len`". Safe. -/
  | outsideBuffer
  /-- Raised by `PREPARE` at a `PROC` position, which R25 does not give it ("A `PREPARE` goes from
  `COMMIT` to `IDLE`"). Safe. -/
  | outsideSchedule
deriving DecidableEq, Repr

/-- Why the machine refuses a move. -/
inductive Refusal where
  /-- Raised by a refused arm of the dispatch: the instruction has no meaning yet. Safe. -/
  | notModelled (mnemonic : String)
  /-- Raised by `PREPARE`, `PROCESS`, `WRREG` and `RDREG` while another command is in flight: "cannot
  happen on this port" (R31, R125), "no behaviour is defined, and the model's host has no such move"
  (R160). Safe. -/
  | hostBlocked
  /-- Raised by the step on a `C:` line whose word is no row of the U table (R63). Safe. -/
  | noSuchMicroOperation
deriving DecidableEq, Repr

/-- The machine's state. -/
structure State where
  /-- `RF` and the `act` flags (R19, R23). -/
  rf : RegFile
  /-- The sequence counter (R25). -/
  seq : Seq
  /-- `STATUS.PREP` (R27). -/
  prep : Bool
  /-- `STATUS.FAULT`, bits 14:8 (R27): bit `code - 1`. -/
  fault : BitVec 7
  /-- Host register 2 (R28). -/
  argSr : F
  /-- Host register 3 (R29). -/
  sr : F
  /-- Host register 4, bits 15:0 (R30). -/
  maxblk : BitVec 16
  /-- The parameter store `P[0..6]` (R32). -/
  par : Params
  /-- The staging registers (R33). -/
  stg : Staging
  /-- The micro-operation latches (R63). -/
  uop : Latches
  /-- The model's own: position in a several-step micro-operation of a listing (log 5). -/
  micro : Option MicroPos
  /-- The buffer (R41, R42). -/
  buf : Memory
  /-- The value the last host read returned (R64, log 6). -/
  hostData : BitVec 32
  /-- The model's own: the moves still to come (R54, log 2). -/
  listing : List Move
deriving DecidableEq, Repr

/-- A slot nothing has written since hardware reset (R37). -/
def Slot.novalue : Slot := ⟨none, none, none, none, none, none, none⟩

/-- A chain nothing has written since hardware reset (R37). -/
def ChainRegs.novalue : ChainRegs :=
  { lc0 := Slot.novalue, lc1 := Slot.novalue, lc2 := Slot.novalue, lc3 := Slot.novalue
    pk := Slot.novalue
    hc0 := Slot.novalue, hc1 := Slot.novalue, hc2 := Slot.novalue, hc3 := Slot.novalue
    actLc0 := none, actLc1 := none, actLc2 := none, actLc3 := none
    actHc0 := none, actHc1 := none, actHc2 := none, actHc3 := none }

/-- Seven cells nothing has written since hardware reset (R37). -/
def Params.novalue : Params := ⟨none, none, none, none, none, none, none⟩

/-- A coefficient set of zero bits. -/
def CoefSet.zero : CoefSet := ⟨0, 0, 0, 0, 0⟩

/-- No live staging (R37: "none" after hardware reset, "dead" after a command; the zeros are a
DESIGN CHOICE, log 4). -/
def Staging.dead : Staging :=
  { snap := Params.novalue, nL := 0, nH := 0, pk := CoefSet.zero, lc := [], hc := [], rate := 0 }

/-- The latches after reset (DESIGN CHOICE, log 4). -/
def Latches.initial : Latches :=
  { c := .left, k := .lc0, side := .low, idx := 0, order := .o2, kind := .hp, len := 0, count := 0
    sr := 0, freq := 0, q := 0, gdb := 0, x := 0, y := 0, set := CoefSet.zero, seqn := [] }

/-- The machine right after hardware reset (R37, R157), with nothing in the buffer (log 3) and no
move to come. -/
def State.reset : State :=
  { rf := ⟨ChainRegs.novalue, ChainRegs.novalue⟩
    seq := .idle
    prep := false
    fault := 0
    argSr := 0
    sr := 0
    maxblk := 0
    par := Params.novalue
    stg := Staging.dead
    uop := Latches.initial
    micro := none
    buf := []
    hostData := 0
    listing := [] }

end Sys2Proof.Machine
end

