-- ==== Sys2Proof/Machine/Ops.lean ====
section
/-! DEFINITION. The named operations over the state: one update per field, the register file, the
parameter store, the buffer, fault entry (R144) and hardware reset (R156), the way out of a fault. -/

namespace Sys2Proof.Machine

/-- The outcome of one step. -/
abbrev Result := Host.Outcome State Fault Refusal

/-- Replace `RF` and the flags. -/
def State.setRf (s : State) (v : RegFile) : State := { s with rf := v }

/-- Replace the sequence counter. -/
def State.setSeq (s : State) (v : Seq) : State := { s with seq := v }

/-- Replace `PREP`. -/
def State.setPrep (s : State) (v : Bool) : State := { s with prep := v }

/-- Replace `FAULT`. -/
def State.setFault (s : State) (v : BitVec 7) : State := { s with fault := v }

/-- Replace `ARG_SR`. -/
def State.setArgSr (s : State) (v : F) : State := { s with argSr := v }

/-- Replace `SR`. -/
def State.setSr (s : State) (v : F) : State := { s with sr := v }

/-- Replace `MAXBLK`. -/
def State.setMaxblk (s : State) (v : BitVec 16) : State := { s with maxblk := v }

/-- Replace the parameter store. -/
def State.setPar (s : State) (v : Params) : State := { s with par := v }

/-- Replace the staging registers. -/
def State.setStg (s : State) (v : Staging) : State := { s with stg := v }

/-- Replace the micro-operation latches. -/
def State.setUop (s : State) (v : Latches) : State := { s with uop := v }

/-- Replace the position in a listing's micro-operation. -/
def State.setMicro (s : State) (v : Option MicroPos) : State := { s with micro := v }

/-- Replace the buffer. -/
def State.setBuf (s : State) (v : Memory) : State := { s with buf := v }

/-- Replace the value last returned to the host. -/
def State.setHostData (s : State) (v : BitVec 32) : State := { s with hostData := v }

/-- Replace the moves still to come. -/
def State.setListing (s : State) (v : List Move) : State := { s with listing := v }

/-- The registers of a slot by index (R19). -/
def Slot.get (sl : Slot) : Reg → Option F
  | .b0 => sl.b0
  | .b1 => sl.b1
  | .b2 => sl.b2
  | .a1 => sl.a1
  | .a2 => sl.a2
  | .w1 => sl.w1
  | .w2 => sl.w2

/-- Write one register of a slot (R19). -/
def Slot.put (sl : Slot) (j : Reg) (v : F) : Slot :=
  match j with
  | .b0 => { sl with b0 := some v }
  | .b1 => { sl with b1 := some v }
  | .b2 => { sl with b2 := some v }
  | .a1 => { sl with a1 := some v }
  | .a2 => { sl with a2 := some v }
  | .w1 => { sl with w1 := some v }
  | .w2 => { sl with w2 := some v }

/-- The slots of a chain by index (R18). -/
def ChainRegs.slot (r : ChainRegs) : SlotId → Slot
  | .lc0 => r.lc0
  | .lc1 => r.lc1
  | .lc2 => r.lc2
  | .lc3 => r.lc3
  | .pk => r.pk
  | .hc0 => r.hc0
  | .hc1 => r.hc1
  | .hc2 => r.hc2
  | .hc3 => r.hc3

/-- Replace one slot of a chain. -/
def ChainRegs.setSlot (r : ChainRegs) (k : SlotId) (v : Slot) : ChainRegs :=
  match k with
  | .lc0 => { r with lc0 := v }
  | .lc1 => { r with lc1 := v }
  | .lc2 => { r with lc2 := v }
  | .lc3 => { r with lc3 := v }
  | .pk => { r with pk := v }
  | .hc0 => { r with hc0 := v }
  | .hc1 => { r with hc1 := v }
  | .hc2 => { r with hc2 := v }
  | .hc3 => { r with hc3 := v }

/-- One chain's part of the register file. -/
def RegFile.chain (rf : RegFile) : Chain → ChainRegs
  | .left => rf.left
  | .right => rf.right

/-- Replace one chain's part of the register file. -/
def RegFile.setChain (rf : RegFile) (c : Chain) (v : ChainRegs) : RegFile :=
  match c with
  | .left => { rf with left := v }
  | .right => { rf with right := v }

/-- The seven registers of slot `(c, k)`. -/
def RegFile.slot (rf : RegFile) (c : Chain) (k : SlotId) : Slot := (rf.chain c).slot k

/-- Replace the seven registers of slot `(c, k)`. -/
def RegFile.setSlot (rf : RegFile) (c : Chain) (k : SlotId) (v : Slot) : RegFile :=
  rf.setChain c ((rf.chain c).setSlot k v)

/-- The content of `RF[c][k][j]`: an `F` or `novalue` (R19, R36). -/
def RegFile.read (rf : RegFile) (c : Chain) (k : SlotId) (j : Reg) : Option F := (rf.slot c k).get j

/-- `RF[c][k][j] <- v` (R12, R19). -/
def RegFile.write (rf : RegFile) (c : Chain) (k : SlotId) (j : Reg) (v : F) : RegFile :=
  rf.setSlot c k ((rf.slot c k).put j v)

/-- The cell `P[j]`, or `S[j]` of a snapshot (R32, R33). -/
def Params.get (p : Params) : ParamId → Option F
  | .lowCutFreq => p.lowCutFreq
  | .highCutFreq => p.highCutFreq
  | .peakFreq => p.peakFreq
  | .peakGainDb => p.peakGainDb
  | .peakQuality => p.peakQuality
  | .lowCutSlope => p.lowCutSlope
  | .highCutSlope => p.highCutSlope

/-- Replace the cell of index `j`. -/
def Params.put (p : Params) (j : ParamId) (v : Option F) : Params :=
  match j with
  | .lowCutFreq => { p with lowCutFreq := v }
  | .highCutFreq => { p with highCutFreq := v }
  | .peakFreq => { p with peakFreq := v }
  | .peakGainDb => { p with peakGainDb := v }
  | .peakQuality => { p with peakQuality := v }
  | .lowCutSlope => { p with lowCutSlope := v }
  | .highCutSlope => { p with highCutSlope := v }

/-- The parameter of an index on the parameter port; 7 names none (R32, R65). -/
def paramOfIndex (idx : BitVec 3) : Option ParamId :=
  match idx.toNat with
  | 0 => some .lowCutFreq
  | 1 => some .highCutFreq
  | 2 => some .peakFreq
  | 3 => some .peakGainDb
  | 4 => some .peakQuality
  | 5 => some .lowCutSlope
  | 6 => some .highCutSlope
  | _ => none

/-- The parameter read after `j`, in ascending index; none after the seventh (R116). -/
def nextParam : ParamId → Option ParamId
  | .lowCutFreq => some .highCutFreq
  | .highCutFreq => some .peakFreq
  | .peakFreq => some .peakGainDb
  | .peakGainDb => some .peakQuality
  | .peakQuality => some .lowCutSlope
  | .lowCutSlope => some .highCutSlope
  | .highCutSlope => none

/-- What a byte of buffer memory that nothing has written reads as (DESIGN CHOICE, log 3). -/
def unlistedByte : Byte := 0

/-- The byte at address `a`. -/
def loadByte : Memory → Nat → Byte
  | [], _ => unlistedByte
  | (k, v) :: rest, a => if k = a then v else loadByte rest a

/-- Store a byte, keeping the canonical form: addresses strictly rising, and no entry for a byte that
equals what an unlisted address reads as. -/
def storeByte : Memory → Nat → Byte → Memory
  | [], a, v => if v = unlistedByte then [] else [(a, v)]
  | (k, w) :: rest, a, v =>
    if a < k then
      if v = unlistedByte then (k, w) :: rest else (a, v) :: (k, w) :: rest
    else if a = k then
      if v = unlistedByte then rest else (a, v) :: rest
    else (k, w) :: storeByte rest a v

/-- The canonical form above a bound: every address is at least `lo`, strictly rising, no unlisted
value. -/
def Memory.wfFrom : Nat → Memory → Bool
  | _, [] => true
  | lo, (k, v) :: rest => decide (lo ≤ k) && v != unlistedByte && Memory.wfFrom (k + 1) rest

/-- The canonical form of a memory. -/
def Memory.wf (m : Memory) : Bool := Memory.wfFrom 0 m

/-- The byte address of sample `i` of channel `ch`: the number of the pair `(ch, i)`, four bytes a
cell (R39, R46; log 7). -/
def cellAddr (ch : BitVec 8) (i : BitVec 16) : Nat := 4 * (65536 * ch.toNat + i.toNat)

/-- The 32-bit cell at byte address `a`, "bits 7:0 of the cell at the lowest byte address" (R45). -/
def loadCell (m : Memory) (a : Nat) : F :=
  loadByte m (a + 3) ++ loadByte m (a + 2) ++ loadByte m (a + 1) ++ loadByte m a

/-- Store a whole 32-bit cell at byte address `a` (R45, R47). -/
def storeCell (m : Memory) (a : Nat) (v : F) : Memory :=
  storeByte
    (storeByte
      (storeByte (storeByte m a (v.extractLsb' 0 8)) (a + 1) (v.extractLsb' 8 8))
      (a + 2) (v.extractLsb' 16 8))
    (a + 3) (v.extractLsb' 24 8)

/-- `MemRead(BUF, (ch, i), 4)` (R42). -/
def memRead (s : State) (ch : BitVec 8) (i : BitVec 16) : F := loadCell s.buf (cellAddr ch i)

/-- `MemWrite(BUF, (ch, i), 4, v)` (R42). -/
def memWrite (s : State) (ch : BitVec 8) (i : BitVec 16) (v : F) : State :=
  s.setBuf (storeCell s.buf (cellAddr ch i) v)

/-- The channel a chain filters (R128). -/
def channelOf : Chain → BitVec 8
  | .left => 0
  | .right => 1

/-- The fault codes of R135, 1 to 7. -/
def faultCode : FaultCode → Nat
  | .illcmd => 1
  | .notprep => 2
  | .nch => 3
  | .len => 4
  | .sr => 5
  | .param => 6
  | .nyq => 7

/-- The fault's bit in `FAULT`: `STATUS.FAULT[code(X) - 1]` (R144). -/
def faultBit (f : FaultCode) : BitVec 7 := 1#7 <<< (faultCode f - 1)

/-- FAULT ENTRY, `raise Fault(X)` (R144): the sticky bit is set and `seq <- HALT`, "and nothing else".
The staging registers and the position of a micro-operation die with the command (R33, log 4). -/
def raise (f : FaultCode) (s : State) : State :=
  (((s.setFault (s.fault ||| faultBit f)).setSeq .halt).setStg Staging.dead).setMicro none

/-- HARDWARE RESET (R156), "the only way to leave `HALT`": every cell takes its reset value in one
step; "Reset does not touch the buffer or platform memory". What the host last read and the moves
still to come are not the core's. -/
def hwReset (s : State) : State :=
  ((State.reset.setBuf s.buf).setHostData s.hostData).setListing s.listing

/-- The end of a command: `seq <- IDLE`, staging dead (R33, R37). -/
def finish (s : State) : State := (s.setSeq .idle).setStg Staging.dead

/-- A micro-operation's effect `t` on `s`, which a halted core does not have: "In `seq = HALT` the
core takes no step" (R145). -/
def coreDoes (s t : State) : Result := .next (if s.seq = .halt then s else t)

/-- Whether the core is at work: a command is in flight (R125), or a several-step micro-operation of
a listing is (log 5). Neither the host nor a `C:` line moves meanwhile. -/
def busy (s : State) : Bool :=
  match s.seq with
  | .run _ _ => true
  | .idle => s.micro.isSome
  | .halt => false

end Sys2Proof.Machine
end

