-- ==== Sys2Proof/Machine/Flags.lean ====
section
/-! DEFINITION. The flags: the `act` bits (R23) and the fields of `STATUS` (R27). There are no
condition codes and no IEEE exception flags (R23). -/

namespace Sys2Proof.Machine

/-- The flag of a slot; "For `k = 4` (the peak slot) the flag is hardwired to 1" (R23). -/
def ChainRegs.flag (r : ChainRegs) : SlotId → Option Bool
  | .lc0 => r.actLc0
  | .lc1 => r.actLc1
  | .lc2 => r.actLc2
  | .lc3 => r.actLc3
  | .pk => some true
  | .hc0 => r.actHc0
  | .hc1 => r.actHc1
  | .hc2 => r.actHc2
  | .hc3 => r.actHc3

/-- Write the flag of a slot; no operation writes the peak slot's (R23). -/
def ChainRegs.setFlag (r : ChainRegs) (k : SlotId) (v : Bool) : ChainRegs :=
  match k with
  | .lc0 => { r with actLc0 := some v }
  | .lc1 => { r with actLc1 := some v }
  | .lc2 => { r with actLc2 := some v }
  | .lc3 => { r with actLc3 := some v }
  | .pk => r
  | .hc0 => { r with actHc0 := some v }
  | .hc1 => { r with actHc1 := some v }
  | .hc2 => { r with actHc2 := some v }
  | .hc3 => { r with actHc3 := some v }

/-- The content of `act[c][k]`: a bit or `novalue` (R23, R37). -/
def RegFile.flag (rf : RegFile) (c : Chain) (k : SlotId) : Option Bool := (rf.chain c).flag k

/-- `act[c][k] <- v` (R12). -/
def RegFile.setFlag (rf : RegFile) (c : Chain) (k : SlotId) (v : Bool) : RegFile :=
  rf.setChain c ((rf.chain c).setFlag k v)

/-- `STATUS.HALTED`: "1 when `FAULT != 0`", derived (R27). -/
def haltedBit (s : State) : BitVec 1 := if s.fault = 0 then 0 else 1

/-- `STATUS`: `PREP | (HALTED << 1) | (FAULT << 8)`, reserved bits 0 (R27, R134). -/
def statusWord (s : State) : BitVec 32 :=
  0#17 ++ s.fault ++ 0#6 ++ haltedBit s ++ BitVec.ofBool s.prep

end Sys2Proof.Machine
end

