-- ==== Sys2Proof/Machine/Operands.lean ====
section
/-! DEFINITION. The operand forms: what a register, a flag and a staged parameter read as, the slope
index of a parameter value (R117), the slots of a cut side (R18), and the latches' results. -/

namespace Sys2Proof.Machine

/-- `RF[c][k][j]` as an operand; a `novalue` cell holds any bits (R36, R157; log 11). -/
def RegFile.value (rf : RegFile) (c : Chain) (k : SlotId) (j : Reg) : F :=
  (rf.read c k j).getD (Config.novalueReg c k j)

/-- `act[c][k] == 1` as a test; a `novalue` flag holds any bit (R36, R157; log 11). -/
def RegFile.active (rf : RegFile) (c : Chain) (k : SlotId) : Bool :=
  (rf.flag c k).getD (Config.novalueFlag c k)

/-- `S[j]` as an operand of an operation after `PCHECK` (R119; log 12 for `novalue`). -/
def Params.value (p : Params) (j : ParamId) : F := (p.get j).getD (Config.novalueParam j)

/-- `slope_index(v)` (R117): four IEEE equality tests; `none` for every other pattern. -/
def slopeIndex (v : F) : Option SlopeIndex :=
  if fEq v 0x00000000#32 then some 0
  else if fEq v 0x3F800000#32 then some 1
  else if fEq v 0x40000000#32 then some 2
  else if fEq v 0x40400000#32 then some 3
  else none

/-- The slope index `UPD_APPLY` uses; a value that has none is outside its domain (R119; log 12). -/
def slopeOperand (v : F) : SlopeIndex := (slopeIndex v).getD (Config.slopeOfUnchecked v)

/-- The cut slots of a side, ascending. -/
def cutSlots : List (Fin 4) := [0, 1, 2, 3]

/-- `slot(s, i)`: `i` on the low side, `5 + i` on the high side (R18). -/
def slotOf : Side → Fin 4 → SlotId
  | .low, 0 => .lc0
  | .low, 1 => .lc1
  | .low, 2 => .lc2
  | .low, 3 => .lc3
  | .high, 0 => .hc0
  | .high, 1 => .hc1
  | .high, 2 => .hc2
  | .high, 3 => .hc3

/-- `seqn[i]`; a shorter sequence "cannot be passed" (R99; log 12). -/
def setAt (seqn : List CoefSet) (i : Nat) : CoefSet := seqn.getD i (Config.missingSet i)

/-- The nine slots of a chain in signal order (R18). -/
def allSlots : List SlotId := [.lc0, .lc1, .lc2, .lc3, .pk, .hc0, .hc1, .hc2, .hc3]

/-- The latch `count` takes a result. -/
def State.putCount (s : State) (v : BitVec 3) : State := s.setUop { s.uop with count := v }

/-- The latch `order` takes a result. -/
def State.putOrder (s : State) (v : Order) : State := s.setUop { s.uop with order := v }

/-- The latch `set` takes a result. -/
def State.putSet (s : State) (v : CoefSet) : State := s.setUop { s.uop with set := v }

/-- The latch `seqn` takes a result. -/
def State.putSeqn (s : State) (v : List CoefSet) : State := s.setUop { s.uop with seqn := v }

/-- The latch `y` takes a result. -/
def State.putY (s : State) (v : F) : State := s.setUop { s.uop with y := v }

end Sys2Proof.Machine
end

