-- ==== Sys2Proof/Machine/Biquad.lean ====
section
/-! DEFINITION. The biquad section, canonical direct-form II (file 41): `BQ_LOAD`, `BQ_RESET`,
`BQ_STEP`. -/

namespace Sys2Proof.Machine

/-- `BQ_LOAD(c, k, set)` (R92): the five coefficient registers; the delay line and the flag stay. -/
def bqLoad (rf : RegFile) (c : Chain) (k : SlotId) (set : CoefSet) : RegFile :=
  rf.setSlot c k
    { rf.slot c k with
      b0 := some set.b0, b1 := some set.b1, b2 := some set.b2
      a1 := some set.a1, a2 := some set.a2 }

/-- `BQ_RESET(c, k)` (R93): `w1`, `w2` become `+0.0`; coefficients and flag stay. -/
def bqReset (rf : RegFile) (c : Chain) (k : SlotId) : RegFile :=
  rf.setSlot c k { rf.slot c k with w1 := some 0, w2 := some 0 }

/-- The new internal sample `w0 = (x -. a1 *. w1) -. a2 *. w2` (R94). -/
def bqInner (rf : RegFile) (c : Chain) (k : SlotId) (x : F) : F :=
  let t1 := fMul (rf.value c k .a1) (rf.value c k .w1)
  let t2 := fMul (rf.value c k .a2) (rf.value c k .w2)
  fSub (fSub x t1) t2

/-- The output `y = ((b0 *. w0) +. (b1 *. w1)) +. (b2 *. w2)` (R94). -/
def bqOutput (rf : RegFile) (c : Chain) (k : SlotId) (x : F) : F :=
  fAdd
    (fAdd (fMul (rf.value c k .b0) (bqInner rf c k x)) (fMul (rf.value c k .b1) (rf.value c k .w1)))
    (fMul (rf.value c k .b2) (rf.value c k .w2))

/-- `BQ_STEP(c, k, x) -> y` (R94): output and register file after the simultaneous assignment
`(w1, w2) <- (w0, w1)`. -/
def bqStep (rf : RegFile) (c : Chain) (k : SlotId) (x : F) : F × RegFile :=
  (bqOutput rf c k x,
   (rf.write c k .w2 (rf.value c k .w1)).write c k .w1 (bqInner rf c k x))

/-- `BQ_LOAD` (R92): operands `c`, `k`, `set`. -/
def execBqLoad (s : State) : Result :=
  coreDoes s (s.setRf (bqLoad s.rf s.uop.c s.uop.k s.uop.set))

/-- `BQ_RESET` (R93): operands `c`, `k`. -/
def execBqReset (s : State) : Result := coreDoes s (s.setRf (bqReset s.rf s.uop.c s.uop.k))

/-- `BQ_STEP` (R94): operands `c`, `k`, `x`, result `y`. -/
def execBqStep (s : State) : Result :=
  let r := bqStep s.rf s.uop.c s.uop.k s.uop.x
  coreDoes s ((s.setRf r.2).putY r.1)

end Sys2Proof.Machine
end

