-- ==== Sys2Proof/Machine/Elementary.lean ====
section
/-! DEFINITION. The four elementary functions of R79: configuration, free but for the properties E1
to E4 that "every implementation must satisfy". Each is an opaque function of Config, replaced by the
reference realisation at the operands where it breaks a property (log 8, log 9). -/

namespace Sys2Proof.Machine

/-- `F(pi)` (R80 `PI`). -/
def fPi : F := 0x40490FDB#32

/-- `F(pi) /. 2`, the end of the tangent's domain (R79 E3, R164). -/
def fHalfPi : F := 0x3FC90FDB#32

/-- `F(1.2)`, the end of the power's domain (R79 E3). -/
def fOnePointTwo : F := 0x3F99999A#32

/-- `1.0`. -/
def fOne : F := 0x3F800000#32

/-- An exact ratio: `num / den` units of 2^-149 with a sign. -/
structure Ratio where
  neg : Bool
  num : Nat
  den : Nat
deriving DecidableEq, Repr

/-- The fixed-point scale of the series: reals are counted in units of 2^-256. -/
def seriesScale : Nat := 2 ^ 256

/-- `t - t * x2 / ((k+1)(k+2)) + ...`, the alternating Taylor sum shared by sine and cosine. -/
def altSum : (fuel k x2 t : Nat) → Int
  | 0, _, _, _ => 0
  | fuel + 1, k, x2, t =>
    (t : Int) - altSum fuel (k + 2) x2 (t * x2 / seriesScale / ((k + 1) * (k + 2)))

/-- `t + t * y / k + ...`, the Taylor sum of the exponential. -/
def expSum : (fuel k y t : Nat) → Nat
  | 0, _, _, _ => 0
  | fuel + 1, k, y, t => t + expSum fuel (k + 1) y (t * y / seriesScale / k)

/-- A finite magnitude at the series' scale. -/
def atSeriesScale (x : F) : Nat := magUnits x * 2 ^ 107

/-- The sine of a datum in [0, 4), at the series' scale. -/
def sinScaled (x : F) : Int :=
  let v := atSeriesScale x
  altSum 60 1 (v * v / seriesScale) v

/-- The cosine of a datum in [0, 4), at the series' scale. -/
def cosScaled (x : F) : Int :=
  let v := atSeriesScale x
  altSum 60 0 (v * v / seriesScale) seriesScale

/-- The natural logarithm of 10 at the series' scale, rounded down. -/
def lnTen : Nat :=
  266621138564480548222253459415182587429914225440519472036001743423645469947338

/-- The sine as a ratio. -/
def sinRatio (x : F) : Ratio :=
  let v := sinScaled x
  ⟨decide (v < 0), v.natAbs * 2 ^ 149, seriesScale⟩

/-- The cosine as a ratio. -/
def cosRatio (x : F) : Ratio :=
  let v := cosScaled x
  ⟨decide (v < 0), v.natAbs * 2 ^ 149, seriesScale⟩

/-- The tangent as a ratio. -/
def tanRatio (x : F) : Ratio :=
  let sv := sinScaled x
  let cv := cosScaled x
  ⟨decide (sv < 0) != decide (cv < 0), sv.natAbs * 2 ^ 149, cv.natAbs⟩

/-- Ten to the power of a datum in [-4, 4] as a ratio: `exp(|x| ln 10)` or its reciprocal. -/
def pow10Ratio (x : F) : Ratio :=
  let e := expSum 90 1 (atSeriesScale x * lnTen / seriesScale) seriesScale
  if signBit x then ⟨false, seriesScale * 2 ^ 149, e⟩ else ⟨false, e * 2 ^ 149, seriesScale⟩

/-- The ratio rounded to nearest: the reference realisation of R79. -/
def nearest (r : Ratio) : F := roundRatio r.neg r.num r.den

/-- E3 (R79): `y` is "within one unit in the last place of the real function's value" `r`. -/
def withinOneUlp (r : Ratio) (y : F) : Bool :=
  isFinite y &&
    decide ((signedUnits y * r.den - (if r.neg then -(r.num : Int) else (r.num : Int))).natAbs
      ≤ 2 ^ (expField (nearest r) - 1) * r.den)

/-- The value `raw` held to E3 and to the property `e4`: itself where it has both, and the reference
realisation where it has not. -/
def heldTo (r : Ratio) (e4 : F → Bool) (raw : F) : F :=
  if withinOneUlp r raw && e4 raw then raw
  else if e4 (nearest r) then nearest r
  else fOne

/-- The domain of E3 and E4 for sine and cosine: `0 <. x <. F(pi)` (R79). -/
def inTrigDomain (x : F) : Bool := fLt 0 x && fLt x fPi

/-- The domain of E3 and E4 for the tangent: `0 <. x <. F(pi) /. 2` (R79). -/
def inTanDomain (x : F) : Bool := fLt 0 x && fLt x fHalfPi

/-- The domain of E3 and E4 for the power: `-1.2 <=. x <=. 1.2` (R79). -/
def inPowDomain (x : F) : Bool := fLe (fNeg fOnePointTwo) x && fLe x fOnePointTwo

/-- E4 for sine, tangent and power: the value is greater than zero. -/
def isPositive (y : F) : Bool := fLt 0 y

/-- E4 for the cosine: `|y| <=. 1`. -/
def isWithinOne (y : F) : Bool := fLe (fNeg fOne) y && fLe y fOne

/-- The four elementary functions of the machine (R79, D4). -/
def numFns : NumFns where
  sin x :=
    if inTrigDomain x then heldTo (sinRatio x) isPositive (Config.rawSin x) else Config.rawSin x
  cos x :=
    if inTrigDomain x then heldTo (cosRatio x) isWithinOne (Config.rawCos x) else Config.rawCos x
  tan x :=
    if inTanDomain x then heldTo (tanRatio x) isPositive (Config.rawTan x) else Config.rawTan x
  pow10 x :=
    if isZero x then fOne
    else if inPowDomain x then heldTo (pow10Ratio x) isPositive (Config.rawPow10 x)
    else Config.rawPow10 x

/-- The reference realisation of R79 on the domains of E3, for the vectors marked "(ref)". -/
def refNum : NumFns where
  sin x := nearest (sinRatio x)
  cos x := nearest (cosRatio x)
  tan x := nearest (tanRatio x)
  pow10 x := nearest (pow10Ratio x)

end Sys2Proof.Machine
end

