-- ==== Sys2Proof/Machine/Calculator.lean ====
section
/-! DEFINITION. The coefficient calculator (file 40): `SLOPE2COUNT`, `SLOPE2ORDER`, `CALC_PEAK`,
`CALC_CUT`. -/

namespace Sys2Proof.Machine

/-- `N = idx + 1`, a 3-bit result (R74, R76). -/
def slopeCount (idx : SlopeIndex) : BitVec 3 := idx.setWidth 3 + 1

/-- `order = [2, 4, 6, 8][idx]`, a lookup (R75). -/
def slopeOrder (idx : SlopeIndex) : Order :=
  if idx = 0#2 then .o2
  else if idx = 1#2 then .o4
  else if idx = 2#2 then .o6
  else .o8

/-- `TWO_PI` (R80). -/
def fTwoPi : F := 0x40C90FDB#32

/-- `2.0` (R80). -/
def fTwo : F := 0x40000000#32

/-- `-2.0`. -/
def fMinusTwo : F := 0xC0000000#32

/-- `20.0` (R80). -/
def fTwenty : F := 0x41A00000#32

/-- `INVQ[order][i]`, `i` in `0..order/2 - 1` (R80). -/
def invQ : Order → List F
  | .o2 => [0x3FB504F3#32]
  | .o4 => [0x3FEC835E#32, 0x3F43EF15#32]
  | .o6 => [0x3FF746EA#32, 0x3FB504F3#32, 0x3F0483EE#32]
  | .o8 => [0x3FFB14BE#32, 0x3FD4DB31#32, 0x3F8E39DA#32, 0x3EC7C5C2#32]

/-- `CALC_PEAK(sr, f, q, gdb)` (R81), in the order of operations of its pseudocode, over the
elementary functions `nf` (R79). -/
def peakDesign (nf : NumFns) (sr f q gdb : F) : CoefSet :=
  let g := nf.pow10 (fDiv gdb fTwenty)
  let a := fSqrt g
  let w0 := fDiv (fMul fTwoPi f) sr
  let sn := nf.sin w0
  let cs := nf.cos w0
  let alpha := fDiv sn (fMul fTwo q)
  let n1 := fMul fMinusTwo cs
  let aA := fMul alpha a
  let aoA := fDiv alpha a
  let a0 := fAdd fOne aoA
  { b0 := fDiv (fAdd fOne aA) a0
    b1 := fDiv n1 a0
    b2 := fDiv (fSub fOne aA) a0
    a1 := fDiv n1 a0
    a2 := fDiv (fSub fOne aoA) a0 }

/-- One section of `CALC_CUT` (R84): `iq` is `1/Q`, `k` the pre-warped cutoff and `k2` its square. -/
def cutSection (kind : Kind) (k k2 iq : F) : CoefSet :=
  let t := fMul iq k
  let d := fAdd (fAdd fOne t) k2
  let nrm := fDiv fOne d
  let a1 := fMul (fMul fTwo (fSub k2 fOne)) nrm
  let a2 := fMul (fAdd (fSub fOne t) k2) nrm
  match kind with
  | .lp =>
    let b0 := fMul k2 nrm
    { b0 := b0, b1 := fMul fTwo b0, b2 := b0, a1 := a1, a2 := a2 }
  | .hp => { b0 := nrm, b1 := fNeg (fMul fTwo nrm), b2 := nrm, a1 := a1, a2 := a2 }

/-- `CALC_CUT(fc, sr, order, kind)` (R84): `order/2` sets, section `i` first with `INVQ[order][i]`
(R86). -/
def cutDesign (nf : NumFns) (fc sr : F) (order : Order) (kind : Kind) : List CoefSet :=
  let k := nf.tan (fDiv (fMul fPi fc) sr)
  let k2 := fMul k k
  (invQ order).map (cutSection kind k k2)

/-- `SLOPE2COUNT` (R74): `idx` to `count`. -/
def execSlope2count (s : State) : Result := coreDoes s (s.putCount (slopeCount s.uop.idx))

/-- `SLOPE2ORDER` (R75): `idx` to `order`. -/
def execSlope2order (s : State) : Result := coreDoes s (s.putOrder (slopeOrder s.uop.idx))

/-- `CALC_PEAK` (R81): `sr`, `freq`, `q`, `gdb` to `set`. -/
def execCalcPeak (s : State) : Result :=
  coreDoes s (s.putSet (peakDesign numFns s.uop.sr s.uop.freq s.uop.q s.uop.gdb))

/-- `CALC_CUT` (R84): `freq` (the cutoff), `sr`, `order`, `kind` to `seqn`. -/
def execCalcCut (s : State) : Result :=
  coreDoes s (s.putSeqn (cutDesign numFns s.uop.freq s.uop.sr s.uop.order s.uop.kind))

end Sys2Proof.Machine
end

