-- ==== Sys2Proof/Machine/Cascade.lean ====
section
/-! DEFINITION. The cut-filter cascade (file 42): `CFG_CUT`, `CASC_STEP`. -/

namespace Sys2Proof.Machine

/-- Step 1 of `CFG_CUT` (R99): the four flags of the side become 0. -/
def bypassAll (rf : RegFile) (c : Chain) (side : Side) : RegFile :=
  cutSlots.foldl (fun rf i => rf.setFlag c (slotOf side i) false) rf

/-- One turn of step 2 of `CFG_CUT` (R99): "write first", "then activate". -/
def loadAndActivate (c : Chain) (side : Side) (seqn : List CoefSet) (rf : RegFile) (i : Fin 4) :
    RegFile :=
  (bqLoad rf c (slotOf side i) (setAt seqn i)).setFlag c (slotOf side i) true

/-- `CFG_CUT(c, s, idx, seqn)` (R99): bypass all four slots, then load and activate slots
`0..N-1`, ascending, with `N = SLOPE2COUNT(idx)`. -/
def cfgCut (rf : RegFile) (c : Chain) (side : Side) (idx : SlopeIndex) (seqn : List CoefSet) :
    RegFile :=
  (cutSlots.take (slopeCount idx).toNat).foldl (loadAndActivate c side seqn) (bypassAll rf c side)

/-- One turn of `CASC_STEP` (R102): an active slot steps, a bypassed one passes the pattern through
and keeps its registers (R103). -/
def cascTurn (c : Chain) (side : Side) (v : F × RegFile) (i : Fin 4) : F × RegFile :=
  if v.2.active c (slotOf side i) then bqStep v.2 c (slotOf side i) v.1 else v

/-- `CASC_STEP(c, s, x) -> y` (R102): all four slots visited, ascending. -/
def cascStep (rf : RegFile) (c : Chain) (side : Side) (x : F) : F × RegFile :=
  cutSlots.foldl (cascTurn c side) (x, rf)

/-- `CFG_CUT` (R99): operands `c`, `side`, `idx`, `seqn`. -/
def execCfgCut (s : State) : Result :=
  coreDoes s (s.setRf (cfgCut s.rf s.uop.c s.uop.side s.uop.idx s.uop.seqn))

/-- `CASC_STEP` (R102): operands `c`, `side`, `x`, result `y`. -/
def execCascStep (s : State) : Result :=
  let r := cascStep s.rf s.uop.c s.uop.side s.uop.x
  coreDoes s ((s.setRf r.2).putY r.1)

end Sys2Proof.Machine
end

