-- ==== Sys2Proof/Machine/ChannelChain.lean ====
section
/-! DEFINITION. The mono channel chain (file 43): `CFG_PEAK`, `CHAIN_STEP`, `CHAIN_PROC`. -/

namespace Sys2Proof.Machine

/-- `CFG_PEAK(c, set)` (R108): `BQ_LOAD(c, 4, set)`; the flag is hard-wired. -/
def cfgPeak (rf : RegFile) (c : Chain) (set : CoefSet) : RegFile := bqLoad rf c .pk set

/-- `CHAIN_STEP(c, x) -> y` (R107, R109): LowCut, then Peak unconditionally, then HighCut. -/
def chainStep (rf : RegFile) (c : Chain) (x : F) : F × RegFile :=
  let u := cascStep rf c .low x
  let p := bqStep u.2 c .pk u.1
  cascStep p.2 c .high p.1

/-- One iteration of `CHAIN_PROC` (R110): read sample `n`, step the chain, write sample `n`. -/
def procSample (c : Chain) (n : BitVec 16) (s : State) : State :=
  let r := chainStep s.rf c (memRead s (channelOf c) n)
  memWrite (s.setRf r.2) (channelOf c) n r.1

/-- The iteration of `CHAIN_PROC(c, len)` at sample `n`, with what follows it: the next sample, or
the end of the operation after the last (R110; log 5). -/
def chainProcAt (n : BitVec 16) (s : State) : State :=
  (procSample s.uop.c n s).setMicro
    (if n.toNat + 1 < s.uop.len.toNat then some (.chainProc (n + 1)) else none)

/-- The sample a `CHAIN_PROC` is at: the first when it starts. -/
def chainProcStart (s : State) : BitVec 16 :=
  match s.micro with
  | some (.chainProc n) => n
  | _ => 0

/-- `CFG_PEAK` (R108): operands `c`, `set`. -/
def execCfgPeak (s : State) : Result := coreDoes s (s.setRf (cfgPeak s.rf s.uop.c s.uop.set))

/-- `CHAIN_STEP` (R109): operands `c`, `x`, result `y`. -/
def execChainStep (s : State) : Result :=
  let r := chainStep s.rf s.uop.c s.uop.x
  coreDoes s ((s.setRf r.2).putY r.1)

/-- `CHAIN_PROC` (R110): operands `c`, `len`; one iteration a step, nothing at all when `len = 0`. A
sample index past the block is no access R42 defines. -/
def execChainProc (s : State) : Result :=
  if s.seq = .halt ∨ s.uop.len = 0 then .next s
  else if s.uop.len.toNat ≤ (chainProcStart s).toNat then .fault .outsideBuffer
  else .next (chainProcAt (chainProcStart s) s)

end Sys2Proof.Machine
end

