-- ==== Sys2Proof/Machine/Update.lean ====
section
/-! DEFINITION. The filter-update orchestrator (file 44): `SNAPSHOT`, `PCHECK`, `UPD_APPLY`,
`UPDATE`. -/

namespace Sys2Proof.Machine

/-- The step `SNAP(j)`: `S[j] <- PRead(j)`, a `novalue` carried along (R49, R116). That a `C:` line's
`SNAPSHOT` leaves the snapshot live for a later `C:` line is a DESIGN CHOICE (log 4). -/
def snapStep (j : ParamId) (s : State) : State :=
  s.setStg { s.stg with snap := s.stg.snap.put j (s.par.get j) }

/-- Some cell of the snapshot holds `novalue`. -/
def anyNovalue (p : Params) : Bool :=
  p.lowCutFreq.isNone || p.highCutFreq.isNone || p.peakFreq.isNone || p.peakGainDb.isNone
    || p.peakQuality.isNone || p.lowCutSlope.isNone || p.highCutSlope.isNone

/-- `lo <=. v and v <=. hi` (R118). -/
def inRange (lo hi v : F) : Bool := fLe lo v && fLe v hi

/-- A frequency's range, 20 to 20000 Hz (R32). -/
def freqInRange (v : F) : Bool := inRange 0x41A00000#32 0x469C4000#32 v

/-- The gain's range, -24 to 24 dB (R32). -/
def gainInRange (v : F) : Bool := inRange 0xC1C00000#32 0x41C00000#32 v

/-- The quality's range, `F(0.1)` to 10 (R32). -/
def qualityInRange (v : F) : Bool := inRange 0x3DCCCCCD#32 0x41200000#32 v

/-- `v` lies in the legal set of `P[j]` (R32). -/
def legalValue (j : ParamId) (v : F) : Bool :=
  match j with
  | .lowCutFreq => freqInRange v
  | .highCutFreq => freqInRange v
  | .peakFreq => freqInRange v
  | .peakGainDb => gainInRange v
  | .peakQuality => qualityInRange v
  | .lowCutSlope => (slopeIndex v).isSome
  | .highCutSlope => (slopeIndex v).isSome

/-- The range tests of `PCHECK` on a snapshot without `novalue` (R118). -/
def paramsInRange (p : Params) : Bool :=
  legalValue .lowCutFreq (p.value .lowCutFreq) && legalValue .highCutFreq (p.value .highCutFreq)
    && legalValue .peakFreq (p.value .peakFreq)
    && legalValue .peakGainDb (p.value .peakGainDb)
    && legalValue .peakQuality (p.value .peakQuality)
    && legalValue .lowCutSlope (p.value .lowCutSlope)
    && legalValue .highCutSlope (p.value .highCutSlope)

/-- The Nyquist tests of `PCHECK`: each frequency `<. 0.5 *. sr` (R118). -/
def belowNyquist (p : Params) (sr : F) : Bool :=
  let h := fMul 0x3F000000#32 sr
  fLt (p.value .lowCutFreq) h && fLt (p.value .highCutFreq) h && fLt (p.value .peakFreq) h

/-- `PCHECK(S, sr)` (R118): the fault it raises, or none when it passes. The `PARAM` tests come
before the Nyquist tests (R143). -/
def checkParams (p : Params) (sr : F) : Option FaultCode :=
  if anyNovalue p then some .param
  else if !paramsInRange p then some .param
  else if !belowNyquist p sr then some .nyq
  else none

/-- What one update computes (R33, R119): the peak set, the two slope indices and the two sequences,
each once (R120). -/
structure Design where
  pk : CoefSet
  iL : SlopeIndex
  lc : List CoefSet
  iH : SlopeIndex
  hc : List CoefSet
deriving DecidableEq, Repr

/-- The designs of `UPD_APPLY(S, sr)` (R119): the peak from `S[2]`, `S[4]`, `S[3]`, the low cut a
highpass (R77, from the slope R87 asks for), the high cut a lowpass (R77). -/
def designOf (nf : NumFns) (p : Params) (sr : F) : Design :=
  let iL := slopeOperand (p.value .lowCutSlope)
  let iH := slopeOperand (p.value .highCutSlope)
  { pk := peakDesign nf sr (p.value .peakFreq) (p.value .peakQuality) (p.value .peakGainDb)
    iL := iL
    lc := cutDesign nf (p.value .lowCutFreq) sr (slopeOrder iL) .hp
    iH := iH
    hc := cutDesign nf (p.value .highCutFreq) sr (slopeOrder iH) .lp }

/-- The register file after `UPD_APPLY` (R119): each design loaded into both chains. -/
def loadDesign (d : Design) (rf : RegFile) : RegFile :=
  let rf := cfgPeak (cfgPeak rf .left d.pk) .right d.pk
  let rf := cfgCut (cfgCut rf .left .low d.iL d.lc) .right .low d.iL d.lc
  cfgCut (cfgCut rf .left .high d.iH d.hc) .right .high d.iH d.hc

/-- The staging registers `UPD_APPLY` writes (R33). -/
def stageDesign (d : Design) (g : Staging) : Staging :=
  { g with pk := d.pk, nL := slopeCount d.iL, lc := d.lc, nH := slopeCount d.iH, hc := d.hc }

/-- `UPD_APPLY(S, sr)` (R119), one step; no delay line is written (R121). That the staging stays live
after a `C:` line's `UPD_APPLY` is a DESIGN CHOICE: R33 and R37 speak of commands only (log 4). -/
def applyUpdate (sr : F) (s : State) : State :=
  let d := designOf numFns s.stg.snap sr
  (s.setRf (loadDesign d s.rf)).setStg (stageDesign d s.stg)

/-- The step `PCHECK`: the fault it raises, or `pass`. -/
def pcheckStep (sr : F) (s pass : State) : State :=
  match checkParams s.stg.snap sr with
  | some f => raise f s
  | none => pass

/-- The parameter a `SNAPSHOT` reads next: the first when it starts (log 5). -/
def snapshotStart (s : State) : ParamId :=
  match s.micro with
  | some (.snapshot j) => j
  | _ => .lowCutFreq

/-- The step an `UPDATE` takes next: `SNAP(0)` when it starts (log 5). -/
def updateStart (s : State) : UpdPhase :=
  match s.micro with
  | some (.update ph) => ph
  | _ => .snap .lowCutFreq

/-- The phase after `SNAP(j)` of an update: the next read, or `PCHECK` (R25). -/
def updAfterSnap (j : ParamId) : UpdPhase :=
  match nextParam j with
  | some j' => .snap j'
  | none => .pcheck

/-- One step of `UPDATE(sr)` (R115). That the staging stays live after a `C:` line's `UPDATE`, until a
command ends, a fault or a reset, is a DESIGN CHOICE: R33 and R37 speak of commands only (log 4). -/
def updateAt (ph : UpdPhase) (s : State) : State :=
  match ph with
  | .snap j => (snapStep j s).setMicro (some (.update (updAfterSnap j)))
  | .pcheck => pcheckStep s.uop.sr s (s.setMicro (some (.update .commit)))
  | .commit => (applyUpdate s.uop.sr s).setMicro none

/-- `SNAPSHOT` (R116): seven steps of the core, one `PRead(j)` each. -/
def execSnapshot (s : State) : Result :=
  coreDoes s
    ((snapStep (snapshotStart s) s).setMicro ((nextParam (snapshotStart s)).map .snapshot))

/-- `PCHECK` (R118): operands `S[0..6]` and `sr`; passes, or raises one fault. -/
def execPcheck (s : State) : Result := coreDoes s (pcheckStep s.uop.sr s s)

/-- `UPDATE` (R115): operand `sr`; `SNAPSHOT`, `PCHECK`, `UPD_APPLY` in nine steps. -/
def execUpdate (s : State) : Result := coreDoes s (updateAt (updateStart s) s)

/-- `UPD_APPLY` (R119): operands `S[0..6]` and `sr`. -/
def execUpdApply (s : State) : Result := coreDoes s (applyUpdate s.uop.sr s)

end Sys2Proof.Machine
end

