-- ==== Sys2Proof/Machine/Driver.lean ====
section
/-! DEFINITION. The dual-channel driver (file 45): the host commands `PREPARE` and `PROCESS`, the
host-port transactions `WRREG` and `RDREG`, the parameter-port transaction `PWRITE`. -/

namespace Sys2Proof.Machine

/-- A command word handed to the core while `seq = IDLE`: `seq <- RUN(cmd, CHECK)` (R31). -/
def acceptCommand (cmd : Cmd) (s : State) : State := s.setSeq (.run cmd .check)

/-- A word written to `CMD` while `seq = IDLE`: a command starts, or `Fault(ILLCMD)` (R71, R133,
R136). -/
def writeCommand (w : BitVec 32) (s : State) : State :=
  match decodeCommand w with
  | some cmd => acceptCommand cmd s
  | none => raise .illcmd s

/-- "`ARG_SR` is ... finite and sr >. 0.0" (R126, R140). -/
def legalRate (sr : F) : Bool := isFinite sr && fLt 0 sr

/-- `BQ_RESET(c, k)` for all 18 slots, active or not (R126). -/
def resetDelays (rf : RegFile) : RegFile :=
  let l := allSlots.foldl (fun rf k => bqReset rf .left k) rf
  allSlots.foldl (fun rf k => bqReset rf .right k) l

/-- The phase after `SNAP(j)` (R25). -/
def phaseAfterSnap (j : ParamId) : Phase :=
  match nextParam j with
  | some j' => .snap j'
  | none => .pcheck

/-- `PREPARE`'s `CHECK` (R126): `sr = ARG_SR`, read once, here. The test of `nch` was the decoder's
(R61, R71; log 1). -/
def prepareCheck (maxblk : BitVec 16) (s : State) : State :=
  if legalRate s.argSr then
    (s.setStg { s.stg with rate := s.argSr }).setSeq
      (.run (.prepare maxblk) (.snap .lowCutFreq))
  else raise .sr s

/-- `PREPARE`'s `COMMIT` (R126). -/
def prepareCommit (maxblk : BitVec 16) (s : State) : State :=
  let s1 := (s.setSr s.stg.rate).setMaxblk maxblk
  let s2 := s1.setRf (resetDelays s1.rf)
  finish ((applyUpdate s2.stg.rate s2).setPrep true)

/-- `PREPARE` at a position of its schedule (R25, R126). -/
def prepareAt (maxblk : BitVec 16) (ph : Phase) (s : State) : Result :=
  match ph with
  | .check => .next (prepareCheck maxblk s)
  | .snap j => .next ((snapStep j s).setSeq (.run (.prepare maxblk) (phaseAfterSnap j)))
  | .pcheck =>
    .next (pcheckStep s.stg.rate s (s.setSeq (.run (.prepare maxblk) .commit)))
  | .commit => .next (prepareCommit maxblk s)
  | .proc _ _ => .fault .outsideSchedule

/-- `PROCESS`'s `CHECK` (R127): three tests in this order (R143). -/
def processCheck (nch : BitVec 8) (len : BitVec 16) (s : State) : State :=
  if s.prep = false then raise .notprep s
  else if nch < 2 then raise .nch s
  else if s.maxblk < len then raise .len s
  else s.setSeq (.run (.process nch len) (.snap .lowCutFreq))

/-- `PROCESS`'s `COMMIT` (R127): the update, then the first sample, or the end of an empty block
(R129). -/
def processCommit (nch : BitVec 8) (len : BitVec 16) (s : State) : State :=
  let s1 := applyUpdate s.sr s
  if len = 0 then finish s1 else s1.setSeq (.run (.process nch len) (.proc .left 0))

/-- What follows `PROC(c, n)` (R25): the next sample of the channel, channel 1 after channel 0, then
the end of the command. -/
def afterSample (nch : BitVec 8) (len : BitVec 16) (c : Chain) (n : BitVec 16) (s : State) : State :=
  if n.toNat + 1 < len.toNat then s.setSeq (.run (.process nch len) (.proc c (n + 1)))
  else
    match c with
    | .left => s.setSeq (.run (.process nch len) (.proc .right 0))
    | .right => finish s

/-- `PROCESS` at `PROC(c, n)` (R110, R127). The accesses have a meaning "when `ch < nch` and
`i < len`" (R42). -/
def processSample (nch : BitVec 8) (len : BitVec 16) (c : Chain) (n : BitVec 16) (s : State) :
    Result :=
  if channelOf c < nch ∧ n < len then .next (afterSample nch len c n (procSample c n s))
  else .fault .outsideBuffer

/-- `PROCESS` at a position of its schedule (R25, R127). -/
def processAt (nch : BitVec 8) (len : BitVec 16) (ph : Phase) (s : State) : Result :=
  match ph with
  | .check => .next (processCheck nch len s)
  | .snap j => .next ((snapStep j s).setSeq (.run (.process nch len) (phaseAfterSnap j)))
  | .pcheck => .next (pcheckStep s.sr s (s.setSeq (.run (.process nch len) .commit)))
  | .commit => .next (processCommit nch len s)
  | .proc c n => processSample nch len c n s

/-- `PREPARE` (R126), one step of it: the word is handed to the core when it is idle (R31); in flight
it takes the step of its position (R25); a halted core ignores it (R145). -/
def execPrepare (maxblk : BitVec 16) (s : State) : Result :=
  match s.seq with
  | .idle => .next (acceptCommand (.prepare maxblk) s)
  | .halt => .next s
  | .run cmd ph => if cmd = .prepare maxblk then prepareAt maxblk ph s else .refused .hostBlocked

/-- `PROCESS` (R127), one step of it, as for `PREPARE`. -/
def execProcess (nch : BitVec 8) (len : BitVec 16) (s : State) : Result :=
  match s.seq with
  | .idle => .next (acceptCommand (.process nch len) s)
  | .halt => .next s
  | .run cmd ph =>
    if cmd = .process nch len then processAt nch len ph s else .refused .hostBlocked

/-- The effect of a host write while no command is in flight (R133): `CMD` starts a command when idle
and is ignored when halted; `ARG_SR` stores any pattern; the other addresses ignore the write. -/
def writeReg (addr : BitVec 3) (data : BitVec 32) (s : State) : State :=
  match addr.toNat with
  | 0 => if s.seq = .idle then writeCommand data s else s
  | 2 => s.setArgSr data
  | _ => s

/-- The value a host read returns (R134). -/
def readReg (addr : BitVec 3) (s : State) : BitVec 32 :=
  match addr.toNat with
  | 1 => statusWord s
  | 2 => s.argSr
  | 3 => s.sr
  | 4 => s.maxblk.setWidth 32
  | _ => 0

/-- `WRREG(addr, data)` (R133): "It cannot occur while a command is in flight". -/
def execWrreg (addr : BitVec 3) (data : BitVec 32) (s : State) : Result :=
  match s.seq with
  | .run _ _ => .refused .hostBlocked
  | _ => .next (writeReg addr data s)

/-- `RDREG(addr) -> data` (R134): "legal in `IDLE` and in `HALT`"; the value goes to the host and no
register changes. -/
def execRdreg (addr : BitVec 3) (s : State) : Result :=
  match s.seq with
  | .run _ _ => .refused .hostBlocked
  | _ => .next (s.setHostData (readReg addr s))

/-- `PWRITE(j, v)` (R132): one atomic store, in any state of the core; index 7 does nothing. -/
def execPwrite (idx : BitVec 3) (val : F) (s : State) : Result :=
  match paramOfIndex idx with
  | some j => .next (s.setPar (s.par.put j (some val)))
  | none => .next s

end Sys2Proof.Machine
end

