-- ==== Sys2Proof/Machine/Dispatch.lean ====
section
/-! DEFINITION. The dispatch: one arm per row of the opcode table. -/

namespace Sys2Proof.Machine

def exec (i : Instr) (s : State) : Host.Outcome State Fault Refusal :=
  match i with
  | .prepare maxblk => Sys2Proof.Machine.execPrepare maxblk s
  | .process nch len => Sys2Proof.Machine.execProcess nch len s
  | .slope2count => Sys2Proof.Machine.execSlope2count s
  | .slope2order => Sys2Proof.Machine.execSlope2order s
  | .calcPeak => Sys2Proof.Machine.execCalcPeak s
  | .calcCut => Sys2Proof.Machine.execCalcCut s
  | .bqLoad => Sys2Proof.Machine.execBqLoad s
  | .bqReset => Sys2Proof.Machine.execBqReset s
  | .bqStep => Sys2Proof.Machine.execBqStep s
  | .cfgCut => Sys2Proof.Machine.execCfgCut s
  | .cascStep => Sys2Proof.Machine.execCascStep s
  | .cfgPeak => Sys2Proof.Machine.execCfgPeak s
  | .chainStep => Sys2Proof.Machine.execChainStep s
  | .chainProc => Sys2Proof.Machine.execChainProc s
  | .snapshot => Sys2Proof.Machine.execSnapshot s
  | .pcheck => Sys2Proof.Machine.execPcheck s
  | .update => Sys2Proof.Machine.execUpdate s
  | .updApply => Sys2Proof.Machine.execUpdApply s
  | .wrreg addr data => Sys2Proof.Machine.execWrreg addr data s
  | .rdreg addr => Sys2Proof.Machine.execRdreg addr s
  | .pwrite idx val => Sys2Proof.Machine.execPwrite idx val s

end Sys2Proof.Machine
end

