-- ==== Sys2Proof/Machine/Schedule.lean ====
section
/-! DEFINITION. Which agent moves next, and its move (R17, R54, R125): the listing's head, or the core
when it is at work and the head must wait. -/

namespace Sys2Proof.Machine

/-- The micro-operation whose next step a position is (log 5). -/
def microInstr : MicroPos → Instr
  | .snapshot _ => .snapshot
  | .update _ => .update
  | .chainProc _ => .chainProc

/-- The core's next step: the next position of the command in flight (R25), or of a several-step
micro-operation; an idle or halted core takes no step (R145, R154). -/
def coreTurn (s : State) : Result :=
  match s.seq with
  | .run cmd _ => exec (cmdInstr cmd) s
  | .halt => .next s
  | .idle =>
    match s.micro with
    | some pos => exec (microInstr pos) s
    | none => .next s

/-- A word on its port: the instruction it decodes to. An illegal `CMD` word raises `ILLCMD` when the
core is idle and is ignored otherwise (R71, R136, R145); index 7 is ignored (R65). -/
def portWord (p : Packet) (s : State) : Result :=
  match decode p with
  | .ok i => exec i s
  | .error .illegalCommand => .next (if s.seq = .idle then raise .illcmd s else s)
  | .error .ignoredIndex => .next s
  | .error .noSuchTag => .refused .noSuchMicroOperation

/-- One move of an agent. -/
def takeMove (m : Move) (s : State) : Result :=
  match m with
  | .send p => portWord p s
  | .stage u => .next (s.setUop u)
  | .core => coreTurn s
  | .reset => .next (hwReset s)
  | .bufWrite ch i v => .next (memWrite s ch i v)
  | .bufRead ch i => .next (s.setHostData (memRead s ch i))

/-- A word on the parameter port. -/
def onParamPort : Packet → Bool
  | .command _ => false
  | .micro _ => false
  | .bus _ => false
  | .param _ => true

/-- The moves that do not wait for the core: a parameter write "at any time, in any state of the core"
(R53), the core's own step, and reset (R156). The host's do (R125). -/
def neverWaits : Move → Bool
  | .send p => onParamPort p
  | .stage _ => false
  | .core => true
  | .reset => true
  | .bufWrite _ _ _ => false
  | .bufRead _ _ => false

/-- The head of the listing must wait: the core is at work and the move is the host's or a `C:` line
(R125). -/
def mustWait (m : Move) (s : State) : Bool := busy s && !neverWaits m

/-- A word that the parameter agent of R53 may send, if it stands on the parameter port: its pattern
lies in the legal set of its cell, or its index names none (R65). The port itself stores any pattern
(R132); a platform whose store breaks the contract is a listing with another word (R166). -/
def conformingPacket : Packet → Bool
  | .param w =>
    match paramOfIndex (w.extractLsb' 32 3) with
    | some j => legalValue j (w.extractLsb' 0 32)
    | none => true
  | .command _ => true
  | .micro _ => true
  | .bus _ => true

/-- A move of the agents of R17 and R53: every parameter write stores a legal value. -/
def conformingMove : Move → Bool
  | .send p => conformingPacket p
  | .stage _ => true
  | .core => true
  | .reset => true
  | .bufWrite _ _ _ => true
  | .bufRead _ _ => true

/-- The moves to come are those of the parameter agent of R53, which "has no move that stores an illegal
value", and of agents that write no parameter. -/
def conformingAgent (s : State) : Bool := s.listing.all conformingMove

/-- One step of the machine: one step of one agent (R54). -/
def agentStep (s : State) : Result :=
  match s.listing with
  | [] => coreTurn s
  | m :: rest => if mustWait m s then coreTurn s else takeMove m (s.setListing rest)

/-- The state in which a table word is the next move: it heads the listing, and a core at work that
would make it wait is idle. -/
def fetchWord (s : State) (nbits w : Nat) : State :=
  match packetOfTable nbits w with
  | none => s
  | some p =>
    let s' := if mustWait (.send p) s then (s.setSeq .idle).setMicro none else s
    s'.setListing (.send p :: s.listing)

end Sys2Proof.Machine
end

