-- ==== Sys2Proof/Machine/Step.lean ====
section
/-! DEFINITION. The step, and the place of a fetched word. -/

namespace Sys2Proof.Machine

/-- One step: one step of one agent, in the order the listing gives (R54). -/
def step (s : State) : Host.Outcome State Fault Refusal := agentStep s

/-- The state in which the next step runs the table word `w` of `nbits` bits. -/
def State.withFetchWord (s : State) (nbits w : Nat) : State := fetchWord s nbits w

end Sys2Proof.Machine
end

