-- ==== Sys2Proof/Safety.lean ====
section
/-! DEFINITION. The terms the claims use: what it means that part of the machine is unchanged (the
frames), fault entry as a relation, the invariants of R22, R24 and R27, the positions the schedule has
and their successors, and a block's filtering as a function on lists of samples. -/

namespace Sys2Proof.Machine

/-! ### Frames -/

/-- Every byte of the buffer reads as before. -/
def SameBytes (s t : State) : Prop := ∀ a, loadByte t.buf a = loadByte s.buf a

/-- Every byte of the buffer outside the four of the cell at address `a` reads as before. -/
def SameBytesOutside (a : Nat) (s t : State) : Prop :=
  ∀ b, (b < a ∨ a + 4 ≤ b) → loadByte t.buf b = loadByte s.buf b

/-- The host's registers and the stored fields of `STATUS` are as before (R26, R27). -/
structure SameHostRegs (s t : State) : Prop where
  prep : t.prep = s.prep
  fault : t.fault = s.fault
  argSr : t.argSr = s.argSr
  sr : t.sr = s.sr
  maxblk : t.maxblk = s.maxblk

/-- What the other agents hold is as before: the parameter store, the value last returned to the host,
the moves still to come. The buffer is said apart. -/
structure SameAgents (s t : State) : Prop where
  par : t.par = s.par
  hostData : t.hostData = s.hostData
  listing : t.listing = s.listing

/-- Only the latches may differ: the frame of a micro-operation with a latch for its result. -/
structure OnlyLatches (s t : State) : Prop where
  rf : t.rf = s.rf
  seq : t.seq = s.seq
  host : SameHostRegs s t
  agents : SameAgents s t
  stg : t.stg = s.stg
  micro : t.micro = s.micro
  bytes : SameBytes s t

/-- Only the register file and the latches may differ: the frame of a micro-operation on `RF`. -/
structure OnlyRegFile (s t : State) : Prop where
  seq : t.seq = s.seq
  host : SameHostRegs s t
  agents : SameAgents s t
  stg : t.stg = s.stg
  micro : t.micro = s.micro
  bytes : SameBytes s t

/-- FAULT ENTRY as a relation (R144): the sticky bit and `HALT`; the register file with the flags,
`SR`, `MAXBLK`, `ARG_SR`, `PREP`, the store and the buffer are as before, and so are the latches and
what the agents hold. -/
structure FaultEntry (f : FaultCode) (s t : State) : Prop where
  bit : ∀ i, t.fault.getLsbD i = (s.fault.getLsbD i || decide (i + 1 = faultCode f))
  seq : t.seq = .halt
  rf : t.rf = s.rf
  prep : t.prep = s.prep
  argSr : t.argSr = s.argSr
  sr : t.sr = s.sr
  maxblk : t.maxblk = s.maxblk
  agents : SameAgents s t
  uop : t.uop = s.uop
  bytes : SameBytes s t

/-- The position after `ph` of command `cmd` when no fault is raised (R25). -/
def nextPosition (cmd : Cmd) (ph : Phase) : Seq :=
  match ph with
  | .check => .run cmd (.snap .lowCutFreq)
  | .snap .lowCutFreq => .run cmd (.snap .highCutFreq)
  | .snap .highCutFreq => .run cmd (.snap .peakFreq)
  | .snap .peakFreq => .run cmd (.snap .peakGainDb)
  | .snap .peakGainDb => .run cmd (.snap .peakQuality)
  | .snap .peakQuality => .run cmd (.snap .lowCutSlope)
  | .snap .lowCutSlope => .run cmd (.snap .highCutSlope)
  | .snap .highCutSlope => .run cmd .pcheck
  | .pcheck => .run cmd .commit
  | .commit =>
    match cmd with
    | .prepare _ => .idle
    | .process _ len => if len = 0 then .idle else .run cmd (.proc .left 0)
  | .proc c n =>
    match cmd, c with
    | .process _ len, .left =>
      if n.toNat + 1 < len.toNat then .run cmd (.proc .left (n + 1)) else .run cmd (.proc .right 0)
    | .process _ len, .right =>
      if n.toNat + 1 < len.toNat then .run cmd (.proc .right (n + 1)) else .idle
    | .prepare _, _ => .idle

/-- The number an order stands for (R75). -/
def orderNumber : Order → Nat
  | .o2 => 2
  | .o4 => 4
  | .o6 => 6
  | .o8 => 8

/-- The ranges of R32 as IEEE comparisons, and the four slope values. -/
def LegalParam (j : ParamId) (v : F) : Prop :=
  match j with
  | .lowCutFreq => fLe 0x41A00000#32 v = true ∧ fLe v 0x469C4000#32 = true
  | .highCutFreq => fLe 0x41A00000#32 v = true ∧ fLe v 0x469C4000#32 = true
  | .peakFreq => fLe 0x41A00000#32 v = true ∧ fLe v 0x469C4000#32 = true
  | .peakGainDb => fLe 0xC1C00000#32 v = true ∧ fLe v 0x41C00000#32 = true
  | .peakQuality => fLe 0x3DCCCCCD#32 v = true ∧ fLe v 0x41200000#32 = true
  | .lowCutSlope =>
    v = 0x00000000#32 ∨ v = 0x80000000#32 ∨ v = 0x3F800000#32 ∨ v = 0x40000000#32 ∨ v = 0x40400000#32
  | .highCutSlope =>
    v = 0x00000000#32 ∨ v = 0x80000000#32 ∨ v = 0x3F800000#32 ∨ v = 0x40000000#32 ∨ v = 0x40400000#32

/-- All seven cells hold legal values (R118's `PARAM` tests). -/
def AllLegal (p : Params) : Prop := ∀ j, ∃ v, p.get j = some v ∧ LegalParam j v

/-- The three frequencies are below half the rate (R118's `NYQ` tests). -/
def BelowHalf (p : Params) (sr : F) : Prop :=
  ∀ j v, j = .lowCutFreq ∨ j = .highCutFreq ∨ j = .peakFreq → p.get j = some v →
    fLt v (fMul 0x3F000000#32 sr) = true

/-! ### Register file -/

/-- A delay-line register, `w1` or `w2` (R19). -/
def isDelay : Reg → Bool
  | .w1 => true
  | .w2 => true
  | _ => false

/-- The register of a coefficient set by index; a delay line is none of its five (R68). -/
def coefOf (set : CoefSet) : Reg → Option F
  | .b0 => some set.b0
  | .b1 => some set.b1
  | .b2 => some set.b2
  | .a1 => some set.a1
  | .a2 => some set.a2
  | .w1 => none
  | .w2 => none

/-- Every coefficient register and every flag of `rf'` is as in `rf`. -/
def SameConfiguration (rf rf' : RegFile) : Prop :=
  (∀ c k j, isDelay j = false → rf'.read c k j = rf.read c k j) ∧
    ∀ c k, rf'.flag c k = rf.flag c k

/-- Every delay line of `rf'` is as in `rf`. -/
def SameDelayLines (rf rf' : RegFile) : Prop :=
  ∀ c k j, isDelay j = true → rf'.read c k j = rf.read c k j

/-- The slot `(c, k)` and its flag in `rf'` are as in `rf`. -/
def SameSlot (c : Chain) (k : SlotId) (rf rf' : RegFile) : Prop :=
  (∀ j, rf'.read c k j = rf.read c k j) ∧ rf'.flag c k = rf.flag c k

/-- The parameter that gives a side's slope (R119). -/
def slopeParam : Side → ParamId
  | .low => .lowCutSlope
  | .high => .highCutSlope

/-- The parameter that gives a side's cutoff (R119). -/
def freqParam : Side → ParamId
  | .low => .lowCutFreq
  | .high => .highCutFreq

/-- The kind of a side: the low cut is a highpass, the high cut a lowpass (R77). -/
def kindOf : Side → Kind
  | .low => .hp
  | .high => .lp

/-- The register file `rf'` is what `UPD_APPLY(S, sr)` makes of `rf` (R119), for a snapshot `p` whose
slopes have an index: in both chains the peak slot holds the peak set, the first `N` slots of a side
hold its sections and are active, and the slots past `N` are bypassed and keep their coefficients. No
delay line differs (R121). -/
structure ConfiguredBy (p : Params) (sr : F) (rf rf' : RegFile) : Prop where
  peak : ∀ c j, isDelay j = false →
    rf'.read c .pk j =
      coefOf (peakDesign numFns sr (p.value .peakFreq) (p.value .peakQuality) (p.value .peakGainDb)) j
  sections : ∀ c side idx, slopeIndex (p.value (slopeParam side)) = some idx →
    ∀ i : Fin 4, i.val ≤ idx.toNat →
      rf'.flag c (slotOf side i) = some true ∧
        ∃ set,
          (cutDesign numFns (p.value (freqParam side)) sr (slopeOrder idx) (kindOf side))[i.val]?
              = some set ∧
            ∀ j, isDelay j = false → rf'.read c (slotOf side i) j = coefOf set j
  bypassed : ∀ c side idx, slopeIndex (p.value (slopeParam side)) = some idx →
    ∀ i : Fin 4, idx.toNat < i.val →
      rf'.flag c (slotOf side i) = some false ∧
        ∀ j, isDelay j = false → rf'.read c (slotOf side i) j = rf.read c (slotOf side i) j
  delays : SameDelayLines rf rf'

/-- The stereo link (R22): both chains hold the same coefficients, or both `novalue`, and the same
flags. -/
def StereoLinked (rf : RegFile) : Prop :=
  (∀ k j, isDelay j = false → rf.read .left k j = rf.read .right k j) ∧
    ∀ k, rf.flag .left k = rf.flag .right k

/-- The active prefix of one cascade (R24): the first `n` slots are active and hold values, the rest
are bypassed. -/
def ActivePrefixOf (rf : RegFile) (c : Chain) (side : Side) (n : Nat) : Prop :=
  ∀ i : Fin 4, rf.flag c (slotOf side i) = some (decide (i.val < n)) ∧
    (i.val < n → ∀ j, isDelay j = false → rf.read c (slotOf side i) j ≠ none)

/-- The active-prefix invariant (R24): `N` is in 1..4 for every cascade. -/
def ActivePrefixes (rf : RegFile) : Prop :=
  ∀ c side, ∃ n, 1 ≤ n ∧ n ≤ 4 ∧ ActivePrefixOf rf c side n

/-- Every delay line holds a value (R36: "a successful `PREPARE` writes every state register"). -/
def DelayLinesWritten (rf : RegFile) : Prop :=
  ∀ c k j, isDelay j = true → rf.read c k j ≠ none

/-- The peak slots hold a coefficient set (R37). -/
def PeakLoaded (rf : RegFile) : Prop :=
  ∀ c j, isDelay j = false → rf.read c .pk j ≠ none

/-- What a prepared core's register file is (R22, R24, R36, R37). -/
def Prepared (rf : RegFile) : Prop :=
  StereoLinked rf ∧ ActivePrefixes rf ∧ DelayLinesWritten rf ∧ PeakLoaded rf

/-- No `C:` line is in flight or to come: the agents make only the moves of R150 and R156. -/
def NoMicroLines (s : State) : Prop :=
  s.micro = none ∧ ∀ w, Move.send (.micro w) ∉ s.listing

/-- Every cell that holds a value holds a legal one (R32, R53). -/
def LegalOrNovalue (p : Params) : Prop := ∀ j v, p.get j = some v → LegalParam j v

/-- The contract on the parameter store (R53): its agent has no move that stores an illegal value, and
neither the store nor the snapshot holds one. -/
structure StoreContract (s : State) : Prop where
  agent : conformingAgent s = true
  store : LegalOrNovalue s.par
  snapshot : LegalOrNovalue s.stg.snap

/-- The index of a parameter (R32). -/
def paramNumber : ParamId → Nat
  | .lowCutFreq => 0
  | .highCutFreq => 1
  | .peakFreq => 2
  | .peakGainDb => 3
  | .peakQuality => 4
  | .lowCutSlope => 5
  | .highCutSlope => 6

/-- The command has read parameter `j` when it stands at `ph`, and may still use it (R25, R116). -/
def hasRead (ph : Phase) (j : ParamId) : Prop :=
  match ph with
  | .check => False
  | .snap i => paramNumber j < paramNumber i
  | .pcheck => True
  | .commit => True
  | .proc _ _ => False

/-- All seven parameters have been written (R118 corner (a)), and what the command in flight has read of
them is in its snapshot. -/
structure StoreFilled (s : State) : Prop where
  store : ∀ j, s.par.get j ≠ none
  snapshot : ∀ cmd ph j, s.seq = .run cmd ph → hasRead ph j → s.stg.snap.get j ≠ none

/-- R27: `HALTED` "when `FAULT != 0`, that is when `seq = HALT`", and "at most one fault bit is ever
1". -/
def FaultCoherent (s : State) : Prop :=
  (s.seq = .halt ↔ s.fault ≠ 0) ∧ (s.fault = 0 ∨ ∃ f, s.fault = faultBit f)

/-- The positions the schedule has (R25): a `PREPARE` has no `PROC`; past `CHECK` a `PROCESS` has at
least two channels, and its `PROC(c, n)` a sample of the block. -/
def PositionExists : Seq → Prop
  | .run (.prepare _) (.proc _ _) => False
  | .run (.process _ _) .check => True
  | .run (.process nch len) (.proc _ n) => 2 ≤ nch ∧ n < len
  | .run (.process nch _) _ => 2 ≤ nch
  | _ => True

/-- The sample a listing's `CHAIN_PROC` is at is one of its block (R110). -/
def MicroPositionExists (s : State) : Prop :=
  s.seq ≠ .halt → ∀ n, s.micro = some (.chainProc n) → n < s.uop.len

/-- The two position conditions together. -/
def OnSchedule (s : State) : Prop := PositionExists s.seq ∧ MicroPositionExists s

/-- A list of samples of channel `c` filtered by chain `c`, sample by sample (R110): the outputs and
the register file afterwards. -/
def filterBlock (c : Chain) : RegFile → List F → List F × RegFile
  | rf, [] => ([], rf)
  | rf, x :: xs =>
    let r := chainStep rf c x
    let q := filterBlock c r.2 xs
    (r.1 :: q.1, q.2)

/-- The samples `0..len-1` of channel `ch` in the buffer (R41). -/
def blockOf (s : State) (ch : BitVec 8) (len : BitVec 16) : List F :=
  (List.range len.toNat).map fun i => memRead s ch (BitVec.ofNat 16 i)

/-- An idle core whose one move to come is the word of a `PROCESS` of `len` samples (R62) that passes
every test of R127 and R118. -/
structure ReadyToProcess (nch : BitVec 8) (len : BitVec 16) (s : State) : Prop where
  seq : s.seq = .idle
  micro : s.micro = none
  listing : s.listing = [.send (.command (0x02#8 ++ nch ++ len))]
  prep : s.prep = true
  channels : 2 ≤ nch.toNat
  fits : len.toNat ≤ s.maxblk.toNat
  legal : AllLegal s.par
  below : BelowHalf s.par s.sr
  form : s.buf.wf = true

end Sys2Proof.Machine
end

