-- ==== Sys2Proof/Certificates/Slice0/Obligations.lean ====
section
/-! DEFINITION. The statements about the machine, in the order of `OBLIGATIONS.json`. -/

section
open Sys2Proof Sys2Proof.Machine

/-! ### Encodings (file 30) -/

/-- R60 to R65: every well-formed instruction is what its encoding decodes to, with every operand at
every value. -/
def Obligations.DecodeEncode : Prop :=
  ∀ i : Instr, i.WellFormed → decode (encode i) = .ok i

/-- A word that decodes does so to a well-formed instruction, and is that instruction's encoding; on a
host read the 32 data bits, which R64 ignores, are cleared (the encoder's choice). -/
def Obligations.EncodeDecode : Prop :=
  ∀ (p : Packet) (i : Instr), decode p = .ok i →
    i.WellFormed ∧ ((∀ a, i ≠ .rdreg a) → encode i = p) ∧
      ∀ a, i = .rdreg a → ∃ w : BitVec 36, p = .bus w ∧ encode i = .bus (w &&& 0xF00000000#36)

/-- The partition of the command words (R71) by the match and mask of R61 and R62. -/
def Obligations.CommandWordPartition : Prop :=
  ∀ w : BitVec 32,
    (w &&& 0xFFFF0000#32 = 0x01000000#32 →
        decode (.command w) = .ok (.prepare (w.setWidth 16))) ∧
      (w &&& 0xFF000000#32 = 0x02000000#32 →
        decode (.command w) = .ok (.process ((w >>> 16).setWidth 8) (w.setWidth 16))) ∧
      (w &&& 0xFFFF0000#32 ≠ 0x01000000#32 → w &&& 0xFF000000#32 ≠ 0x02000000#32 →
        decode (.command w) = .error .illegalCommand)

/-- Words written out from the formats of R60 to R65 decode to what they stand for. -/
def Obligations.SpecWordsDecode : Prop :=
  decode (.command 0x01000200#32) = .ok (.prepare 512) ∧
    decode (.command 0x02020040#32) = .ok (.process 2 64) ∧
    decode (.command 0x01020200#32) = .error .illegalCommand ∧
    decode (.micro 0x13000000#32) = .ok .calcCut ∧
    decode (.micro 0x1A000000#32) = .ok .bqStep ∧
    decode (.micro 0x33000000#32) = .ok .updApply ∧
    decode (.bus 0xA472C4400#36) = .ok (.wrreg 2 0x472C4400) ∧
    decode (.bus 0x100000000#36) = .ok (.rdreg 1) ∧
    decode (.param 0x341400000#35) = .ok (.pwrite 3 0x41400000) ∧
    decode (.param 0x700000000#35) = .error .ignoredIndex

/-! ### The step -/

/-- A step whose move is a word that decodes to `i`, and that need not wait, is `exec i` with the move
taken off the listing; the step at `withFetchWord` runs the decoded table word. The listing and the
port of a table word are the model's (log 2, log 14). -/
def Obligations.StepRunsDecoded : Prop :=
  (∀ (s : State) (p : Packet) (rest : List Move) (i : Instr),
      s.listing = .send p :: rest → mustWait (.send p) s = false → decode p = .ok i →
        i.WellFormed → step s = exec i (s.setListing rest)) ∧
    ∀ (s : State) (nbits w : Nat) (i : Instr),
      busy s = false → decodeTableWord nbits w = some i → step (s.withFetchWord nbits w) = exec i s

/-- While a command is in flight the host's moves wait and the core takes its next step; a parameter
write does not wait (R53, R125). That a `C:` line waits too is the model's (log 5), as the listing is
(log 2). -/
def Obligations.OnlyParameterAgentMoves : Prop :=
  ∀ (s : State) (cmd : Cmd) (ph : Phase), s.seq = .run cmd ph →
    (s.listing = [] → step s = exec (cmdInstr cmd) s) ∧
      (∀ m rest, s.listing = m :: rest →
        ((∃ w, m = .send (.command w)) ∨ (∃ w, m = .send (.bus w)) ∨ (∃ w, m = .send (.micro w)) ∨
            (∃ u, m = .stage u) ∨ (∃ ch i v, m = .bufWrite ch i v) ∨ ∃ ch i, m = .bufRead ch i) →
          step s = exec (cmdInstr cmd) s) ∧
      ∀ (idx : BitVec 3) (v : F) rest, s.listing = .send (.param (idx ++ v)) :: rest → idx ≠ 7 →
        step s = exec (.pwrite idx v) (s.setListing rest)

/-! ### The coefficient calculator (file 40) -/

/-- R74: the count is the index plus one, without a wrap; only that latch changes. -/
def Obligations.SlopeToCount : Prop :=
  ∀ s : State, s.seq ≠ .halt → ∃ t, exec .slope2count s = .next t ∧
    t.uop.count.toNat = s.uop.idx.toNat + 1 ∧
    t.uop = { s.uop with count := t.uop.count } ∧ OnlyLatches s t

/-- R75: the order is looked up; it is twice the count, and `CALC_CUT` at that order returns one set
for each slot `CFG_CUT` will activate. Only that latch changes. -/
def Obligations.SlopeToOrder : Prop :=
  ∀ s : State, s.seq ≠ .halt → ∃ t, exec .slope2order s = .next t ∧
    [2, 4, 6, 8][s.uop.idx.toNat]? = some (orderNumber t.uop.order) ∧
    orderNumber t.uop.order = 2 * (s.uop.idx.toNat + 1) ∧
    (∀ nf fc sr kind, (cutDesign nf fc sr t.uop.order kind).length = s.uop.idx.toNat + 1) ∧
    t.uop = { s.uop with order := t.uop.order } ∧ OnlyLatches s t

/-- R81: the peak set by the pseudocode, operation by operation; only that latch changes. -/
def Obligations.PeakDesignResult : Prop :=
  ∀ s : State, s.seq ≠ .halt →
    let g := numFns.pow10 (fDiv s.uop.gdb 0x41A00000#32)
    let a := fSqrt g
    let w0 := fDiv (fMul 0x40C90FDB#32 s.uop.freq) s.uop.sr
    let alpha := fDiv (numFns.sin w0) (fMul 0x40000000#32 s.uop.q)
    let n1 := fMul 0xC0000000#32 (numFns.cos w0)
    let a0 := fAdd 0x3F800000#32 (fDiv alpha a)
    ∃ t, exec .calcPeak s = .next t ∧
      t.uop.set.b0 = fDiv (fAdd 0x3F800000#32 (fMul alpha a)) a0 ∧
      t.uop.set.b1 = fDiv n1 a0 ∧
      t.uop.set.b2 = fDiv (fSub 0x3F800000#32 (fMul alpha a)) a0 ∧
      t.uop.set.a1 = fDiv n1 a0 ∧
      t.uop.set.a2 = fDiv (fSub 0x3F800000#32 (fDiv alpha a)) a0 ∧
      t.uop = { s.uop with set := t.uop.set } ∧ OnlyLatches s t

/-- R81 corners (a) and (b): `b1` and `a1` are always the same bits; at a gain of zero, of either sign,
`b2` and `a2` are the same bits and `b0` is exactly 1, where `alpha` is no NaN and the leading
coefficient is finite and not zero, as on the checked domain. -/
def Obligations.FlatPeak : Prop :=
  ∀ s t : State, s.seq ≠ .halt → exec .calcPeak s = .next t →
    t.uop.set.b1 = t.uop.set.a1 ∧
      (isZero s.uop.gdb = true →
        let w0 := fDiv (fMul 0x40C90FDB#32 s.uop.freq) s.uop.sr
        let alpha := fDiv (numFns.sin w0) (fMul 0x40000000#32 s.uop.q)
        let a0 := fAdd 0x3F800000#32 (fDiv alpha 0x3F800000#32)
        isNaN alpha = false →
          t.uop.set.b2 = t.uop.set.a2 ∧
            (isFinite a0 = true → isZero a0 = false → t.uop.set.b0 = 0x3F800000#32))

/-- R84 with the constants of R80: `order / 2` sets, each by the pseudocode; only that latch
changes. -/
def Obligations.CutDesignResult : Prop :=
  ∀ s : State, s.seq ≠ .halt →
    let k := numFns.tan (fDiv (fMul 0x40490FDB#32 s.uop.freq) s.uop.sr)
    let k2 := fMul k k
    let iq : List F :=
      match s.uop.order with
      | .o2 => [0x3FB504F3#32]
      | .o4 => [0x3FEC835E#32, 0x3F43EF15#32]
      | .o6 => [0x3FF746EA#32, 0x3FB504F3#32, 0x3F0483EE#32]
      | .o8 => [0x3FFB14BE#32, 0x3FD4DB31#32, 0x3F8E39DA#32, 0x3EC7C5C2#32]
    ∃ t, exec .calcCut s = .next t ∧
      t.uop.seqn.length = orderNumber s.uop.order / 2 ∧
      (∀ (i : Nat) (q : F), iq[i]? = some q → ∃ c : CoefSet, t.uop.seqn[i]? = some c ∧
        let tt := fMul q k
        let nrm := fDiv 0x3F800000#32 (fAdd (fAdd 0x3F800000#32 tt) k2)
        c.a1 = fMul (fMul 0x40000000#32 (fSub k2 0x3F800000#32)) nrm ∧
          c.a2 = fMul (fAdd (fSub 0x3F800000#32 tt) k2) nrm ∧
          (s.uop.kind = .lp →
            c.b0 = fMul k2 nrm ∧ c.b1 = fMul 0x40000000#32 c.b0 ∧ c.b2 = c.b0) ∧
          (s.uop.kind = .hp →
            c.b0 = nrm ∧ c.b1 = fNeg (fMul 0x40000000#32 nrm) ∧ c.b2 = nrm)) ∧
      t.uop = { s.uop with seqn := t.uop.seqn } ∧ OnlyLatches s t

/-- R84 corner (b): a highpass section's feed-forward coefficients add up to exactly `+0.0`, where the
doubled coefficient is finite, as on the checked domain. -/
def Obligations.HighpassBlocksConstant : Prop :=
  ∀ (s t : State) (c : CoefSet), s.seq ≠ .halt → s.uop.kind = .hp → exec .calcCut s = .next t →
    c ∈ t.uop.seqn → isFinite c.b1 = true → fAdd (fAdd c.b0 c.b1) c.b2 = 0x00000000#32

/-- R79 E2 and E4: the power of a zero of either sign is exactly 1; on the domains the sine, the tangent
and the power are above zero and the cosine's magnitude is at most 1. -/
def Obligations.ElementarySigns : Prop :=
  (∀ x, isZero x = true → numFns.pow10 x = 0x3F800000#32) ∧
    (∀ x, fLt 0x00000000#32 x = true → fLt x 0x40490FDB#32 = true →
      fLt 0x00000000#32 (numFns.sin x) = true ∧
        fLe 0xBF800000#32 (numFns.cos x) = true ∧ fLe (numFns.cos x) 0x3F800000#32 = true) ∧
    (∀ x, fLt 0x00000000#32 x = true → fLt x 0x3FC90FDB#32 = true →
      fLt 0x00000000#32 (numFns.tan x) = true) ∧
    ∀ x, fLe 0xBF99999A#32 x = true → fLe x 0x3F99999A#32 = true →
      fLt 0x00000000#32 (numFns.pow10 x) = true

/-! ### The biquad section (file 41) -/

/-- R92: the five coefficient registers of the slot take the set; its delay line, every flag, every
other slot and everything outside the register file stay. -/
def Obligations.SectionLoad : Prop :=
  ∀ s : State, s.seq ≠ .halt → ∃ t, exec .bqLoad s = .next t ∧
    (∀ j, isDelay j = false → t.rf.read s.uop.c s.uop.k j = coefOf s.uop.set j) ∧
    SameDelayLines s.rf t.rf ∧ (∀ c k, t.rf.flag c k = s.rf.flag c k) ∧
    (∀ c k, ¬(c = s.uop.c ∧ k = s.uop.k) → SameSlot c k s.rf t.rf) ∧
    t.uop = s.uop ∧ OnlyRegFile s t

/-- R93: the slot's delay line becomes `+0.0`; coefficients, flags, every other slot and everything
outside the register file stay. -/
def Obligations.SectionReset : Prop :=
  ∀ s : State, s.seq ≠ .halt → ∃ t, exec .bqReset s = .next t ∧
    t.rf.read s.uop.c s.uop.k .w1 = some 0x00000000#32 ∧
    t.rf.read s.uop.c s.uop.k .w2 = some 0x00000000#32 ∧
    SameConfiguration s.rf t.rf ∧
    (∀ c k, ¬(c = s.uop.c ∧ k = s.uop.k) → SameSlot c k s.rf t.rf) ∧
    t.uop = s.uop ∧ OnlyRegFile s t

/-- R94: output and delay line of one step, in the association of the pseudocode, from the registers as
they were before; coefficients, flags and every other slot stay. A `novalue` register reads as any bits
(log 11). -/
def Obligations.SectionStep : Prop :=
  ∀ s : State, s.seq ≠ .halt →
    let v := s.rf.value s.uop.c s.uop.k
    let w0 := fSub (fSub s.uop.x (fMul (v .a1) (v .w1))) (fMul (v .a2) (v .w2))
    ∃ t, exec .bqStep s = .next t ∧
      t.uop = { s.uop with
        y := fAdd (fAdd (fMul (v .b0) w0) (fMul (v .b1) (v .w1))) (fMul (v .b2) (v .w2)) } ∧
      t.rf.read s.uop.c s.uop.k .w1 = some w0 ∧
      t.rf.read s.uop.c s.uop.k .w2 = some (v .w1) ∧
      SameConfiguration s.rf t.rf ∧
      (∀ c k, ¬(c = s.uop.c ∧ k = s.uop.k) → SameSlot c k s.rf t.rf) ∧ OnlyRegFile s t

/-- R94 corner (b): a section at rest with finite coefficients, fed a zero of either sign, gives a zero
and stays at rest. -/
def Obligations.SectionRestStaysRest : Prop :=
  ∀ s t : State, s.seq ≠ .halt → exec .bqStep s = .next t →
    (∀ j, isDelay j = false → isFinite (s.rf.value s.uop.c s.uop.k j) = true) →
    isZero (s.rf.value s.uop.c s.uop.k .w1) = true →
    isZero (s.rf.value s.uop.c s.uop.k .w2) = true → isZero s.uop.x = true →
      isZero t.uop.y = true ∧ isZero (t.rf.value s.uop.c s.uop.k .w1) = true ∧
        isZero (t.rf.value s.uop.c s.uop.k .w2) = true

/-- R94 corner (c), R169: a NaN in the input or in the delay line makes the output a NaN and leaves a
NaN in `w1`, so the next output is a NaN too; holds whatever the free payload of a NaN is (log 10). -/
def Obligations.NaNStaysInSection : Prop :=
  ∀ s t : State, s.seq ≠ .halt → exec .bqStep s = .next t →
    (isNaN s.uop.x = true ∨ isNaN (s.rf.value s.uop.c s.uop.k .w1) = true ∨
        isNaN (s.rf.value s.uop.c s.uop.k .w2) = true) →
      isNaN t.uop.y = true ∧ isNaN (t.rf.value s.uop.c s.uop.k .w1) = true

/-! ### The cut cascade (file 42) -/

/-- R99: slots `0..N-1` of the side hold the sequence's sets and are active, the slots past them are
bypassed and keep their coefficients; no delay line, no other slot and nothing outside the register
file changes. -/
def Obligations.ConfigureCut : Prop :=
  ∀ s : State, s.seq ≠ .halt → ∃ t, exec .cfgCut s = .next t ∧
    (∀ i : Fin 4, i.val ≤ s.uop.idx.toNat →
      t.rf.flag s.uop.c (slotOf s.uop.side i) = some true ∧
        ∀ set, s.uop.seqn[i.val]? = some set → ∀ j, isDelay j = false →
          t.rf.read s.uop.c (slotOf s.uop.side i) j = coefOf set j) ∧
    (∀ i : Fin 4, s.uop.idx.toNat < i.val →
      t.rf.flag s.uop.c (slotOf s.uop.side i) = some false ∧
        ∀ j, t.rf.read s.uop.c (slotOf s.uop.side i) j
          = s.rf.read s.uop.c (slotOf s.uop.side i) j) ∧
    SameDelayLines s.rf t.rf ∧
    (∀ c k, (∀ i : Fin 4, ¬(c = s.uop.c ∧ k = slotOf s.uop.side i)) → SameSlot c k s.rf t.rf) ∧
    t.uop = s.uop ∧ OnlyRegFile s t

/-- R100: after `CFG_CUT` exactly `idx + 1` slots of the cascade are active, and they are the slots
`0..idx`. -/
def Obligations.CutCountExact : Prop :=
  ∀ s t : State, s.seq ≠ .halt → exec .cfgCut s = .next t →
    (cutSlots.filter fun i => t.rf.flag s.uop.c (slotOf s.uop.side i) = some true).length
        = s.uop.idx.toNat + 1 ∧
      ∀ i : Fin 4, t.rf.flag s.uop.c (slotOf s.uop.side i) = some true ↔ i.val ≤ s.uop.idx.toNat

/-- R102, R103: the sample visits the four slots in ascending order; an active slot steps on what it
receives, from its registers before the operation, and a bypassed one passes the bits through and keeps
all seven registers; nothing else changes. A `novalue` cell reads as any bits (log 11). -/
def Obligations.CascadeStep : Prop :=
  ∀ s : State, s.seq ≠ .halt → ∃ t, exec .cascStep s = .next t ∧
    (∃ v : Fin 5 → F, v 0 = s.uop.x ∧ t.uop = { s.uop with y := v 4 } ∧
      ∀ i : Fin 4,
        let k := slotOf s.uop.side i
        if s.rf.active s.uop.c k = true then
          v i.succ = bqOutput s.rf s.uop.c k (v i.castSucc) ∧
            t.rf.read s.uop.c k .w1 = some (bqInner s.rf s.uop.c k (v i.castSucc)) ∧
            t.rf.read s.uop.c k .w2 = some (s.rf.value s.uop.c k .w1)
        else
          v i.succ = v i.castSucc ∧ SameSlot s.uop.c k s.rf t.rf) ∧
    SameConfiguration s.rf t.rf ∧
    (∀ c k, (∀ i : Fin 4, ¬(c = s.uop.c ∧ k = slotOf s.uop.side i)) → SameSlot c k s.rf t.rf) ∧
    OnlyRegFile s t

/-! ### The channel chain (file 43) -/

/-- R108: the peak slot's five coefficients; its delay line, every flag, every other slot and everything
outside the register file stay. -/
def Obligations.ConfigurePeak : Prop :=
  ∀ s : State, s.seq ≠ .halt → ∃ t, exec .cfgPeak s = .next t ∧
    (∀ j, isDelay j = false → t.rf.read s.uop.c .pk j = coefOf s.uop.set j) ∧
    SameDelayLines s.rf t.rf ∧ (∀ c k, t.rf.flag c k = s.rf.flag c k) ∧
    (∀ c k, ¬(c = s.uop.c ∧ k = .pk) → SameSlot c k s.rf t.rf) ∧
    t.uop = s.uop ∧ OnlyRegFile s t

/-- R107, R109: one sample passes the nine slots of its chain in signal order, the peak slot always, a
cut slot when it is active; the other chain, every coefficient and every flag stay. A `novalue` cell
reads as any bits (log 11). -/
def Obligations.ChainStepNineSlots : Prop :=
  ∀ s : State, s.seq ≠ .halt → ∃ t, exec .chainStep s = .next t ∧
    (∃ v : Fin 10 → F, v 0 = s.uop.x ∧ t.uop = { s.uop with y := v 9 } ∧
      ∀ (n : Fin 9) (k : SlotId),
        [SlotId.lc0, .lc1, .lc2, .lc3, .pk, .hc0, .hc1, .hc2, .hc3][n.val]? = some k →
        if k = .pk ∨ s.rf.active s.uop.c k = true then
          v n.succ = bqOutput s.rf s.uop.c k (v n.castSucc) ∧
            t.rf.read s.uop.c k .w1 = some (bqInner s.rf s.uop.c k (v n.castSucc)) ∧
            t.rf.read s.uop.c k .w2 = some (s.rf.value s.uop.c k .w1)
        else
          v n.succ = v n.castSucc ∧ SameSlot s.uop.c k s.rf t.rf) ∧
    SameConfiguration s.rf t.rf ∧
    (∀ c k, c ≠ s.uop.c → SameSlot c k s.rf t.rf) ∧ OnlyRegFile s t

/-- R110: a `CHAIN_PROC` that starts, or stands at sample `n`, replaces that sample by what `CHAIN_STEP`
gives for it and moves on; every byte outside that sample's cell stays. An empty block does nothing. The
position between two samples and the cell's byte address are the model's (log 5, log 7). -/
def Obligations.ChainProcIteration : Prop :=
  (∀ (s : State) (n : BitVec 16), s.seq ≠ .halt → s.buf.wf = true →
    (s.micro = some (.chainProc n) ∨ s.micro = none ∧ n = 0) → n < s.uop.len →
    let ch : BitVec 8 := if s.uop.c = .left then 0 else 1
    ∃ t, exec .chainProc s = .next t ∧
      memRead t ch n = (chainStep s.rf s.uop.c (memRead s ch n)).1 ∧
      t.rf = (chainStep s.rf s.uop.c (memRead s ch n)).2 ∧
      SameBytesOutside (cellAddr ch n) s t ∧
      t.micro = (if n.toNat + 1 < s.uop.len.toNat then some (.chainProc (n + 1)) else none) ∧
      t.seq = s.seq ∧ t.uop = s.uop ∧ t.stg = s.stg ∧ SameHostRegs s t ∧ SameAgents s t) ∧
    ∀ s : State, s.uop.len = 0 → exec .chainProc s = .next s

/-- R95, R111: a signal cut at any place into two `PROCESS` commands, the second on the registers the
first left, whatever else ran between, comes out as from one `PROCESS`: the same samples in both channels
and the same register file, where parameters and rate are the same. Each run is a whole command from its
word to `IDLE`, update included, empty blocks too. That the word is a listing's move and takes a step of
its own is the model's (log 1, log 2). The equality of bits rests on log 10 where a NaN is computed and on
log 11 where a `novalue` register is read. -/
def Obligations.StreamingAcrossBlocks : Prop :=
  ∀ (s a b : State) (ns na nb : BitVec 8) (m n : BitVec 16), m.toNat + n.toNat < 65536 →
    ReadyToProcess ns (m + n) s → ReadyToProcess na m a → ReadyToProcess nb n b →
    a.par = s.par → b.par = s.par → a.sr = s.sr → b.sr = s.sr → a.rf = s.rf →
    (∀ ch : BitVec 8, ch < 2 → blockOf s ch (m + n) = blockOf a ch m ++ blockOf b ch n) →
    ∃ t a' b' : State,
      Host.Core.run Sys2Proof.core (11 + 2 * (m.toNat + n.toNat)) s = .next t ∧
      Host.Core.run Sys2Proof.core (11 + 2 * m.toNat) a = .next a' ∧
      Host.Core.run Sys2Proof.core (11 + 2 * n.toNat) b = .next b' ∧
      t.seq = .idle ∧ a'.seq = .idle ∧ b'.seq = .idle ∧
      (b.rf = a'.rf →
        t.rf = b'.rf ∧
          ∀ ch : BitVec 8, ch < 2 → blockOf t ch (m + n) = blockOf a' ch m ++ blockOf b' ch n)

/-! ### The update orchestrator (file 44) -/

/-- R116: one step of `SNAPSHOT` copies the parameter it stands at, `novalue` included, and changes no
other cell; the operation stands at `P[0]` when it starts and ends after `P[6]`. The position between
two reads is the model's (log 5). -/
def Obligations.SnapshotStep : Prop :=
  ∀ (s : State) (j : ParamId), s.seq ≠ .halt →
    (s.micro = some (.snapshot j) ∨ s.micro = none ∧ j = .lowCutFreq) →
    ∃ t, exec .snapshot s = .next t ∧
      (∀ i, t.stg.snap.get i = if i = j then s.par.get j else s.stg.snap.get i) ∧
      t.stg = { s.stg with snap := t.stg.snap } ∧
      t.micro = (nextParam j).map .snapshot ∧
      t.rf = s.rf ∧ t.seq = s.seq ∧ t.uop = s.uop ∧ SameHostRegs s t ∧ SameAgents s t ∧
      SameBytes s t

/-- R54 (d), R51: a `PWRITE` that falls after `m` of a command's seven `SNAP` steps is seen by that
command if and only if its own index is not yet read; the store takes it either way. The order of the two
agents' steps is a listing's (log 2). -/
def Obligations.SnapshotInterleaving : Prop :=
  ∀ (s : State) (cmd : Cmd) (m : Nat) (idx : BitVec 3) (j : ParamId) (v : F),
    s.seq = .run cmd (.snap .lowCutFreq) → m ≤ 7 → paramOfIndex idx = some j →
    s.listing = List.replicate m .core ++ [.send (.param (idx ++ v))] →
    ∃ t, Host.Core.run Sys2Proof.core 8 s = .next t ∧ t.seq = .run cmd .pcheck ∧
      (∀ i, t.stg.snap.get i = if i = j ∧ m ≤ idx.toNat then some v else s.par.get i) ∧
      t.stg = { s.stg with snap := t.stg.snap } ∧
      (∀ i, t.par.get i = if i = j then some v else s.par.get i) ∧
      t.rf = s.rf ∧ SameHostRegs s t ∧ SameBytes s t

/-- R117: the slope index of every pattern. -/
def Obligations.SlopeDecoding : Prop :=
  ∀ v : F,
    (slopeIndex v = some 0 ↔ v = 0x00000000#32 ∨ v = 0x80000000#32) ∧
      (slopeIndex v = some 1 ↔ v = 0x3F800000#32) ∧
      (slopeIndex v = some 2 ↔ v = 0x40000000#32) ∧
      (slopeIndex v = some 3 ↔ v = 0x40400000#32) ∧
      (slopeIndex v = none ↔
        v ≠ 0x00000000#32 ∧ v ≠ 0x80000000#32 ∧ v ≠ 0x3F800000#32 ∧ v ≠ 0x40000000#32 ∧
          v ≠ 0x40400000#32)

/-- R118, R141, R142: `PCHECK` passes and changes nothing when all seven values are legal and the three
frequencies are below half the rate; a `novalue` or an illegal value raises `PARAM`, and only after
those tests a frequency at or above half the rate raises `NYQ`. -/
def Obligations.ParameterCheck : Prop :=
  ∀ s : State, s.seq ≠ .halt →
    (AllLegal s.stg.snap → BelowHalf s.stg.snap s.uop.sr → exec .pcheck s = .next s) ∧
      (¬AllLegal s.stg.snap → ∃ t, exec .pcheck s = .next t ∧ FaultEntry .param s t) ∧
      (AllLegal s.stg.snap → ¬BelowHalf s.stg.snap s.uop.sr →
        ∃ t, exec .pcheck s = .next t ∧ FaultEntry .nyq s t)

/-- R115: the steps of `UPDATE`: a `SNAP(j)` copies `P[j]`; `PCHECK` passes or faults; the last step
configures both chains from the snapshot and ends the operation. The positions are the model's, and so is
that the snapshot outlives the operation (log 5, log 4). -/
def Obligations.UpdateSteps : Prop :=
  ∀ s : State, s.seq ≠ .halt →
    (∀ j, (s.micro = some (.update (.snap j)) ∨ s.micro = none ∧ j = .lowCutFreq) →
      ∃ t, exec .update s = .next t ∧
        (∀ i, t.stg.snap.get i = if i = j then s.par.get j else s.stg.snap.get i) ∧
        t.stg = { s.stg with snap := t.stg.snap } ∧
        t.micro = some (.update (updAfterSnap j)) ∧
        t.rf = s.rf ∧ t.seq = s.seq ∧ t.uop = s.uop ∧ SameHostRegs s t ∧ SameAgents s t ∧
        SameBytes s t) ∧
      (s.micro = some (.update .pcheck) →
        (AllLegal s.stg.snap → BelowHalf s.stg.snap s.uop.sr →
          exec .update s = .next (s.setMicro (some (.update .commit)))) ∧
        (¬AllLegal s.stg.snap → ∃ t, exec .update s = .next t ∧ FaultEntry .param s t) ∧
        (AllLegal s.stg.snap → ¬BelowHalf s.stg.snap s.uop.sr →
          ∃ t, exec .update s = .next t ∧ FaultEntry .nyq s t)) ∧
      (s.micro = some (.update .commit) → AllLegal s.stg.snap →
        ∃ t, exec .update s = .next t ∧ ConfiguredBy s.stg.snap s.uop.sr s.rf t.rf ∧
          t.micro = none ∧ t.stg.snap = s.stg.snap ∧ t.seq = s.seq ∧ t.uop = s.uop ∧
          SameHostRegs s t ∧ SameAgents s t ∧ SameBytes s t)

/-- R119: `UPD_APPLY` configures the peak slot and both cut sides of both chains from the snapshot; no
delay line, host register, parameter or buffer byte changes. That the snapshot stays live after a `C:`
line's `UPD_APPLY` is the model's (log 4). -/
def Obligations.UpdateApply : Prop :=
  ∀ s : State, s.seq ≠ .halt → AllLegal s.stg.snap →
    ∃ t, exec .updApply s = .next t ∧ ConfiguredBy s.stg.snap s.uop.sr s.rf t.rf ∧
      t.stg.snap = s.stg.snap ∧ t.uop = s.uop ∧ t.seq = s.seq ∧ t.micro = s.micro ∧
      SameHostRegs s t ∧ SameAgents s t ∧ SameBytes s t

/-- R122: a second `UPD_APPLY` with the same snapshot and rate changes nothing at all; and the flags and
the coefficients of the active slots are a function of snapshot and rate, whatever the registers held
before. That the second finds the snapshot still live is the model's (log 4). Holds whatever the free
values of an unchecked snapshot are (log 12). -/
def Obligations.UpdateIdempotent : Prop :=
  (∀ s t : State, s.seq ≠ .halt → exec .updApply s = .next t → exec .updApply t = .next t) ∧
    ∀ s s' t t' : State, s.seq ≠ .halt → s'.seq ≠ .halt →
      s.stg.snap = s'.stg.snap → s.uop.sr = s'.uop.sr →
      exec .updApply s = .next t → exec .updApply s' = .next t' →
      ∀ c k, t.rf.flag c k = t'.rf.flag c k ∧
        (t.rf.flag c k = some true → ∀ j, isDelay j = false → t.rf.read c k j = t'.rf.read c k j)

/-- R121: none of the six operations writes a delay line, and neither does `UPDATE` as a whole. -/
def Obligations.UpdateWritesNoDelayLine : Prop :=
  ∀ (i : Instr) (s t : State),
    i ∈ [Instr.snapshot, .pcheck, .updApply, .cfgPeak, .cfgCut, .bqLoad, .update] →
      exec i s = .next t → SameDelayLines s.rf t.rf

/-! ### The driver (file 45) -/

/-- R31, R126, R140: a `PREPARE` word is accepted when the core is idle; its `CHECK` goes on exactly when
`ARG_SR` is a finite datum above zero, which are the patterns `0x00000001` to `0x7F7FFFFF`, and raises
`SR` for every other pattern. That acceptance is a step of its own is the model's (log 1). -/
def Obligations.PrepareCheck : Prop :=
  ∀ (s : State) (m : BitVec 16),
    (s.seq = .idle → exec (.prepare m) s = .next (s.setSeq (.run (.prepare m) .check))) ∧
      (s.seq = .run (.prepare m) .check →
        (0 < s.argSr.toNat ∧ s.argSr.toNat < 0x7F800000 →
          exec (.prepare m) s =
            .next { s with
              seq := .run (.prepare m) (.snap .lowCutFreq), stg := { s.stg with rate := s.argSr } }) ∧
        (¬(0 < s.argSr.toNat ∧ s.argSr.toNat < 0x7F800000) →
          ∃ t, exec (.prepare m) s = .next t ∧ FaultEntry .sr s t))

/-- R25, R116, R118 inside a command: at `SNAP(j)` the core copies `P[j]` and nothing else changes, no
other staging register either; at `PCHECK` it passes or
faults, with the rate read at `CHECK` for a `PREPARE` and with `SR` for a `PROCESS`. -/
def Obligations.CommandSnapAndCheck : Prop :=
  ∀ (s : State) (cmd : Cmd),
    (∀ j, s.seq = .run cmd (.snap j) →
      ∃ t, exec (cmdInstr cmd) s = .next t ∧ t.seq = nextPosition cmd (.snap j) ∧
        (∀ i, t.stg.snap.get i = if i = j then s.par.get j else s.stg.snap.get i) ∧
        t.stg = { s.stg with snap := t.stg.snap } ∧ t.rf = s.rf ∧ t.uop = s.uop ∧ t.micro = s.micro ∧ SameHostRegs s t ∧ SameAgents s t ∧
        SameBytes s t) ∧
      (s.seq = .run cmd .pcheck →
        let rate := match cmd with
          | .prepare _ => s.stg.rate
          | .process _ _ => s.sr
        (AllLegal s.stg.snap → BelowHalf s.stg.snap rate →
          exec (cmdInstr cmd) s = .next (s.setSeq (.run cmd .commit))) ∧
        (¬AllLegal s.stg.snap → ∃ t, exec (cmdInstr cmd) s = .next t ∧ FaultEntry .param s t) ∧
        (AllLegal s.stg.snap → ¬BelowHalf s.stg.snap rate →
          ∃ t, exec (cmdInstr cmd) s = .next t ∧ FaultEntry .nyq s t))

/-- R126: `PREPARE`'s `COMMIT` latches rate and block size, clears all 36 delay registers, configures
both chains, sets `PREP` and ends the command; parameters, fault bits, `ARG_SR` and buffer stay. -/
def Obligations.PrepareCommit : Prop :=
  ∀ (s : State) (m : BitVec 16), s.seq = .run (.prepare m) .commit → AllLegal s.stg.snap →
    ∃ t, exec (.prepare m) s = .next t ∧ t.seq = .idle ∧ t.prep = true ∧ t.sr = s.stg.rate ∧
      t.maxblk = m ∧ t.argSr = s.argSr ∧ t.fault = s.fault ∧
      (∀ c k j, isDelay j = true → t.rf.read c k j = some 0x00000000#32) ∧
      (∃ rf, SameConfiguration s.rf rf ∧ ConfiguredBy s.stg.snap s.stg.rate rf t.rf) ∧
      t.uop = s.uop ∧ t.micro = s.micro ∧ SameAgents s t ∧ SameBytes s t

/-- R126, R37, R173: a `PREPARE` on an idle core with a legal rate and legal parameters below half of it
takes ten positions after the word is accepted (a step of its own, log 1), and leaves the machine as the
third column of R37 says. The word is the listing's one move, so no other agent moves meanwhile (log 2). -/
def Obligations.PrepareRun : Prop :=
  ∀ (s : State) (m : BitVec 16), s.seq = .idle → s.micro = none →
    s.listing = [.send (.command (0x0100#16 ++ m))] →
    0 < s.argSr.toNat → s.argSr.toNat < 0x7F800000 → AllLegal s.par → BelowHalf s.par s.argSr →
    (∃ u, Host.Core.run Sys2Proof.core 10 s = .next u ∧ u.seq = .run (.prepare m) .commit) ∧
      ∃ t, Host.Core.run Sys2Proof.core 11 s = .next t ∧ t.seq = .idle ∧ t.prep = true ∧
        t.fault = s.fault ∧ t.argSr = s.argSr ∧ t.sr = s.argSr ∧ t.maxblk = m ∧ t.par = s.par ∧
        (∀ c k j, isDelay j = true → t.rf.read c k j = some 0x00000000#32) ∧
        (∃ rf, SameConfiguration s.rf rf ∧ ConfiguredBy s.par s.argSr rf t.rf) ∧
        t.micro = none ∧ t.listing = [] ∧ SameBytes s t

/-- R127, R137, R138, R139, R143: the three tests of a `PROCESS` in order; when all pass the command goes
on and nothing else changes. A `PROCESS` word is accepted when the core is idle, in a step of its own
(the model's, log 1). -/
def Obligations.ProcessCheck : Prop :=
  ∀ (s : State) (nch : BitVec 8) (len : BitVec 16),
    (s.seq = .idle → exec (.process nch len) s = .next (s.setSeq (.run (.process nch len) .check))) ∧
      (s.seq = .run (.process nch len) .check →
        (s.prep = false → ∃ t, exec (.process nch len) s = .next t ∧ FaultEntry .notprep s t) ∧
        (s.prep = true → nch.toNat < 2 →
          ∃ t, exec (.process nch len) s = .next t ∧ FaultEntry .nch s t) ∧
        (s.prep = true → 2 ≤ nch.toNat → s.maxblk.toNat < len.toNat →
          ∃ t, exec (.process nch len) s = .next t ∧ FaultEntry .len s t) ∧
        (s.prep = true → 2 ≤ nch.toNat → len.toNat ≤ s.maxblk.toNat →
          exec (.process nch len) s =
            .next (s.setSeq (.run (.process nch len) (.snap .lowCutFreq)))))

/-- R127, R129: `PROCESS`'s `COMMIT` configures both chains at the rate in force and goes on to the first
sample of channel 0, or ends the command when the block is empty. -/
def Obligations.ProcessCommit : Prop :=
  ∀ (s : State) (nch : BitVec 8) (len : BitVec 16), s.seq = .run (.process nch len) .commit →
    AllLegal s.stg.snap →
    ∃ t, exec (.process nch len) s = .next t ∧
      t.seq = (if len = 0 then .idle else .run (.process nch len) (.proc .left 0)) ∧
      ConfiguredBy s.stg.snap s.sr s.rf t.rf ∧
      t.uop = s.uop ∧ t.micro = s.micro ∧ SameHostRegs s t ∧ SameAgents s t ∧ SameBytes s t

/-- R110, R127 at `PROC(c, n)`: sample `n` of channel `c` becomes what `CHAIN_STEP` gives for it, the
other chain's registers, every coefficient and flag, and every byte outside that cell stay, and `seq`
moves to the next position of R25. The cell's byte address is the model's (log 7). -/
def Obligations.ProcessSample : Prop :=
  ∀ (s : State) (nch : BitVec 8) (len : BitVec 16) (c : Chain) (n : BitVec 16),
    s.seq = .run (.process nch len) (.proc c n) → 2 ≤ nch.toNat → n.toNat < len.toNat →
    s.buf.wf = true →
    let ch : BitVec 8 := if c = .left then 0 else 1
    ∃ t, exec (.process nch len) s = .next t ∧
      memRead t ch n = (chainStep s.rf c (memRead s ch n)).1 ∧
      t.rf = (chainStep s.rf c (memRead s ch n)).2 ∧
      SameConfiguration s.rf t.rf ∧ (∀ c' k, c' ≠ c → SameSlot c' k s.rf t.rf) ∧
      SameBytesOutside (cellAddr ch n) s t ∧
      t.seq = nextPosition (.process nch len) (.proc c n) ∧
      t.uop = s.uop ∧ t.micro = s.micro ∧ SameHostRegs s t ∧ SameAgents s t

/-- R43, R127, R128: the whole `PROC` phase, `2 len` steps: each of channels 0 and 1 holds its own block
filtered by its own chain, from that chain's registers at the start; every byte of any other channel and
of any sample past the block stays, and the command ends. The byte addresses are the model's (log 7); with an
empty listing (log 2) no other agent moves during the phase. -/
def Obligations.ProcessRun : Prop :=
  ∀ (s : State) (nch : BitVec 8) (len : BitVec 16),
    s.seq = .run (.process nch len) (.proc .left 0) → 2 ≤ nch.toNat → len ≠ 0 → s.listing = [] →
    s.micro = none → s.buf.wf = true →
    ∃ t, Host.Core.run Sys2Proof.core (2 * len.toNat) s = .next t ∧ t.seq = .idle ∧
      blockOf t 0 len = (filterBlock .left s.rf (blockOf s 0 len)).1 ∧
      blockOf t 1 len = (filterBlock .right s.rf (blockOf s 1 len)).1 ∧
      t.rf.left = (filterBlock .left s.rf (blockOf s 0 len)).2.left ∧
      t.rf.right = (filterBlock .right s.rf (blockOf s 1 len)).2.right ∧
      (∀ b, (∀ (ch : BitVec 8) i, ch < 2 → i < len → b < cellAddr ch i ∨ cellAddr ch i + 4 ≤ b) →
        loadByte t.buf b = loadByte s.buf b) ∧
      SameHostRegs s t ∧ SameAgents s t ∧ t.uop = s.uop ∧ t.micro = none

/-- R128: what a `PROC(c, n)` step writes to the buffer and leaves in chain `c` depends on the sample and
on chain `c` alone: two states that agree on those, and on nothing else, agree afterwards. Where a NaN is
computed, or a `novalue` cell is read, the equality of bits rests on the model's choice that these are
functions of operation and operands, and of the cell (log 10, log 11). -/
def Obligations.ChannelsDoNotInteract : Prop :=
  ∀ (s s' t t' : State) (nch nch' : BitVec 8) (len len' : BitVec 16) (c : Chain) (n : BitVec 16),
    s.seq = .run (.process nch len) (.proc c n) → s'.seq = .run (.process nch' len') (.proc c n) →
    s.buf.wf = true → s'.buf.wf = true → s.rf.chain c = s'.rf.chain c →
    memRead s (channelOf c) n = memRead s' (channelOf c) n →
    exec (.process nch len) s = .next t → exec (.process nch' len') s' = .next t' →
      t.rf.chain c = t'.rf.chain c ∧
        memRead t (channelOf c) n = memRead t' (channelOf c) n

/-- R25: every position the schedule has is followed by the one R25 gives, or, at `CHECK` and `PCHECK`
alone, by `HALT`. -/
def Obligations.CommandSchedule : Prop :=
  ∀ (s : State) (cmd : Cmd) (ph : Phase), s.seq = .run cmd ph → PositionExists s.seq →
    ∃ t, exec (cmdInstr cmd) s = .next t ∧
      (t.seq = nextPosition cmd ph ∨ t.seq = .halt ∧ (ph = .check ∨ ph = .pcheck))

/-- R133: a host write, while no command is in flight; a command it starts runs in the steps that follow
(log 1). -/
def Obligations.HostWrite : Prop :=
  ∀ (s : State) (addr : BitVec 3) (data : BitVec 32), (∀ cmd ph, s.seq ≠ .run cmd ph) →
    (addr = 2 → exec (.wrreg addr data) s = .next { s with argSr := data }) ∧
      (addr = 0 → s.seq = .idle → ∀ cmd, decode (.command data) = .ok (cmdInstr cmd) →
        exec (.wrreg addr data) s = .next { s with seq := .run cmd .check }) ∧
      (addr = 0 → s.seq = .idle → decode (.command data) = .error .illegalCommand →
        ∃ t, exec (.wrreg addr data) s = .next t ∧ FaultEntry .illcmd s t) ∧
      (addr = 0 → s.seq = .halt → exec (.wrreg addr data) s = .next s) ∧
      (addr ≠ 0 → addr ≠ 2 → exec (.wrreg addr data) s = .next s)

/-- R134 with the layout of R27: the value a host read returns; nothing else changes. That the value
returned is held in `hostData` is the model's choice (log 6). -/
def Obligations.HostRead : Prop :=
  ∀ (s : State) (addr : BitVec 3), (∀ cmd ph, s.seq ≠ .run cmd ph) →
    ∃ v : BitVec 32, exec (.rdreg addr) s = .next { s with hostData := v } ∧
      (addr = 1 →
        v.toNat = (if s.prep = true then 1 else 0) + (if s.fault ≠ 0 then 2 else 0)
          + 256 * s.fault.toNat) ∧
      (addr = 2 → v = s.argSr) ∧ (addr = 3 → v = s.sr) ∧
      (addr = 4 → v.toNat = s.maxblk.toNat) ∧
      (addr = 0 ∨ 5 ≤ addr.toNat → v = 0)

/-- R132: a parameter write, in any state of the core: the cell of its index takes the pattern, no other
cell and nothing else changes; index 7 does nothing. -/
def Obligations.ParameterWrite : Prop :=
  ∀ (s : State) (idx : BitVec 3) (v : F),
    (∀ n j,
      [ParamId.lowCutFreq, .highCutFreq, .peakFreq, .peakGainDb, .peakQuality, .lowCutSlope,
          .highCutSlope][n]? = some j → idx.toNat = n →
        ∃ t, exec (.pwrite idx v) s = .next t ∧ t = { s with par := t.par } ∧
          ∀ i, t.par.get i = if i = j then some v else s.par.get i) ∧
      (idx = 7 → exec (.pwrite idx v) s = .next s)

/-! ### Faults (file 60) -/

/-- R144, R135: fault entry sets bit `7 + code` of `STATUS`, reads as halted, and leaves every other bit
of `STATUS` and all the rest as it was. -/
def Obligations.FaultStatus : Prop :=
  ∀ (f : FaultCode) (s : State), FaultEntry f s (raise f s) ∧
    statusWord (raise f s) = statusWord s ||| 2#32 ||| (1#32 <<< (7 + faultCode f)) ∧
    (f = .illcmd → faultCode f = 1) ∧ (f = .notprep → faultCode f = 2) ∧
    (f = .nch → faultCode f = 3) ∧ (f = .len → faultCode f = 4) ∧ (f = .sr → faultCode f = 5) ∧
    (f = .param → faultCode f = 6) ∧ (f = .nyq → faultCode f = 7)

/-- R136, R71: a word that is neither command, sent to an idle core as a command word or written to
`CMD`, raises `ILLCMD`. That it does so in the step of the write, for op 01 with `nch` not 0 too (a test
R126 puts into `CHECK`), and that the word is a listing's move, is the model's (log 1, log 2). -/
def Obligations.IllegalCommand : Prop :=
  ∀ (s : State) (w : BitVec 32) (rest : List Move) (p : Packet), s.seq = .idle → s.micro = none →
    (p = .command w ∨ p = .bus (1#1 ++ 0#3 ++ w)) → s.listing = .send p :: rest →
    w &&& 0xFFFF0000#32 ≠ 0x01000000#32 → w &&& 0xFF000000#32 ≠ 0x02000000#32 →
    ∃ t, step s = .next t ∧ FaultEntry .illcmd (s.setListing rest) t

/-- R146: a command that faults leaves the state of the command never having been issued, plus one fault
bit and `HALT`; whichever of the seven faults, at whichever step. The word is the listing's one move
(log 2), so parameter writes during the command are left out. -/
def Obligations.FaultsArePrecise : Prop :=
  ∀ (s t : State) (w : BitVec 32) (p : Packet) (k : Nat), s.seq = .idle → s.micro = none →
    (p = .command w ∨ p = .bus (1#1 ++ 0#3 ++ w)) → s.listing = [.send p] →
    Host.Core.run Sys2Proof.core k s = .next t → t.seq = .halt →
      ∃ f, FaultEntry f (s.setListing []) t

/-- R145, R170: in `HALT` every instruction of the table is taken and leaves `seq`, the register file
with its flags, `PREP`, the fault bits, `SR`, `MAXBLK` and the buffer; `ARG_SR` and the store change only
by the writes that reach them. That a micro-operation of a listing does nothing there is log 5. -/
def Obligations.HaltedCore : Prop :=
  ∀ (i : Instr) (s : State), s.seq = .halt → ∃ t, exec i s = .next t ∧ t.seq = .halt ∧
    t.rf = s.rf ∧ t.prep = s.prep ∧ t.fault = s.fault ∧ t.sr = s.sr ∧ t.maxblk = s.maxblk ∧
    SameBytes s t ∧ t.listing = s.listing ∧
    ((∀ d, i ≠ .wrreg 2 d) → t.argSr = s.argSr) ∧ (∀ d, i = .wrreg 2 d → t.argSr = d) ∧
    ((∀ j v, i ≠ .pwrite j v) → t.par = s.par)

/-- R27, R145, R156: no step but hardware reset clears a fault bit or `PREP`, or leaves `HALT`. -/
def Obligations.OnlyResetClears : Prop :=
  ∀ s t : State, step s = .next t → (∀ rest, s.listing ≠ .reset :: rest) →
    s.fault &&& t.fault = s.fault ∧ (s.prep = true → t.prep = true) ∧
      (s.seq = .halt → t.seq = .halt ∧ t.fault = s.fault)

/-! ### Reset (file 70) -/

/-- R156, R157: one step of hardware reset, from any state, puts every cell at its reset value and does
not touch the buffer. That the latches and the staging go to zeros (log 4), and that what was returned to
the host and the moves to come stay (log 2, log 6), is the model's. -/
def Obligations.HardwareReset : Prop :=
  ∀ (s : State) (rest : List Move), s.listing = .reset :: rest →
    ∃ t, step s = .next t ∧
      t = { State.reset with buf := s.buf, hostData := s.hostData, listing := rest } ∧
      t.seq = .idle ∧ statusWord t = 0 ∧ t.argSr = 0 ∧ t.sr = 0 ∧
      t.maxblk = 0 ∧ (∀ j, t.par.get j = none) ∧ (∀ c k j, t.rf.read c k j = none) ∧
      (∀ c k, t.rf.flag c k = if k = .pk then some true else none) ∧ SameBytes s t

/-! ### Memory and invariants -/

/-- R42, R44, R45: the host's access to a sample while no command is in flight: a write puts the pattern
into the cell, low byte at the lowest address, and changes no other byte; a read returns the cell. The
addresses are the model's (log 7), and so is that the access is a listing's move (log 2) and that the
sample read is held in `hostData` (log 6). -/
def Obligations.HostBufferAccess : Prop :=
  ∀ (s : State) (rest : List Move) (ch : BitVec 8) (i : BitVec 16), busy s = false →
    s.buf.wf = true →
    (∀ v, s.listing = .bufWrite ch i v :: rest →
      ∃ t, step s = .next t ∧ memRead t ch i = v ∧
        (∀ k, k < 4 → loadByte t.buf (4 * (65536 * ch.toNat + i.toNat) + k) = v.extractLsb' (8 * k) 8) ∧
        SameBytesOutside (4 * (65536 * ch.toNat + i.toNat)) s t ∧
        t = { s with buf := t.buf, listing := rest }) ∧
      (s.listing = .bufRead ch i :: rest →
        step s = .next { s with hostData := memRead s ch i, listing := rest })

/-- Every step keeps the buffer's canonical form: a list by rising address that omits zero bytes. The form
is wholly the model's choice (log 3); the spec's buffer is the cells of R41. -/
def Obligations.StepKeepsBufferForm : Prop :=
  ∀ s t : State, s.buf.wf = true → step s = .next t → t.buf.wf = true

/-- R27, R143: every step keeps it so that `HALT` and a fault bit go together and at most one fault bit
is set. -/
def Obligations.StepKeepsFaultCoherence : Prop :=
  ∀ s t : State, FaultCoherent s → step s = .next t → FaultCoherent t

/-- R25, R42: from a state at a position the schedule has, no step ends in a fault of the model, no step
is turned away, and the next state is again at such a position. -/
def Obligations.StepKeepsSchedule : Prop :=
  ∀ s : State, OnSchedule s →
    (∀ f, step s ≠ .fault f) ∧ step s ≠ .refused .hostBlocked ∧
      ∀ t, step s = .next t → OnSchedule t

/-- R22, R24, R36: whatever the host and the parameter agent do, and through hardware reset, the two
chains stay linked, and once `PREP` is set the register file stays as a prepared one: active prefixes of
one to four loaded slots, loaded peak slots, written delay lines. -/
def Obligations.StepKeepsPrepared : Prop :=
  ∀ s t : State, NoMicroLines s → StereoLinked s.rf → (s.prep = true → Prepared s.rf) →
    step s = .next t →
      NoMicroLines t ∧ StereoLinked t.rf ∧ (t.prep = true → Prepared t.rf)

/-- The state after reset meets the five invariants. -/
def Obligations.InvariantsAtReset : Prop :=
  State.reset.buf.wf = true ∧ FaultCoherent State.reset ∧ OnSchedule State.reset ∧
    NoMicroLines State.reset ∧ StereoLinked State.reset.rf ∧
    (State.reset.prep = true → Prepared State.reset.rf) ∧ StoreContract State.reset

/-- R114, R173: every command terminates: left to itself, a `PREPARE` is over ten positions after its
`CHECK`, and a `PROCESS` ten and twice the block length, the core idle or halted. The listing is empty
(log 2): moves of other agents are left out. -/
def Obligations.CommandsTerminate : Prop :=
  ∀ (s : State) (cmd : Cmd), s.seq = .run cmd .check → s.listing = [] → s.micro = none →
    ∃ t,
      Host.Core.run Sys2Proof.core
          (match cmd with
            | .prepare _ => 10
            | .process _ len => 10 + 2 * len.toNat) s = .next t ∧
        (t.seq = .idle ∨ t.seq = .halt)

/-- R53, R118 corner (a), R141: under the contract on the store every step keeps the contract, and sets
`F_PARAM` (bit 5 of `FAULT`) only if a cell of the snapshot it checks holds `novalue`. Once all seven
parameters are written they stay written until hardware reset, and without `C:` lines no step sets
`F_PARAM`. That the agents' moves are a listing is the model's (log 2), and so is the `novalue` of a dead
snapshot (log 4). -/
def Obligations.StepKeepsStoreContract : Prop :=
  ∀ s t : State, StoreContract s → step s = .next t →
    StoreContract t ∧
      (t.fault.getLsbD 5 = true →
        s.fault.getLsbD 5 = true ∨ ∃ j, s.stg.snap.get j = none) ∧
      (NoMicroLines s → StoreFilled s → (∀ rest, s.listing ≠ .reset :: rest) →
        NoMicroLines t ∧ StoreFilled t ∧ t.fault.getLsbD 5 = s.fault.getLsbD 5)

end
end

