-- ==== Sys2Proof/Laws/Arith.lean ====
section
/-! SUPPORT. The arithmetic: a NaN result is a NaN, NaNs propagate, products and sums of zeros are
zeros, a representable value is rounded to itself, and the comparisons by bit pattern. -/

namespace Sys2Proof.Machine

/-! ### Fields -/

theorem expField_eq_extract (a : F) : expField a = (a.extractLsb' 23 8).toNat := by
  simp [expField, BitVec.extractLsb'_toNat, Nat.shiftRight_eq_div_pow]

theorem fracField_eq_extract (a : F) : fracField a = (a.extractLsb' 0 23).toNat := by
  simp [fracField, BitVec.extractLsb'_toNat]

theorem fracField_lt (a : F) : fracField a < 2 ^ 23 := Nat.mod_lt _ (by decide)

theorem expField_lt (a : F) : expField a < 256 := Nat.mod_lt _ (by decide)

/-- The magnitude bits are exponent field and fraction field. -/
theorem mag_bits (a : F) : a.toNat % 2 ^ 31 = expField a * 2 ^ 23 + fracField a := by
  simp only [expField, fracField]
  omega

theorem signBit_eq (a : F) : signBit a = decide (2 ^ 31 ≤ a.toNat) := by
  simp [signBit, BitVec.msb_eq_decide]

theorem packBits_self (a : F) : packBits (signBit a) (a.toNat % 2 ^ 31) = a := by
  apply BitVec.eq_of_toNat_eq
  have := a.isLt
  by_cases h : 2 ^ 31 ≤ a.toNat
  · simp only [packBits, signBit_eq, h, decide_true, if_true, BitVec.toNat_ofNat]
    omega
  · simp only [packBits, signBit_eq, h, decide_false, BitVec.toNat_ofNat]
    simp only [Bool.false_eq_true, if_false]
    omega

/-! ### NaN -/

theorem expField_or_inf (v : F) : expField (v ||| 0x7F800000#32) = 255 := by
  rw [expField_eq_extract, BitVec.extractLsb'_or,
    (by decide : (0x7F800000#32).extractLsb' 23 8 = BitVec.allOnes 8), BitVec.or_allOnes]
  rfl

/-- The result of an invalid operation or of an operation on a NaN is a NaN, whatever its free sign and
payload are (R78, log 10). -/
@[simp] theorem isNaN_nanResult (op : FOp) (a b : F) : isNaN (nanResult op a b) = true := by
  simp only [nanResult, isNaN]
  generalize Config.nanBits op a b = n
  split
  · have he : expField (n ||| 0x7F800000#32 ||| 0x00400000#32) = 255 := by
      rw [BitVec.or_assoc, BitVec.or_comm 0x7F800000#32, ← BitVec.or_assoc]
      exact expField_or_inf _
    have hf : fracField (n ||| 0x7F800000#32 ||| 0x00400000#32) ≠ 0 := by
      rw [fracField_eq_extract, BitVec.extractLsb'_or]
      intro h0
      have hbit := congrArg (fun k => Nat.testBit k 22) h0
      simp [BitVec.toNat_or] at hbit
      exact absurd hbit.2 (by decide)
    simp [he, hf]
  · rename_i h
    simp [expField_or_inf, h]

theorem fAdd_nan_left {a : F} (b : F) (h : isNaN a = true) : isNaN (fAdd a b) = true := by
  simp [fAdd, addWith, h]

theorem fAdd_nan_right (a : F) {b : F} (h : isNaN b = true) : isNaN (fAdd a b) = true := by
  simp [fAdd, addWith, h]

theorem isNaN_fNeg (a : F) : isNaN (fNeg a) = isNaN a := by
  have he : expField (fNeg a) = expField a := by
    rw [expField_eq_extract, expField_eq_extract, fNeg, BitVec.extractLsb'_xor,
      (by decide : (0x80000000#32).extractLsb' 23 8 = 0#8), BitVec.xor_zero]
  have hf : fracField (fNeg a) = fracField a := by
    rw [fracField_eq_extract, fracField_eq_extract, fNeg, BitVec.extractLsb'_xor,
      (by decide : (0x80000000#32).extractLsb' 0 23 = 0#23), BitVec.xor_zero]
  simp [isNaN, he, hf]

theorem fSub_nan_left {a : F} (b : F) (h : isNaN a = true) : isNaN (fSub a b) = true := by
  simp [fSub, addWith, h]

theorem fSub_nan_right (a : F) {b : F} (h : isNaN b = true) : isNaN (fSub a b) = true := by
  simp [fSub, addWith, isNaN_fNeg, h]

theorem fMul_nan_left {a : F} (b : F) (h : isNaN a = true) : isNaN (fMul a b) = true := by
  simp [fMul, h]

theorem fMul_nan_right (a : F) {b : F} (h : isNaN b = true) : isNaN (fMul a b) = true := by
  simp [fMul, h]

theorem isNaN_false_of_isFinite {a : F} (h : isFinite a = true) : isNaN a = false := by
  simp_all [isFinite, isNaN]

theorem isInf_false_of_isFinite {a : F} (h : isFinite a = true) : isInf a = false := by
  simp_all [isFinite, isInf]

/-! ### Zeros -/

theorem isFinite_of_isZero {a : F} (h : isZero a = true) : isFinite a = true := by
  simp only [isZero, beq_iff_eq] at h
  have := mag_bits a
  have hf := fracField_lt a
  simp only [isFinite, bne_iff_ne]
  omega

theorem magUnits_of_isZero {a : F} (h : isZero a = true) : magUnits a = 0 := by
  simp only [isZero, beq_iff_eq] at h
  have := mag_bits a
  have h0 : expField a = 0 := by omega
  simp only [magUnits, h0, if_true]
  omega

@[simp] theorem roundRatio_zero (neg : Bool) (den : Nat) : roundRatio neg 0 den = fZero neg := by
  simp [roundRatio, fZero]

@[simp] theorem isZero_fZero (neg : Bool) : isZero (fZero neg) = true := by
  cases neg <;> rfl

theorem signedUnits_of_isZero {a : F} (h : isZero a = true) : signedUnits a = 0 := by
  simp [signedUnits, magUnits_of_isZero h]

theorem fMul_zero_right {a b : F} (ha : isFinite a = true) (hb : isZero b = true) :
    isZero (fMul a b) = true := by
  have hbf := isFinite_of_isZero hb
  simp [fMul, isNaN_false_of_isFinite ha, isNaN_false_of_isFinite hbf, isInf_false_of_isFinite ha,
    isInf_false_of_isFinite hbf, magUnits_of_isZero hb]

theorem addFinite_zero {a b : F} (ha : isZero a = true) (hb : isZero b = true) :
    isZero (addFinite a b) = true := by
  simp [addFinite, signedUnits_of_isZero ha, signedUnits_of_isZero hb]

theorem isZero_fNeg (a : F) : isZero (fNeg a) = isZero a := by
  have h : (fNeg a).toNat % 2 ^ 31 = a.toNat % 2 ^ 31 := by
    have e : ∀ x : F, x.toNat % 2 ^ 31 = (x.extractLsb' 0 31).toNat := fun x => by
      simp [BitVec.extractLsb'_toNat]
    rw [e, e, fNeg, BitVec.extractLsb'_xor, (by decide : (0x80000000#32).extractLsb' 0 31 = 0#31),
      BitVec.xor_zero]
  simp only [isZero, h]

theorem fAdd_zero {a b : F} (ha : isZero a = true) (hb : isZero b = true) :
    isZero (fAdd a b) = true := by
  have haf := isFinite_of_isZero ha
  have hbf := isFinite_of_isZero hb
  simp [fAdd, addWith, isNaN_false_of_isFinite haf, isNaN_false_of_isFinite hbf,
    isInf_false_of_isFinite haf, isInf_false_of_isFinite hbf, addFinite_zero ha hb]

theorem fSub_zero {a b : F} (ha : isZero a = true) (hb : isZero b = true) :
    isZero (fSub a b) = true := by
  have hb' : isZero (fNeg b) = true := by rw [isZero_fNeg, hb]
  have haf := isFinite_of_isZero ha
  have hbf := isFinite_of_isZero hb'
  simp [fSub, addWith, isNaN_false_of_isFinite haf, isNaN_false_of_isFinite hbf,
    isInf_false_of_isFinite haf, isInf_false_of_isFinite hbf, addFinite_zero ha hb']

/-! ### Exact results -/

/-- Rounding depends on the ratio, not on its terms. -/
theorem roundRatio_mul (neg : Bool) (m : Nat) {d : Nat} (hd : 0 < d) :
    roundRatio neg (m * d) d = roundRatio neg m 1 := by
  have hq : m * d / d = m := Nat.mul_div_cancel m hd
  simp only [roundRatio, hq, Nat.div_one, one_mul]
  generalize (if m < 2 ^ 24 then 0 else Nat.log2 m - 23) = k
  have hn : m * d / (d * 2 ^ k) = m / 2 ^ k := by
    rw [Nat.mul_comm m d]; exact Nat.mul_div_mul_left m (2 ^ k) hd
  have hr : m * d % (d * 2 ^ k) = d * (m % 2 ^ k) := by
    rw [Nat.mul_comm m d]; exact Nat.mul_mod_mul_left d m (2 ^ k)
  have hlt : d * 2 ^ k < 2 * (d * (m % 2 ^ k)) ↔ 2 ^ k < 2 * (m % 2 ^ k) := by
    rw [Nat.mul_left_comm]; exact Nat.mul_lt_mul_left hd
  have heq : 2 * (d * (m % 2 ^ k)) = d * 2 ^ k ↔ 2 * (m % 2 ^ k) = 2 ^ k := by
    rw [Nat.mul_left_comm]; exact Nat.mul_right_inj (by omega)
  simp only [hn, hr, hlt, heq]

/-- A count of units that loses no bit at its place is kept. -/
theorem roundRatio_exact (neg : Bool) {m k n : Nat}
    (hk : (if m < 2 ^ 24 then 0 else Nat.log2 m - 23) = k) (hn : m / 2 ^ k = n) (hr : m % 2 ^ k = 0)
    (hsmall : k * 2 ^ 23 + n < 0x7F800000) :
    roundRatio neg m 1 = packBits neg (k * 2 ^ 23 + n) := by
  have hup : ¬(2 ^ k < 2 * 0 ∨ 2 * 0 = 2 ^ k ∧ n % 2 = 1) := by
    have := Nat.two_pow_pos k
    omega
  have hbig : ¬0x7F800000 ≤ k * 2 ^ 23 + n := Nat.not_le.mpr hsmall
  simp only [roundRatio, Nat.div_one, one_mul, hk, hn, hr]
  rw [if_neg hup, if_neg hbig]

theorem subnormal_small {f : Nat} (hf : f < 2 ^ 23) : 0 * 2 ^ 23 + f < 0x7F800000 := by omega

theorem normal_small {e f : Nat} (hf : f < 2 ^ 23) (he : e < 254) :
    e * 2 ^ 23 + (2 ^ 23 + f) < 0x7F800000 := by omega

/-- A representable magnitude is rounded to itself. -/
theorem roundRatio_self (neg : Bool) {a : F} (h : isFinite a = true) :
    roundRatio neg (magUnits a) 1 = packBits neg (a.toNat % 2 ^ 31) := by
  have hf := fracField_lt a
  have he := expField_lt a
  have hm := mag_bits a
  have hne : expField a ≠ 255 := by simpa [isFinite] using h
  by_cases h0 : expField a = 0
  · have hu : magUnits a = fracField a := by simp [magUnits, h0]
    have hz : a.toNat % 2 ^ 31 = 0 * 2 ^ 23 + fracField a := by rw [hm, h0]
    rw [hz, hu]
    exact roundRatio_exact neg (k := 0) (n := fracField a) (if_pos (by omega)) (by simp)
      (by simp [Nat.mod_one]) (subnormal_small hf)
  · obtain ⟨e, he1⟩ : ∃ e, expField a = e + 1 := ⟨expField a - 1, by omega⟩
    have hu : magUnits a = (2 ^ 23 + fracField a) * 2 ^ e := by simp [magUnits, he1]
    have hpos : 0 < 2 ^ e := Nat.two_pow_pos e
    have hne0 : magUnits a ≠ 0 := by rw [hu]; positivity
    have hlog : Nat.log2 (magUnits a) = 23 + e := by
      rw [Nat.log2_eq_iff hne0, hu]
      constructor
      · rw [Nat.pow_add]; exact Nat.mul_le_mul_right _ (by omega)
      · rw [show 23 + e + 1 = 24 + e by omega, Nat.pow_add]
        exact Nat.mul_lt_mul_of_pos_right (by omega) hpos
    have hz : a.toNat % 2 ^ 31 = e * 2 ^ 23 + (2 ^ 23 + fracField a) := by
      rw [hm, he1, Nat.add_mul, Nat.one_mul, Nat.add_assoc]
    rw [hz]
    refine roundRatio_exact neg (k := e) (n := 2 ^ 23 + fracField a) ?_ ?_ ?_
      (normal_small hf (by omega))
    · split
      · have := (Nat.log2_lt hne0).2 ‹_›
        omega
      · omega
    · rw [hu]; exact Nat.mul_div_cancel _ hpos
    · rw [hu]; exact Nat.mul_mod_left _ _

end Sys2Proof.Machine
end

