-- ==== Sys2Proof/Laws/Elementary.lean ====
section
/-! SUPPORT. What the elementary functions are held to on their domains (R79 E3): a value within one
unit in the last place of a real value is one of three neighbouring patterns. -/

namespace Sys2Proof.Machine

/-- A datum at most one and a half units in the last place from the datum with exponent field `e` and
fraction `f`, away from the ends of its binade, is that pattern or a neighbour. -/
theorem pattern_near {y : F} {e f : Nat} (he : 1 ≤ e) (hf : 2 ≤ f) (hf' : f + 2 < 2 ^ 23)
    (lo : (((2 ^ 24 + 2 * f - 3) * 2 ^ (e - 1) : Nat) : Int) ≤ 2 * signedUnits y)
    (hi : 2 * signedUnits y ≤ (((2 ^ 24 + 2 * f + 3) * 2 ^ (e - 1) : Nat) : Int)) :
    y.toNat + 1 = e * 2 ^ 23 + f ∨ y.toNat = e * 2 ^ 23 + f ∨ y.toNat = e * 2 ^ 23 + f + 1 := by
  have hp : 0 < 2 ^ (e - 1) := Nat.two_pow_pos _
  have hpos : 0 < (2 ^ 24 + 2 * f - 3) * 2 ^ (e - 1) := Nat.mul_pos (by omega) hp
  have hsgn : signBit y = false := by
    by_contra hs
    simp only [signedUnits, Bool.not_eq_false] at lo hs
    rw [hs] at lo
    simp only [if_true] at lo
    omega
  simp only [signedUnits, hsgn, Bool.false_eq_true, if_false] at lo hi
  have hm := mag_bits y
  have hfr := fracField_lt y
  have hyl : y.toNat < 2 ^ 31 := by
    have := signBit_eq y
    rw [hsgn] at this
    simpa using this.symm
  rw [Nat.mod_eq_of_lt hyl] at hm
  have lo' : (2 ^ 24 + 2 * f - 3) * 2 ^ (e - 1) ≤ 2 * magUnits y := by exact_mod_cast lo
  have hi' : 2 * magUnits y ≤ (2 ^ 24 + 2 * f + 3) * 2 ^ (e - 1) := by exact_mod_cast hi
  generalize hP : 2 ^ (e - 1) = P at *
  have h24 : 2 ^ 24 * P < 2 * magUnits y :=
    lt_of_lt_of_le (Nat.mul_lt_mul_of_pos_right (by omega) hp) lo'
  have h25 : 2 * magUnits y < 2 ^ 25 * P :=
    lt_of_le_of_lt hi' (Nat.mul_lt_mul_of_pos_right (by omega) hp)
  by_cases h0 : expField y = 0
  · simp only [magUnits, h0, if_true] at h24
    omega
  · simp only [magUnits, h0, if_false] at h24 h25 lo' hi'
    rcases Nat.lt_trichotomy (expField y) e with hlt | heq | hgt
    · exfalso
      have : 2 * 2 ^ (expField y - 1) ≤ P := by
        rw [← hP, ← Nat.pow_succ']
        exact Nat.pow_le_pow_right (by omega) (by omega)
      have : (2 ^ 23 + fracField y) * (2 * 2 ^ (expField y - 1)) ≤ 2 ^ 24 * P :=
        Nat.mul_le_mul (by omega) this
      rw [Nat.mul_left_comm] at this
      omega
    · rw [heq, hP] at lo' hi'
      rw [← Nat.mul_assoc] at lo' hi'
      have l := Nat.le_of_mul_le_mul_right lo' hp
      have h := Nat.le_of_mul_le_mul_right hi' hp
      omega
    · exfalso
      have : 2 * P ≤ 2 ^ (expField y - 1) := by
        rw [← hP, ← Nat.pow_succ']
        exact Nat.pow_le_pow_right (by omega) (by omega)
      have : 2 ^ 23 * (2 * P) ≤ (2 ^ 23 + fracField y) * 2 ^ (expField y - 1) :=
        Nat.mul_le_mul (by omega) this
      omega

/-- What `heldTo` answers: the raw value where it has both properties, the reference realisation, or
one. -/
theorem heldTo_cases (r : Ratio) (e4 : F → Bool) (raw : F) :
    (withinOneUlp r raw = true ∧ heldTo r e4 raw = raw) ∨ heldTo r e4 raw = nearest r ∨
      (e4 (nearest r) = false ∧ heldTo r e4 raw = fOne) := by
  unfold heldTo
  split
  · rename_i h
    exact .inl ⟨by simpa using (Bool.and_eq_true _ _ ▸ h).1, rfl⟩
  · split
    · exact .inr (.inl rfl)
    · rename_i h
      exact .inr (.inr ⟨by simpa using h, rfl⟩)

/-- A value within one unit in the last place of a positive ratio, in whole units. -/
theorem withinOneUlp_bounds {r : Ratio} {y : F} (hn : r.neg = false) (h : withinOneUlp r y = true) :
    signedUnits y * r.den ≤ (r.num + 2 ^ (expField (nearest r) - 1) * r.den : Nat) ∧
      ((r.num : Int) - (2 ^ (expField (nearest r) - 1) * r.den : Nat)) ≤ signedUnits y * r.den := by
  simp only [withinOneUlp, hn, Bool.false_eq_true, if_false, Bool.and_eq_true, decide_eq_true_eq] at h
  omega

/-- A value within one unit in the last place of a positive ratio that lies, with that unit, inside one
binade is the pattern with fields `e` and `f` or a neighbour. -/
theorem within_near {r : Ratio} {y : F} {e f : Nat} (hn : r.neg = false) (h : withinOneUlp r y = true)
    (hd : 0 < r.den) (he : 1 ≤ e) (hf : 2 ≤ f) (hf' : f + 2 < 2 ^ 23)
    (hhi : 2 * (r.num + 2 ^ (expField (nearest r) - 1) * r.den)
      ≤ (2 ^ 24 + 2 * f + 3) * 2 ^ (e - 1) * r.den)
    (hlo : (2 ^ 24 + 2 * f - 3) * 2 ^ (e - 1) * r.den + 2 * (2 ^ (expField (nearest r) - 1) * r.den)
      ≤ 2 * r.num) :
    y.toNat + 1 = e * 2 ^ 23 + f ∨ y.toNat = e * 2 ^ 23 + f ∨ y.toNat = e * 2 ^ 23 + f + 1 := by
  obtain ⟨a, b⟩ := withinOneUlp_bounds hn h
  have hd' : (0 : Int) < r.den := by exact_mod_cast hd
  refine pattern_near he hf hf' (le_of_mul_le_mul_right ?_ hd') (le_of_mul_le_mul_right ?_ hd')
  · have : ((((2 ^ 24 + 2 * f - 3) * 2 ^ (e - 1) * r.den : Nat) : Int)) ≤ 2 * signedUnits y * r.den := by
      rw [Int.mul_assoc]; omega
    exact_mod_cast this
  · have : 2 * signedUnits y * r.den ≤ (((2 ^ 24 + 2 * f + 3) * 2 ^ (e - 1) * r.den : Nat) : Int) := by
      rw [Int.mul_assoc]; omega
    exact_mod_cast this

end Sys2Proof.Machine
end

