-- ==== Sys2Proof/Laws/State.lean ====
section
/-! SUPPORT. One lemma per field per update of the state, and of the records inside it. -/

namespace Sys2Proof.Machine

@[simp] theorem State.setRf_rf (s : State) (v : RegFile) : (s.setRf v).rf = v := rfl
@[simp] theorem State.setRf_seq (s : State) (v : RegFile) : (s.setRf v).seq = s.seq := rfl
@[simp] theorem State.setRf_prep (s : State) (v : RegFile) : (s.setRf v).prep = s.prep := rfl
@[simp] theorem State.setRf_fault (s : State) (v : RegFile) : (s.setRf v).fault = s.fault := rfl
@[simp] theorem State.setRf_argSr (s : State) (v : RegFile) : (s.setRf v).argSr = s.argSr := rfl
@[simp] theorem State.setRf_sr (s : State) (v : RegFile) : (s.setRf v).sr = s.sr := rfl
@[simp] theorem State.setRf_maxblk (s : State) (v : RegFile) : (s.setRf v).maxblk = s.maxblk := rfl
@[simp] theorem State.setRf_par (s : State) (v : RegFile) : (s.setRf v).par = s.par := rfl
@[simp] theorem State.setRf_stg (s : State) (v : RegFile) : (s.setRf v).stg = s.stg := rfl
@[simp] theorem State.setRf_uop (s : State) (v : RegFile) : (s.setRf v).uop = s.uop := rfl
@[simp] theorem State.setRf_micro (s : State) (v : RegFile) : (s.setRf v).micro = s.micro := rfl
@[simp] theorem State.setRf_buf (s : State) (v : RegFile) : (s.setRf v).buf = s.buf := rfl
@[simp] theorem State.setRf_hostData (s : State) (v : RegFile) : (s.setRf v).hostData = s.hostData := rfl
@[simp] theorem State.setRf_listing (s : State) (v : RegFile) : (s.setRf v).listing = s.listing := rfl

@[simp] theorem State.setSeq_rf (s : State) (v : Seq) : (s.setSeq v).rf = s.rf := rfl
@[simp] theorem State.setSeq_seq (s : State) (v : Seq) : (s.setSeq v).seq = v := rfl
@[simp] theorem State.setSeq_prep (s : State) (v : Seq) : (s.setSeq v).prep = s.prep := rfl
@[simp] theorem State.setSeq_fault (s : State) (v : Seq) : (s.setSeq v).fault = s.fault := rfl
@[simp] theorem State.setSeq_argSr (s : State) (v : Seq) : (s.setSeq v).argSr = s.argSr := rfl
@[simp] theorem State.setSeq_sr (s : State) (v : Seq) : (s.setSeq v).sr = s.sr := rfl
@[simp] theorem State.setSeq_maxblk (s : State) (v : Seq) : (s.setSeq v).maxblk = s.maxblk := rfl
@[simp] theorem State.setSeq_par (s : State) (v : Seq) : (s.setSeq v).par = s.par := rfl
@[simp] theorem State.setSeq_stg (s : State) (v : Seq) : (s.setSeq v).stg = s.stg := rfl
@[simp] theorem State.setSeq_uop (s : State) (v : Seq) : (s.setSeq v).uop = s.uop := rfl
@[simp] theorem State.setSeq_micro (s : State) (v : Seq) : (s.setSeq v).micro = s.micro := rfl
@[simp] theorem State.setSeq_buf (s : State) (v : Seq) : (s.setSeq v).buf = s.buf := rfl
@[simp] theorem State.setSeq_hostData (s : State) (v : Seq) : (s.setSeq v).hostData = s.hostData := rfl
@[simp] theorem State.setSeq_listing (s : State) (v : Seq) : (s.setSeq v).listing = s.listing := rfl

@[simp] theorem State.setPrep_rf (s : State) (v : Bool) : (s.setPrep v).rf = s.rf := rfl
@[simp] theorem State.setPrep_seq (s : State) (v : Bool) : (s.setPrep v).seq = s.seq := rfl
@[simp] theorem State.setPrep_prep (s : State) (v : Bool) : (s.setPrep v).prep = v := rfl
@[simp] theorem State.setPrep_fault (s : State) (v : Bool) : (s.setPrep v).fault = s.fault := rfl
@[simp] theorem State.setPrep_argSr (s : State) (v : Bool) : (s.setPrep v).argSr = s.argSr := rfl
@[simp] theorem State.setPrep_sr (s : State) (v : Bool) : (s.setPrep v).sr = s.sr := rfl
@[simp] theorem State.setPrep_maxblk (s : State) (v : Bool) : (s.setPrep v).maxblk = s.maxblk := rfl
@[simp] theorem State.setPrep_par (s : State) (v : Bool) : (s.setPrep v).par = s.par := rfl
@[simp] theorem State.setPrep_stg (s : State) (v : Bool) : (s.setPrep v).stg = s.stg := rfl
@[simp] theorem State.setPrep_uop (s : State) (v : Bool) : (s.setPrep v).uop = s.uop := rfl
@[simp] theorem State.setPrep_micro (s : State) (v : Bool) : (s.setPrep v).micro = s.micro := rfl
@[simp] theorem State.setPrep_buf (s : State) (v : Bool) : (s.setPrep v).buf = s.buf := rfl
@[simp] theorem State.setPrep_hostData (s : State) (v : Bool) : (s.setPrep v).hostData = s.hostData := rfl
@[simp] theorem State.setPrep_listing (s : State) (v : Bool) : (s.setPrep v).listing = s.listing := rfl

@[simp] theorem State.setFault_rf (s : State) (v : BitVec 7) : (s.setFault v).rf = s.rf := rfl
@[simp] theorem State.setFault_seq (s : State) (v : BitVec 7) : (s.setFault v).seq = s.seq := rfl
@[simp] theorem State.setFault_prep (s : State) (v : BitVec 7) : (s.setFault v).prep = s.prep := rfl
@[simp] theorem State.setFault_fault (s : State) (v : BitVec 7) : (s.setFault v).fault = v := rfl
@[simp] theorem State.setFault_argSr (s : State) (v : BitVec 7) : (s.setFault v).argSr = s.argSr := rfl
@[simp] theorem State.setFault_sr (s : State) (v : BitVec 7) : (s.setFault v).sr = s.sr := rfl
@[simp] theorem State.setFault_maxblk (s : State) (v : BitVec 7) : (s.setFault v).maxblk = s.maxblk := rfl
@[simp] theorem State.setFault_par (s : State) (v : BitVec 7) : (s.setFault v).par = s.par := rfl
@[simp] theorem State.setFault_stg (s : State) (v : BitVec 7) : (s.setFault v).stg = s.stg := rfl
@[simp] theorem State.setFault_uop (s : State) (v : BitVec 7) : (s.setFault v).uop = s.uop := rfl
@[simp] theorem State.setFault_micro (s : State) (v : BitVec 7) : (s.setFault v).micro = s.micro := rfl
@[simp] theorem State.setFault_buf (s : State) (v : BitVec 7) : (s.setFault v).buf = s.buf := rfl
@[simp] theorem State.setFault_hostData (s : State) (v : BitVec 7) : (s.setFault v).hostData = s.hostData := rfl
@[simp] theorem State.setFault_listing (s : State) (v : BitVec 7) : (s.setFault v).listing = s.listing := rfl

@[simp] theorem State.setArgSr_rf (s : State) (v : F) : (s.setArgSr v).rf = s.rf := rfl
@[simp] theorem State.setArgSr_seq (s : State) (v : F) : (s.setArgSr v).seq = s.seq := rfl
@[simp] theorem State.setArgSr_prep (s : State) (v : F) : (s.setArgSr v).prep = s.prep := rfl
@[simp] theorem State.setArgSr_fault (s : State) (v : F) : (s.setArgSr v).fault = s.fault := rfl
@[simp] theorem State.setArgSr_argSr (s : State) (v : F) : (s.setArgSr v).argSr = v := rfl
@[simp] theorem State.setArgSr_sr (s : State) (v : F) : (s.setArgSr v).sr = s.sr := rfl
@[simp] theorem State.setArgSr_maxblk (s : State) (v : F) : (s.setArgSr v).maxblk = s.maxblk := rfl
@[simp] theorem State.setArgSr_par (s : State) (v : F) : (s.setArgSr v).par = s.par := rfl
@[simp] theorem State.setArgSr_stg (s : State) (v : F) : (s.setArgSr v).stg = s.stg := rfl
@[simp] theorem State.setArgSr_uop (s : State) (v : F) : (s.setArgSr v).uop = s.uop := rfl
@[simp] theorem State.setArgSr_micro (s : State) (v : F) : (s.setArgSr v).micro = s.micro := rfl
@[simp] theorem State.setArgSr_buf (s : State) (v : F) : (s.setArgSr v).buf = s.buf := rfl
@[simp] theorem State.setArgSr_hostData (s : State) (v : F) : (s.setArgSr v).hostData = s.hostData := rfl
@[simp] theorem State.setArgSr_listing (s : State) (v : F) : (s.setArgSr v).listing = s.listing := rfl

@[simp] theorem State.setSr_rf (s : State) (v : F) : (s.setSr v).rf = s.rf := rfl
@[simp] theorem State.setSr_seq (s : State) (v : F) : (s.setSr v).seq = s.seq := rfl
@[simp] theorem State.setSr_prep (s : State) (v : F) : (s.setSr v).prep = s.prep := rfl
@[simp] theorem State.setSr_fault (s : State) (v : F) : (s.setSr v).fault = s.fault := rfl
@[simp] theorem State.setSr_argSr (s : State) (v : F) : (s.setSr v).argSr = s.argSr := rfl
@[simp] theorem State.setSr_sr (s : State) (v : F) : (s.setSr v).sr = v := rfl
@[simp] theorem State.setSr_maxblk (s : State) (v : F) : (s.setSr v).maxblk = s.maxblk := rfl
@[simp] theorem State.setSr_par (s : State) (v : F) : (s.setSr v).par = s.par := rfl
@[simp] theorem State.setSr_stg (s : State) (v : F) : (s.setSr v).stg = s.stg := rfl
@[simp] theorem State.setSr_uop (s : State) (v : F) : (s.setSr v).uop = s.uop := rfl
@[simp] theorem State.setSr_micro (s : State) (v : F) : (s.setSr v).micro = s.micro := rfl
@[simp] theorem State.setSr_buf (s : State) (v : F) : (s.setSr v).buf = s.buf := rfl
@[simp] theorem State.setSr_hostData (s : State) (v : F) : (s.setSr v).hostData = s.hostData := rfl
@[simp] theorem State.setSr_listing (s : State) (v : F) : (s.setSr v).listing = s.listing := rfl

@[simp] theorem State.setMaxblk_rf (s : State) (v : BitVec 16) : (s.setMaxblk v).rf = s.rf := rfl
@[simp] theorem State.setMaxblk_seq (s : State) (v : BitVec 16) : (s.setMaxblk v).seq = s.seq := rfl
@[simp] theorem State.setMaxblk_prep (s : State) (v : BitVec 16) : (s.setMaxblk v).prep = s.prep := rfl
@[simp] theorem State.setMaxblk_fault (s : State) (v : BitVec 16) : (s.setMaxblk v).fault = s.fault := rfl
@[simp] theorem State.setMaxblk_argSr (s : State) (v : BitVec 16) : (s.setMaxblk v).argSr = s.argSr := rfl
@[simp] theorem State.setMaxblk_sr (s : State) (v : BitVec 16) : (s.setMaxblk v).sr = s.sr := rfl
@[simp] theorem State.setMaxblk_maxblk (s : State) (v : BitVec 16) : (s.setMaxblk v).maxblk = v := rfl
@[simp] theorem State.setMaxblk_par (s : State) (v : BitVec 16) : (s.setMaxblk v).par = s.par := rfl
@[simp] theorem State.setMaxblk_stg (s : State) (v : BitVec 16) : (s.setMaxblk v).stg = s.stg := rfl
@[simp] theorem State.setMaxblk_uop (s : State) (v : BitVec 16) : (s.setMaxblk v).uop = s.uop := rfl
@[simp] theorem State.setMaxblk_micro (s : State) (v : BitVec 16) : (s.setMaxblk v).micro = s.micro := rfl
@[simp] theorem State.setMaxblk_buf (s : State) (v : BitVec 16) : (s.setMaxblk v).buf = s.buf := rfl
@[simp] theorem State.setMaxblk_hostData (s : State) (v : BitVec 16) : (s.setMaxblk v).hostData = s.hostData := rfl
@[simp] theorem State.setMaxblk_listing (s : State) (v : BitVec 16) : (s.setMaxblk v).listing = s.listing := rfl

@[simp] theorem State.setPar_rf (s : State) (v : Params) : (s.setPar v).rf = s.rf := rfl
@[simp] theorem State.setPar_seq (s : State) (v : Params) : (s.setPar v).seq = s.seq := rfl
@[simp] theorem State.setPar_prep (s : State) (v : Params) : (s.setPar v).prep = s.prep := rfl
@[simp] theorem State.setPar_fault (s : State) (v : Params) : (s.setPar v).fault = s.fault := rfl
@[simp] theorem State.setPar_argSr (s : State) (v : Params) : (s.setPar v).argSr = s.argSr := rfl
@[simp] theorem State.setPar_sr (s : State) (v : Params) : (s.setPar v).sr = s.sr := rfl
@[simp] theorem State.setPar_maxblk (s : State) (v : Params) : (s.setPar v).maxblk = s.maxblk := rfl
@[simp] theorem State.setPar_par (s : State) (v : Params) : (s.setPar v).par = v := rfl
@[simp] theorem State.setPar_stg (s : State) (v : Params) : (s.setPar v).stg = s.stg := rfl
@[simp] theorem State.setPar_uop (s : State) (v : Params) : (s.setPar v).uop = s.uop := rfl
@[simp] theorem State.setPar_micro (s : State) (v : Params) : (s.setPar v).micro = s.micro := rfl
@[simp] theorem State.setPar_buf (s : State) (v : Params) : (s.setPar v).buf = s.buf := rfl
@[simp] theorem State.setPar_hostData (s : State) (v : Params) : (s.setPar v).hostData = s.hostData := rfl
@[simp] theorem State.setPar_listing (s : State) (v : Params) : (s.setPar v).listing = s.listing := rfl

@[simp] theorem State.setStg_rf (s : State) (v : Staging) : (s.setStg v).rf = s.rf := rfl
@[simp] theorem State.setStg_seq (s : State) (v : Staging) : (s.setStg v).seq = s.seq := rfl
@[simp] theorem State.setStg_prep (s : State) (v : Staging) : (s.setStg v).prep = s.prep := rfl
@[simp] theorem State.setStg_fault (s : State) (v : Staging) : (s.setStg v).fault = s.fault := rfl
@[simp] theorem State.setStg_argSr (s : State) (v : Staging) : (s.setStg v).argSr = s.argSr := rfl
@[simp] theorem State.setStg_sr (s : State) (v : Staging) : (s.setStg v).sr = s.sr := rfl
@[simp] theorem State.setStg_maxblk (s : State) (v : Staging) : (s.setStg v).maxblk = s.maxblk := rfl
@[simp] theorem State.setStg_par (s : State) (v : Staging) : (s.setStg v).par = s.par := rfl
@[simp] theorem State.setStg_stg (s : State) (v : Staging) : (s.setStg v).stg = v := rfl
@[simp] theorem State.setStg_uop (s : State) (v : Staging) : (s.setStg v).uop = s.uop := rfl
@[simp] theorem State.setStg_micro (s : State) (v : Staging) : (s.setStg v).micro = s.micro := rfl
@[simp] theorem State.setStg_buf (s : State) (v : Staging) : (s.setStg v).buf = s.buf := rfl
@[simp] theorem State.setStg_hostData (s : State) (v : Staging) : (s.setStg v).hostData = s.hostData := rfl
@[simp] theorem State.setStg_listing (s : State) (v : Staging) : (s.setStg v).listing = s.listing := rfl

@[simp] theorem State.setUop_rf (s : State) (v : Latches) : (s.setUop v).rf = s.rf := rfl
@[simp] theorem State.setUop_seq (s : State) (v : Latches) : (s.setUop v).seq = s.seq := rfl
@[simp] theorem State.setUop_prep (s : State) (v : Latches) : (s.setUop v).prep = s.prep := rfl
@[simp] theorem State.setUop_fault (s : State) (v : Latches) : (s.setUop v).fault = s.fault := rfl
@[simp] theorem State.setUop_argSr (s : State) (v : Latches) : (s.setUop v).argSr = s.argSr := rfl
@[simp] theorem State.setUop_sr (s : State) (v : Latches) : (s.setUop v).sr = s.sr := rfl
@[simp] theorem State.setUop_maxblk (s : State) (v : Latches) : (s.setUop v).maxblk = s.maxblk := rfl
@[simp] theorem State.setUop_par (s : State) (v : Latches) : (s.setUop v).par = s.par := rfl
@[simp] theorem State.setUop_stg (s : State) (v : Latches) : (s.setUop v).stg = s.stg := rfl
@[simp] theorem State.setUop_uop (s : State) (v : Latches) : (s.setUop v).uop = v := rfl
@[simp] theorem State.setUop_micro (s : State) (v : Latches) : (s.setUop v).micro = s.micro := rfl
@[simp] theorem State.setUop_buf (s : State) (v : Latches) : (s.setUop v).buf = s.buf := rfl
@[simp] theorem State.setUop_hostData (s : State) (v : Latches) : (s.setUop v).hostData = s.hostData := rfl
@[simp] theorem State.setUop_listing (s : State) (v : Latches) : (s.setUop v).listing = s.listing := rfl

@[simp] theorem State.setMicro_rf (s : State) (v : Option MicroPos) : (s.setMicro v).rf = s.rf := rfl
@[simp] theorem State.setMicro_seq (s : State) (v : Option MicroPos) : (s.setMicro v).seq = s.seq := rfl
@[simp] theorem State.setMicro_prep (s : State) (v : Option MicroPos) : (s.setMicro v).prep = s.prep := rfl
@[simp] theorem State.setMicro_fault (s : State) (v : Option MicroPos) : (s.setMicro v).fault = s.fault := rfl
@[simp] theorem State.setMicro_argSr (s : State) (v : Option MicroPos) : (s.setMicro v).argSr = s.argSr := rfl
@[simp] theorem State.setMicro_sr (s : State) (v : Option MicroPos) : (s.setMicro v).sr = s.sr := rfl
@[simp] theorem State.setMicro_maxblk (s : State) (v : Option MicroPos) : (s.setMicro v).maxblk = s.maxblk := rfl
@[simp] theorem State.setMicro_par (s : State) (v : Option MicroPos) : (s.setMicro v).par = s.par := rfl
@[simp] theorem State.setMicro_stg (s : State) (v : Option MicroPos) : (s.setMicro v).stg = s.stg := rfl
@[simp] theorem State.setMicro_uop (s : State) (v : Option MicroPos) : (s.setMicro v).uop = s.uop := rfl
@[simp] theorem State.setMicro_micro (s : State) (v : Option MicroPos) : (s.setMicro v).micro = v := rfl
@[simp] theorem State.setMicro_buf (s : State) (v : Option MicroPos) : (s.setMicro v).buf = s.buf := rfl
@[simp] theorem State.setMicro_hostData (s : State) (v : Option MicroPos) : (s.setMicro v).hostData = s.hostData := rfl
@[simp] theorem State.setMicro_listing (s : State) (v : Option MicroPos) : (s.setMicro v).listing = s.listing := rfl

@[simp] theorem State.setBuf_rf (s : State) (v : Memory) : (s.setBuf v).rf = s.rf := rfl
@[simp] theorem State.setBuf_seq (s : State) (v : Memory) : (s.setBuf v).seq = s.seq := rfl
@[simp] theorem State.setBuf_prep (s : State) (v : Memory) : (s.setBuf v).prep = s.prep := rfl
@[simp] theorem State.setBuf_fault (s : State) (v : Memory) : (s.setBuf v).fault = s.fault := rfl
@[simp] theorem State.setBuf_argSr (s : State) (v : Memory) : (s.setBuf v).argSr = s.argSr := rfl
@[simp] theorem State.setBuf_sr (s : State) (v : Memory) : (s.setBuf v).sr = s.sr := rfl
@[simp] theorem State.setBuf_maxblk (s : State) (v : Memory) : (s.setBuf v).maxblk = s.maxblk := rfl
@[simp] theorem State.setBuf_par (s : State) (v : Memory) : (s.setBuf v).par = s.par := rfl
@[simp] theorem State.setBuf_stg (s : State) (v : Memory) : (s.setBuf v).stg = s.stg := rfl
@[simp] theorem State.setBuf_uop (s : State) (v : Memory) : (s.setBuf v).uop = s.uop := rfl
@[simp] theorem State.setBuf_micro (s : State) (v : Memory) : (s.setBuf v).micro = s.micro := rfl
@[simp] theorem State.setBuf_buf (s : State) (v : Memory) : (s.setBuf v).buf = v := rfl
@[simp] theorem State.setBuf_hostData (s : State) (v : Memory) : (s.setBuf v).hostData = s.hostData := rfl
@[simp] theorem State.setBuf_listing (s : State) (v : Memory) : (s.setBuf v).listing = s.listing := rfl

@[simp] theorem State.setHostData_rf (s : State) (v : BitVec 32) : (s.setHostData v).rf = s.rf := rfl
@[simp] theorem State.setHostData_seq (s : State) (v : BitVec 32) : (s.setHostData v).seq = s.seq := rfl
@[simp] theorem State.setHostData_prep (s : State) (v : BitVec 32) : (s.setHostData v).prep = s.prep := rfl
@[simp] theorem State.setHostData_fault (s : State) (v : BitVec 32) : (s.setHostData v).fault = s.fault := rfl
@[simp] theorem State.setHostData_argSr (s : State) (v : BitVec 32) : (s.setHostData v).argSr = s.argSr := rfl
@[simp] theorem State.setHostData_sr (s : State) (v : BitVec 32) : (s.setHostData v).sr = s.sr := rfl
@[simp] theorem State.setHostData_maxblk (s : State) (v : BitVec 32) : (s.setHostData v).maxblk = s.maxblk := rfl
@[simp] theorem State.setHostData_par (s : State) (v : BitVec 32) : (s.setHostData v).par = s.par := rfl
@[simp] theorem State.setHostData_stg (s : State) (v : BitVec 32) : (s.setHostData v).stg = s.stg := rfl
@[simp] theorem State.setHostData_uop (s : State) (v : BitVec 32) : (s.setHostData v).uop = s.uop := rfl
@[simp] theorem State.setHostData_micro (s : State) (v : BitVec 32) : (s.setHostData v).micro = s.micro := rfl
@[simp] theorem State.setHostData_buf (s : State) (v : BitVec 32) : (s.setHostData v).buf = s.buf := rfl
@[simp] theorem State.setHostData_hostData (s : State) (v : BitVec 32) : (s.setHostData v).hostData = v := rfl
@[simp] theorem State.setHostData_listing (s : State) (v : BitVec 32) : (s.setHostData v).listing = s.listing := rfl

@[simp] theorem State.setListing_rf (s : State) (v : List Move) : (s.setListing v).rf = s.rf := rfl
@[simp] theorem State.setListing_seq (s : State) (v : List Move) : (s.setListing v).seq = s.seq := rfl
@[simp] theorem State.setListing_prep (s : State) (v : List Move) : (s.setListing v).prep = s.prep := rfl
@[simp] theorem State.setListing_fault (s : State) (v : List Move) : (s.setListing v).fault = s.fault := rfl
@[simp] theorem State.setListing_argSr (s : State) (v : List Move) : (s.setListing v).argSr = s.argSr := rfl
@[simp] theorem State.setListing_sr (s : State) (v : List Move) : (s.setListing v).sr = s.sr := rfl
@[simp] theorem State.setListing_maxblk (s : State) (v : List Move) : (s.setListing v).maxblk = s.maxblk := rfl
@[simp] theorem State.setListing_par (s : State) (v : List Move) : (s.setListing v).par = s.par := rfl
@[simp] theorem State.setListing_stg (s : State) (v : List Move) : (s.setListing v).stg = s.stg := rfl
@[simp] theorem State.setListing_uop (s : State) (v : List Move) : (s.setListing v).uop = s.uop := rfl
@[simp] theorem State.setListing_micro (s : State) (v : List Move) : (s.setListing v).micro = s.micro := rfl
@[simp] theorem State.setListing_buf (s : State) (v : List Move) : (s.setListing v).buf = s.buf := rfl
@[simp] theorem State.setListing_hostData (s : State) (v : List Move) : (s.setListing v).hostData = s.hostData := rfl
@[simp] theorem State.setListing_listing (s : State) (v : List Move) : (s.setListing v).listing = v := rfl

@[simp] theorem State.putCount_uop (s : State) (v : BitVec 3) :
    (s.putCount v).uop = { s.uop with count := v } := rfl
@[simp] theorem State.putOrder_uop (s : State) (v : Order) :
    (s.putOrder v).uop = { s.uop with order := v } := rfl
@[simp] theorem State.putSet_uop (s : State) (v : CoefSet) :
    (s.putSet v).uop = { s.uop with set := v } := rfl
@[simp] theorem State.putSeqn_uop (s : State) (v : List CoefSet) :
    (s.putSeqn v).uop = { s.uop with seqn := v } := rfl
@[simp] theorem State.putY_uop (s : State) (v : F) :
    (s.putY v).uop = { s.uop with y := v } := rfl

@[simp] theorem State.putCount_rf (s : State) (v : BitVec 3) : (s.putCount v).rf = s.rf := rfl
@[simp] theorem State.putCount_seq (s : State) (v : BitVec 3) : (s.putCount v).seq = s.seq := rfl
@[simp] theorem State.putCount_prep (s : State) (v : BitVec 3) : (s.putCount v).prep = s.prep := rfl
@[simp] theorem State.putCount_fault (s : State) (v : BitVec 3) : (s.putCount v).fault = s.fault := rfl
@[simp] theorem State.putCount_argSr (s : State) (v : BitVec 3) : (s.putCount v).argSr = s.argSr := rfl
@[simp] theorem State.putCount_sr (s : State) (v : BitVec 3) : (s.putCount v).sr = s.sr := rfl
@[simp] theorem State.putCount_maxblk (s : State) (v : BitVec 3) : (s.putCount v).maxblk = s.maxblk := rfl
@[simp] theorem State.putCount_par (s : State) (v : BitVec 3) : (s.putCount v).par = s.par := rfl
@[simp] theorem State.putCount_stg (s : State) (v : BitVec 3) : (s.putCount v).stg = s.stg := rfl
@[simp] theorem State.putCount_micro (s : State) (v : BitVec 3) : (s.putCount v).micro = s.micro := rfl
@[simp] theorem State.putCount_buf (s : State) (v : BitVec 3) : (s.putCount v).buf = s.buf := rfl
@[simp] theorem State.putCount_hostData (s : State) (v : BitVec 3) : (s.putCount v).hostData = s.hostData := rfl
@[simp] theorem State.putCount_listing (s : State) (v : BitVec 3) : (s.putCount v).listing = s.listing := rfl

@[simp] theorem State.putOrder_rf (s : State) (v : Order) : (s.putOrder v).rf = s.rf := rfl
@[simp] theorem State.putOrder_seq (s : State) (v : Order) : (s.putOrder v).seq = s.seq := rfl
@[simp] theorem State.putOrder_prep (s : State) (v : Order) : (s.putOrder v).prep = s.prep := rfl
@[simp] theorem State.putOrder_fault (s : State) (v : Order) : (s.putOrder v).fault = s.fault := rfl
@[simp] theorem State.putOrder_argSr (s : State) (v : Order) : (s.putOrder v).argSr = s.argSr := rfl
@[simp] theorem State.putOrder_sr (s : State) (v : Order) : (s.putOrder v).sr = s.sr := rfl
@[simp] theorem State.putOrder_maxblk (s : State) (v : Order) : (s.putOrder v).maxblk = s.maxblk := rfl
@[simp] theorem State.putOrder_par (s : State) (v : Order) : (s.putOrder v).par = s.par := rfl
@[simp] theorem State.putOrder_stg (s : State) (v : Order) : (s.putOrder v).stg = s.stg := rfl
@[simp] theorem State.putOrder_micro (s : State) (v : Order) : (s.putOrder v).micro = s.micro := rfl
@[simp] theorem State.putOrder_buf (s : State) (v : Order) : (s.putOrder v).buf = s.buf := rfl
@[simp] theorem State.putOrder_hostData (s : State) (v : Order) : (s.putOrder v).hostData = s.hostData := rfl
@[simp] theorem State.putOrder_listing (s : State) (v : Order) : (s.putOrder v).listing = s.listing := rfl

@[simp] theorem State.putSet_rf (s : State) (v : CoefSet) : (s.putSet v).rf = s.rf := rfl
@[simp] theorem State.putSet_seq (s : State) (v : CoefSet) : (s.putSet v).seq = s.seq := rfl
@[simp] theorem State.putSet_prep (s : State) (v : CoefSet) : (s.putSet v).prep = s.prep := rfl
@[simp] theorem State.putSet_fault (s : State) (v : CoefSet) : (s.putSet v).fault = s.fault := rfl
@[simp] theorem State.putSet_argSr (s : State) (v : CoefSet) : (s.putSet v).argSr = s.argSr := rfl
@[simp] theorem State.putSet_sr (s : State) (v : CoefSet) : (s.putSet v).sr = s.sr := rfl
@[simp] theorem State.putSet_maxblk (s : State) (v : CoefSet) : (s.putSet v).maxblk = s.maxblk := rfl
@[simp] theorem State.putSet_par (s : State) (v : CoefSet) : (s.putSet v).par = s.par := rfl
@[simp] theorem State.putSet_stg (s : State) (v : CoefSet) : (s.putSet v).stg = s.stg := rfl
@[simp] theorem State.putSet_micro (s : State) (v : CoefSet) : (s.putSet v).micro = s.micro := rfl
@[simp] theorem State.putSet_buf (s : State) (v : CoefSet) : (s.putSet v).buf = s.buf := rfl
@[simp] theorem State.putSet_hostData (s : State) (v : CoefSet) : (s.putSet v).hostData = s.hostData := rfl
@[simp] theorem State.putSet_listing (s : State) (v : CoefSet) : (s.putSet v).listing = s.listing := rfl

@[simp] theorem State.putSeqn_rf (s : State) (v : List CoefSet) : (s.putSeqn v).rf = s.rf := rfl
@[simp] theorem State.putSeqn_seq (s : State) (v : List CoefSet) : (s.putSeqn v).seq = s.seq := rfl
@[simp] theorem State.putSeqn_prep (s : State) (v : List CoefSet) : (s.putSeqn v).prep = s.prep := rfl
@[simp] theorem State.putSeqn_fault (s : State) (v : List CoefSet) : (s.putSeqn v).fault = s.fault := rfl
@[simp] theorem State.putSeqn_argSr (s : State) (v : List CoefSet) : (s.putSeqn v).argSr = s.argSr := rfl
@[simp] theorem State.putSeqn_sr (s : State) (v : List CoefSet) : (s.putSeqn v).sr = s.sr := rfl
@[simp] theorem State.putSeqn_maxblk (s : State) (v : List CoefSet) : (s.putSeqn v).maxblk = s.maxblk := rfl
@[simp] theorem State.putSeqn_par (s : State) (v : List CoefSet) : (s.putSeqn v).par = s.par := rfl
@[simp] theorem State.putSeqn_stg (s : State) (v : List CoefSet) : (s.putSeqn v).stg = s.stg := rfl
@[simp] theorem State.putSeqn_micro (s : State) (v : List CoefSet) : (s.putSeqn v).micro = s.micro := rfl
@[simp] theorem State.putSeqn_buf (s : State) (v : List CoefSet) : (s.putSeqn v).buf = s.buf := rfl
@[simp] theorem State.putSeqn_hostData (s : State) (v : List CoefSet) : (s.putSeqn v).hostData = s.hostData := rfl
@[simp] theorem State.putSeqn_listing (s : State) (v : List CoefSet) : (s.putSeqn v).listing = s.listing := rfl

@[simp] theorem State.putY_rf (s : State) (v : F) : (s.putY v).rf = s.rf := rfl
@[simp] theorem State.putY_seq (s : State) (v : F) : (s.putY v).seq = s.seq := rfl
@[simp] theorem State.putY_prep (s : State) (v : F) : (s.putY v).prep = s.prep := rfl
@[simp] theorem State.putY_fault (s : State) (v : F) : (s.putY v).fault = s.fault := rfl
@[simp] theorem State.putY_argSr (s : State) (v : F) : (s.putY v).argSr = s.argSr := rfl
@[simp] theorem State.putY_sr (s : State) (v : F) : (s.putY v).sr = s.sr := rfl
@[simp] theorem State.putY_maxblk (s : State) (v : F) : (s.putY v).maxblk = s.maxblk := rfl
@[simp] theorem State.putY_par (s : State) (v : F) : (s.putY v).par = s.par := rfl
@[simp] theorem State.putY_stg (s : State) (v : F) : (s.putY v).stg = s.stg := rfl
@[simp] theorem State.putY_micro (s : State) (v : F) : (s.putY v).micro = s.micro := rfl
@[simp] theorem State.putY_buf (s : State) (v : F) : (s.putY v).buf = s.buf := rfl
@[simp] theorem State.putY_hostData (s : State) (v : F) : (s.putY v).hostData = s.hostData := rfl
@[simp] theorem State.putY_listing (s : State) (v : F) : (s.putY v).listing = s.listing := rfl

end Sys2Proof.Machine
end

