-- ==== Sys2Proof/Laws/Memory.lean ====
section
/-! SUPPORT. The buffer: every store keeps the canonical form, a load after a store to the same place
gives the stored value, and a store leaves every other place alone. -/

namespace Sys2Proof.Machine

theorem Memory.wfFrom_mono {lo lo' : Nat} {m : Memory} (h : lo' ≤ lo) (hm : Memory.wfFrom lo m) :
    Memory.wfFrom lo' m := by
  cases m with
  | nil => rfl
  | cons e rest =>
    obtain ⟨k, v⟩ := e
    simp only [Memory.wfFrom, Bool.and_eq_true, decide_eq_true_eq] at hm ⊢
    exact ⟨⟨by omega, hm.1.2⟩, hm.2⟩

theorem Memory.wfFrom_head {lo k : Nat} {v : Byte} {rest : Memory}
    (hm : Memory.wfFrom lo ((k, v) :: rest)) : Memory.wfFrom k ((k, v) :: rest) := by
  simp only [Memory.wfFrom, Bool.and_eq_true, decide_eq_true_eq] at hm ⊢
  exact ⟨⟨Nat.le_refl k, hm.1.2⟩, hm.2⟩

theorem storeByte_wfFrom {lo : Nat} {m : Memory} (a : Nat) (v : Byte) (hlo : lo ≤ a)
    (hm : Memory.wfFrom lo m) : Memory.wfFrom lo (storeByte m a v) := by
  induction m generalizing lo with
  | nil =>
    by_cases hv : v = unlistedByte
    · simp [storeByte, hv, Memory.wfFrom]
    · simp [storeByte, hv, Memory.wfFrom, hlo]
  | cons e rest ih =>
    obtain ⟨k, w⟩ := e
    have hm0 := hm
    simp only [Memory.wfFrom, Bool.and_eq_true, decide_eq_true_eq] at hm
    obtain ⟨⟨hk, hw⟩, hr⟩ := hm
    by_cases h1 : a < k
    · by_cases hv : v = unlistedByte
      · simp [storeByte, h1, hv, hm0]
      · have hk' : a + 1 ≤ k := h1
        simp [storeByte, h1, hv, Memory.wfFrom, hlo, hk', hr]
        simpa using hw
    · by_cases h2 : a = k
      · subst h2
        by_cases hv : v = unlistedByte
        · simp only [storeByte, h1, hv, if_true, if_false]
          exact Memory.wfFrom_mono (by omega) hr
        · simp [storeByte, hv, Memory.wfFrom, hlo, hr]
      · have := ih (lo := k + 1) (by omega) hr
        simp only [storeByte, h1, h2, if_false, Memory.wfFrom, this, Bool.and_true,
          Bool.and_eq_true, decide_eq_true_eq]
        exact ⟨hk, hw⟩

/-- Storing a byte keeps the canonical form. -/
theorem storeByte_wf {m : Memory} (a : Nat) (v : Byte) (hm : m.wf) : (storeByte m a v).wf :=
  storeByte_wfFrom a v (Nat.zero_le a) hm

theorem loadByte_below {lo a : Nat} {m : Memory} (hm : Memory.wfFrom lo m) (ha : a < lo) :
    loadByte m a = unlistedByte := by
  induction m generalizing lo with
  | nil => rfl
  | cons e rest ih =>
    obtain ⟨k, v⟩ := e
    simp only [Memory.wfFrom, Bool.and_eq_true, decide_eq_true_eq] at hm
    have hne : ¬k = a := by omega
    simp only [loadByte, hne, if_false]
    exact ih hm.2 (by omega)

theorem loadByte_storeByte_from {lo : Nat} {m : Memory} (a a' : Nat) (v : Byte)
    (hm : Memory.wfFrom lo m) :
    loadByte (storeByte m a v) a' = if a' = a then v else loadByte m a' := by
  induction m generalizing lo with
  | nil =>
    by_cases hv : v = unlistedByte <;> by_cases ha : a = a' <;>
      simp [storeByte, hv, loadByte, ha, eq_comm]
  | cons e rest ih =>
    obtain ⟨k, w⟩ := e
    have hm0 := hm
    simp only [Memory.wfFrom, Bool.and_eq_true, decide_eq_true_eq] at hm
    obtain ⟨⟨hk, _⟩, hr⟩ := hm
    by_cases h1 : a < k
    · by_cases hv : v = unlistedByte
      · simp only [storeByte, h1, hv, if_true]
        by_cases ha : a' = a
        · subst ha
          rw [if_pos rfl]
          exact loadByte_below (Memory.wfFrom_head hm0) h1
        · simp [ha]
      · by_cases ha : a = a'
        · subst ha; simp [storeByte, h1, hv, loadByte]
        · have ha' : ¬a' = a := fun e => ha e.symm
          simp [storeByte, h1, hv, loadByte, ha, ha']
    · by_cases h2 : a = k
      · subst h2
        by_cases hv : v = unlistedByte
        · simp only [storeByte, h1, hv, if_true, if_false, loadByte]
          by_cases ha : a = a'
          · subst ha
            simpa using loadByte_below hr (by omega)
          · have ha' : ¬a' = a := fun e => ha e.symm
            simp [ha, ha']
        · by_cases ha : a = a'
          · subst ha; simp [storeByte, hv, loadByte]
          · have ha' : ¬a' = a := fun e => ha e.symm
            simp [storeByte, hv, loadByte, ha, ha']
      · simp only [storeByte, h1, h2, if_false, loadByte, ih hr]
        by_cases hka : k = a'
        · subst hka
          have : ¬k = a := fun e => h2 e.symm
          simp [this]
        · simp [hka]

/-- A byte load after a byte store. -/
theorem loadByte_storeByte {m : Memory} (hm : m.wf) (a a' : Nat) (v : Byte) :
    loadByte (storeByte m a v) a' = if a' = a then v else loadByte m a' :=
  loadByte_storeByte_from a a' v hm

/-- Storing a cell keeps the canonical form. -/
theorem storeCell_wf {m : Memory} (a : Nat) (v : F) (hm : m.wf) : (storeCell m a v).wf :=
  storeByte_wf _ _ (storeByte_wf _ _ (storeByte_wf _ _ (storeByte_wf _ _ hm)))

/-- A byte load after a cell store: the stored cell's four bytes, low byte first, and every other byte
as it was. -/
theorem loadByte_storeCell {m : Memory} (hm : m.wf) (a a' : Nat) (v : F) :
    loadByte (storeCell m a v) a' =
      if a' = a + 3 then v.extractLsb' 24 8
      else if a' = a + 2 then v.extractLsb' 16 8
      else if a' = a + 1 then v.extractLsb' 8 8
      else if a' = a then v.extractLsb' 0 8
      else loadByte m a' := by
  have h1 := storeByte_wf a (v.extractLsb' 0 8) hm
  have h2 := storeByte_wf (a + 1) (v.extractLsb' 8 8) h1
  have h3 := storeByte_wf (a + 2) (v.extractLsb' 16 8) h2
  rw [storeCell, loadByte_storeByte h3, loadByte_storeByte h2, loadByte_storeByte h1,
    loadByte_storeByte hm]

theorem cell_of_bytes (v : F) :
    v.extractLsb' 24 8 ++ v.extractLsb' 16 8 ++ v.extractLsb' 8 8 ++ v.extractLsb' 0 8 = v := by
  have h2 : v.extractLsb' 24 8 ++ v.extractLsb' 16 8 = v.extractLsb' 16 16 :=
    BitVec.extractLsb'_append_extractLsb'_eq_extractLsb' rfl
  have h1 : v.extractLsb' 16 16 ++ v.extractLsb' 8 8 = v.extractLsb' 8 24 :=
    BitVec.extractLsb'_append_extractLsb'_eq_extractLsb' rfl
  have h0 : v.extractLsb' 8 24 ++ v.extractLsb' 0 8 = v.extractLsb' 0 32 :=
    BitVec.extractLsb'_append_extractLsb'_eq_extractLsb' rfl
  rw [h2, h1, h0]
  exact BitVec.extractLsb'_eq_self

/-- A cell load after a store of the same cell. -/
theorem loadCell_storeCell_same {m : Memory} (hm : m.wf) (a : Nat) (v : F) :
    loadCell (storeCell m a v) a = v := by
  simp [loadCell, loadByte_storeCell hm, cell_of_bytes]

/-- A cell load after a store of a cell that shares no byte with it. -/
theorem loadCell_storeCell_ne {m : Memory} (hm : m.wf) {a a' : Nat} (v : F)
    (h : a' + 4 ≤ a ∨ a + 4 ≤ a') : loadCell (storeCell m a v) a' = loadCell m a' := by
  have hb : ∀ b, (b < a ∨ a + 4 ≤ b) → loadByte (storeCell m a v) b = loadByte m b := by
    intro b hb
    rw [loadByte_storeCell hm]
    have h3 : ¬b = a + 3 := by omega
    have h2 : ¬b = a + 2 := by omega
    have h1 : ¬b = a + 1 := by omega
    have h0 : ¬b = a := by omega
    simp [h3, h2, h1, h0]
  simp only [loadCell]
  rw [hb (a' + 3) (by omega), hb (a' + 2) (by omega), hb (a' + 1) (by omega), hb a' (by omega)]

theorem cellAddr_disjoint {ch ch' : BitVec 8} {i i' : BitVec 16} (h : ¬(ch' = ch ∧ i' = i)) :
    cellAddr ch' i' + 4 ≤ cellAddr ch i ∨ cellAddr ch i + 4 ≤ cellAddr ch' i' := by
  have hi := i.isLt
  have hi' := i'.isLt
  have hne : ¬(ch'.toNat = ch.toNat ∧ i'.toNat = i.toNat) := by
    rintro ⟨h1, h2⟩
    exact h ⟨BitVec.eq_of_toNat_eq h1, BitVec.eq_of_toNat_eq h2⟩
  simp only [cellAddr]
  omega

@[simp] theorem memWrite_rf (s : State) (ch : BitVec 8) (i : BitVec 16) (v : F) :
    (memWrite s ch i v).rf = s.rf := rfl
@[simp] theorem memWrite_seq (s : State) (ch : BitVec 8) (i : BitVec 16) (v : F) :
    (memWrite s ch i v).seq = s.seq := rfl
@[simp] theorem memWrite_buf (s : State) (ch : BitVec 8) (i : BitVec 16) (v : F) :
    (memWrite s ch i v).buf = storeCell s.buf (cellAddr ch i) v := rfl

/-- `MemRead` after `MemWrite`: the written sample, and every other sample as it was. -/
theorem memRead_memWrite {s : State} (hm : s.buf.wf) (ch ch' : BitVec 8) (i i' : BitVec 16) (v : F) :
    memRead (memWrite s ch i v) ch' i' = if ch' = ch ∧ i' = i then v else memRead s ch' i' := by
  by_cases h : ch' = ch ∧ i' = i
  · obtain ⟨rfl, rfl⟩ := h
    simp [memRead, loadCell_storeCell_same hm]
  · simp [memRead, h, loadCell_storeCell_ne hm v (cellAddr_disjoint h)]

theorem reset_buf_wf : State.reset.buf.wf = true := rfl

end Sys2Proof.Machine
end

