-- ==== Sys2Proof/Laws/Ops.lean ====
section
/-! SUPPORT. What the shared operations on the whole state can do, one lemma per field: fault entry, the
end of a command, hardware reset, and the steps of a command; and when a micro-operation's effect
happens. -/

namespace Sys2Proof.Machine

/-! ### Micro-operations -/

theorem coreDoes_halted {s : State} (t : State) (h : s.seq = .halt) : coreDoes s t = .next s := by
  simp [coreDoes, h]

theorem coreDoes_running {s : State} (t : State) (h : s.seq ≠ .halt) : coreDoes s t = .next t := by
  simp [coreDoes, h]

/-- All a micro-operation can do: its effect, or nothing on a halted core. -/
theorem coreDoes_cases {s t u : State} (h : coreDoes s t = .next u) :
    s.seq = .halt ∧ u = s ∨ s.seq ≠ .halt ∧ u = t := by
  unfold coreDoes at h
  split at h <;> simp_all

/-! ### `raise` (R144) -/

@[simp] theorem raise_rf (f : FaultCode) (s : State) :
    (raise f s).rf = s.rf := rfl
@[simp] theorem raise_seq (f : FaultCode) (s : State) :
    (raise f s).seq = .halt := rfl
@[simp] theorem raise_prep (f : FaultCode) (s : State) :
    (raise f s).prep = s.prep := rfl
@[simp] theorem raise_fault (f : FaultCode) (s : State) :
    (raise f s).fault = s.fault ||| faultBit f := rfl
@[simp] theorem raise_argSr (f : FaultCode) (s : State) :
    (raise f s).argSr = s.argSr := rfl
@[simp] theorem raise_sr (f : FaultCode) (s : State) :
    (raise f s).sr = s.sr := rfl
@[simp] theorem raise_maxblk (f : FaultCode) (s : State) :
    (raise f s).maxblk = s.maxblk := rfl
@[simp] theorem raise_par (f : FaultCode) (s : State) :
    (raise f s).par = s.par := rfl
@[simp] theorem raise_stg (f : FaultCode) (s : State) :
    (raise f s).stg = Staging.dead := rfl
@[simp] theorem raise_uop (f : FaultCode) (s : State) :
    (raise f s).uop = s.uop := rfl
@[simp] theorem raise_micro (f : FaultCode) (s : State) :
    (raise f s).micro = none := rfl
@[simp] theorem raise_buf (f : FaultCode) (s : State) :
    (raise f s).buf = s.buf := rfl
@[simp] theorem raise_hostData (f : FaultCode) (s : State) :
    (raise f s).hostData = s.hostData := rfl
@[simp] theorem raise_listing (f : FaultCode) (s : State) :
    (raise f s).listing = s.listing := rfl

/-! ### The end of a command -/

@[simp] theorem finish_rf (s : State) :
    (finish s).rf = s.rf := rfl
@[simp] theorem finish_seq (s : State) :
    (finish s).seq = .idle := rfl
@[simp] theorem finish_prep (s : State) :
    (finish s).prep = s.prep := rfl
@[simp] theorem finish_fault (s : State) :
    (finish s).fault = s.fault := rfl
@[simp] theorem finish_argSr (s : State) :
    (finish s).argSr = s.argSr := rfl
@[simp] theorem finish_sr (s : State) :
    (finish s).sr = s.sr := rfl
@[simp] theorem finish_maxblk (s : State) :
    (finish s).maxblk = s.maxblk := rfl
@[simp] theorem finish_par (s : State) :
    (finish s).par = s.par := rfl
@[simp] theorem finish_stg (s : State) :
    (finish s).stg = Staging.dead := rfl
@[simp] theorem finish_uop (s : State) :
    (finish s).uop = s.uop := rfl
@[simp] theorem finish_micro (s : State) :
    (finish s).micro = s.micro := rfl
@[simp] theorem finish_buf (s : State) :
    (finish s).buf = s.buf := rfl
@[simp] theorem finish_hostData (s : State) :
    (finish s).hostData = s.hostData := rfl
@[simp] theorem finish_listing (s : State) :
    (finish s).listing = s.listing := rfl

/-! ### Hardware reset (R156) -/

@[simp] theorem hwReset_rf (s : State) :
    (hwReset s).rf = State.reset.rf := rfl
@[simp] theorem hwReset_seq (s : State) :
    (hwReset s).seq = State.reset.seq := rfl
@[simp] theorem hwReset_prep (s : State) :
    (hwReset s).prep = State.reset.prep := rfl
@[simp] theorem hwReset_fault (s : State) :
    (hwReset s).fault = State.reset.fault := rfl
@[simp] theorem hwReset_argSr (s : State) :
    (hwReset s).argSr = State.reset.argSr := rfl
@[simp] theorem hwReset_sr (s : State) :
    (hwReset s).sr = State.reset.sr := rfl
@[simp] theorem hwReset_maxblk (s : State) :
    (hwReset s).maxblk = State.reset.maxblk := rfl
@[simp] theorem hwReset_par (s : State) :
    (hwReset s).par = State.reset.par := rfl
@[simp] theorem hwReset_stg (s : State) :
    (hwReset s).stg = State.reset.stg := rfl
@[simp] theorem hwReset_uop (s : State) :
    (hwReset s).uop = State.reset.uop := rfl
@[simp] theorem hwReset_micro (s : State) :
    (hwReset s).micro = State.reset.micro := rfl
@[simp] theorem hwReset_buf (s : State) :
    (hwReset s).buf = s.buf := rfl
@[simp] theorem hwReset_hostData (s : State) :
    (hwReset s).hostData = s.hostData := rfl
@[simp] theorem hwReset_listing (s : State) :
    (hwReset s).listing = s.listing := rfl

/-! ### Acceptance of a command (R31) -/

@[simp] theorem acceptCommand_rf (cmd : Cmd) (s : State) :
    (acceptCommand cmd s).rf = s.rf := rfl
@[simp] theorem acceptCommand_seq (cmd : Cmd) (s : State) :
    (acceptCommand cmd s).seq = .run cmd .check := rfl
@[simp] theorem acceptCommand_prep (cmd : Cmd) (s : State) :
    (acceptCommand cmd s).prep = s.prep := rfl
@[simp] theorem acceptCommand_fault (cmd : Cmd) (s : State) :
    (acceptCommand cmd s).fault = s.fault := rfl
@[simp] theorem acceptCommand_argSr (cmd : Cmd) (s : State) :
    (acceptCommand cmd s).argSr = s.argSr := rfl
@[simp] theorem acceptCommand_sr (cmd : Cmd) (s : State) :
    (acceptCommand cmd s).sr = s.sr := rfl
@[simp] theorem acceptCommand_maxblk (cmd : Cmd) (s : State) :
    (acceptCommand cmd s).maxblk = s.maxblk := rfl
@[simp] theorem acceptCommand_par (cmd : Cmd) (s : State) :
    (acceptCommand cmd s).par = s.par := rfl
@[simp] theorem acceptCommand_stg (cmd : Cmd) (s : State) :
    (acceptCommand cmd s).stg = s.stg := rfl
@[simp] theorem acceptCommand_uop (cmd : Cmd) (s : State) :
    (acceptCommand cmd s).uop = s.uop := rfl
@[simp] theorem acceptCommand_micro (cmd : Cmd) (s : State) :
    (acceptCommand cmd s).micro = s.micro := rfl
@[simp] theorem acceptCommand_buf (cmd : Cmd) (s : State) :
    (acceptCommand cmd s).buf = s.buf := rfl
@[simp] theorem acceptCommand_hostData (cmd : Cmd) (s : State) :
    (acceptCommand cmd s).hostData = s.hostData := rfl
@[simp] theorem acceptCommand_listing (cmd : Cmd) (s : State) :
    (acceptCommand cmd s).listing = s.listing := rfl

/-! ### `SNAP(j)` (R116) -/

@[simp] theorem snapStep_rf (j : ParamId) (s : State) :
    (snapStep j s).rf = s.rf := rfl
@[simp] theorem snapStep_seq (j : ParamId) (s : State) :
    (snapStep j s).seq = s.seq := rfl
@[simp] theorem snapStep_prep (j : ParamId) (s : State) :
    (snapStep j s).prep = s.prep := rfl
@[simp] theorem snapStep_fault (j : ParamId) (s : State) :
    (snapStep j s).fault = s.fault := rfl
@[simp] theorem snapStep_argSr (j : ParamId) (s : State) :
    (snapStep j s).argSr = s.argSr := rfl
@[simp] theorem snapStep_sr (j : ParamId) (s : State) :
    (snapStep j s).sr = s.sr := rfl
@[simp] theorem snapStep_maxblk (j : ParamId) (s : State) :
    (snapStep j s).maxblk = s.maxblk := rfl
@[simp] theorem snapStep_par (j : ParamId) (s : State) :
    (snapStep j s).par = s.par := rfl
@[simp] theorem snapStep_stg (j : ParamId) (s : State) :
    (snapStep j s).stg = { s.stg with snap := s.stg.snap.put j (s.par.get j) } := rfl
@[simp] theorem snapStep_uop (j : ParamId) (s : State) :
    (snapStep j s).uop = s.uop := rfl
@[simp] theorem snapStep_micro (j : ParamId) (s : State) :
    (snapStep j s).micro = s.micro := rfl
@[simp] theorem snapStep_buf (j : ParamId) (s : State) :
    (snapStep j s).buf = s.buf := rfl
@[simp] theorem snapStep_hostData (j : ParamId) (s : State) :
    (snapStep j s).hostData = s.hostData := rfl
@[simp] theorem snapStep_listing (j : ParamId) (s : State) :
    (snapStep j s).listing = s.listing := rfl

/-! ### `UPD_APPLY` (R119) -/

@[simp] theorem applyUpdate_rf (sr : F) (s : State) :
    (applyUpdate sr s).rf = loadDesign (designOf numFns s.stg.snap sr) s.rf := rfl
@[simp] theorem applyUpdate_seq (sr : F) (s : State) :
    (applyUpdate sr s).seq = s.seq := rfl
@[simp] theorem applyUpdate_prep (sr : F) (s : State) :
    (applyUpdate sr s).prep = s.prep := rfl
@[simp] theorem applyUpdate_fault (sr : F) (s : State) :
    (applyUpdate sr s).fault = s.fault := rfl
@[simp] theorem applyUpdate_argSr (sr : F) (s : State) :
    (applyUpdate sr s).argSr = s.argSr := rfl
@[simp] theorem applyUpdate_sr (sr : F) (s : State) :
    (applyUpdate sr s).sr = s.sr := rfl
@[simp] theorem applyUpdate_maxblk (sr : F) (s : State) :
    (applyUpdate sr s).maxblk = s.maxblk := rfl
@[simp] theorem applyUpdate_par (sr : F) (s : State) :
    (applyUpdate sr s).par = s.par := rfl
@[simp] theorem applyUpdate_stg (sr : F) (s : State) :
    (applyUpdate sr s).stg = stageDesign (designOf numFns s.stg.snap sr) s.stg := rfl
@[simp] theorem applyUpdate_uop (sr : F) (s : State) :
    (applyUpdate sr s).uop = s.uop := rfl
@[simp] theorem applyUpdate_micro (sr : F) (s : State) :
    (applyUpdate sr s).micro = s.micro := rfl
@[simp] theorem applyUpdate_buf (sr : F) (s : State) :
    (applyUpdate sr s).buf = s.buf := rfl
@[simp] theorem applyUpdate_hostData (sr : F) (s : State) :
    (applyUpdate sr s).hostData = s.hostData := rfl
@[simp] theorem applyUpdate_listing (sr : F) (s : State) :
    (applyUpdate sr s).listing = s.listing := rfl

/-! ### `PREPARE` at `COMMIT` (R126) -/

@[simp] theorem prepareCommit_rf (m : BitVec 16) (s : State) :
    (prepareCommit m s).rf = loadDesign (designOf numFns s.stg.snap s.stg.rate) (resetDelays s.rf) := rfl
@[simp] theorem prepareCommit_seq (m : BitVec 16) (s : State) :
    (prepareCommit m s).seq = .idle := rfl
@[simp] theorem prepareCommit_prep (m : BitVec 16) (s : State) :
    (prepareCommit m s).prep = true := rfl
@[simp] theorem prepareCommit_fault (m : BitVec 16) (s : State) :
    (prepareCommit m s).fault = s.fault := rfl
@[simp] theorem prepareCommit_argSr (m : BitVec 16) (s : State) :
    (prepareCommit m s).argSr = s.argSr := rfl
@[simp] theorem prepareCommit_sr (m : BitVec 16) (s : State) :
    (prepareCommit m s).sr = s.stg.rate := rfl
@[simp] theorem prepareCommit_maxblk (m : BitVec 16) (s : State) :
    (prepareCommit m s).maxblk = m := rfl
@[simp] theorem prepareCommit_par (m : BitVec 16) (s : State) :
    (prepareCommit m s).par = s.par := rfl
@[simp] theorem prepareCommit_stg (m : BitVec 16) (s : State) :
    (prepareCommit m s).stg = Staging.dead := rfl
@[simp] theorem prepareCommit_uop (m : BitVec 16) (s : State) :
    (prepareCommit m s).uop = s.uop := rfl
@[simp] theorem prepareCommit_micro (m : BitVec 16) (s : State) :
    (prepareCommit m s).micro = s.micro := rfl
@[simp] theorem prepareCommit_buf (m : BitVec 16) (s : State) :
    (prepareCommit m s).buf = s.buf := rfl
@[simp] theorem prepareCommit_hostData (m : BitVec 16) (s : State) :
    (prepareCommit m s).hostData = s.hostData := rfl
@[simp] theorem prepareCommit_listing (m : BitVec 16) (s : State) :
    (prepareCommit m s).listing = s.listing := rfl

/-! ### One sample of `CHAIN_PROC` (R110) -/

@[simp] theorem procSample_rf (c : Chain) (n : BitVec 16) (s : State) :
    (procSample c n s).rf = (chainStep s.rf c (memRead s (channelOf c) n)).2 := rfl
@[simp] theorem procSample_seq (c : Chain) (n : BitVec 16) (s : State) :
    (procSample c n s).seq = s.seq := rfl
@[simp] theorem procSample_prep (c : Chain) (n : BitVec 16) (s : State) :
    (procSample c n s).prep = s.prep := rfl
@[simp] theorem procSample_fault (c : Chain) (n : BitVec 16) (s : State) :
    (procSample c n s).fault = s.fault := rfl
@[simp] theorem procSample_argSr (c : Chain) (n : BitVec 16) (s : State) :
    (procSample c n s).argSr = s.argSr := rfl
@[simp] theorem procSample_sr (c : Chain) (n : BitVec 16) (s : State) :
    (procSample c n s).sr = s.sr := rfl
@[simp] theorem procSample_maxblk (c : Chain) (n : BitVec 16) (s : State) :
    (procSample c n s).maxblk = s.maxblk := rfl
@[simp] theorem procSample_par (c : Chain) (n : BitVec 16) (s : State) :
    (procSample c n s).par = s.par := rfl
@[simp] theorem procSample_stg (c : Chain) (n : BitVec 16) (s : State) :
    (procSample c n s).stg = s.stg := rfl
@[simp] theorem procSample_uop (c : Chain) (n : BitVec 16) (s : State) :
    (procSample c n s).uop = s.uop := rfl
@[simp] theorem procSample_micro (c : Chain) (n : BitVec 16) (s : State) :
    (procSample c n s).micro = s.micro := rfl
@[simp] theorem procSample_buf (c : Chain) (n : BitVec 16) (s : State) :
    (procSample c n s).buf = storeCell s.buf (cellAddr (channelOf c) n)
      (chainStep s.rf c (memRead s (channelOf c) n)).1 := rfl
@[simp] theorem procSample_hostData (c : Chain) (n : BitVec 16) (s : State) :
    (procSample c n s).hostData = s.hostData := rfl
@[simp] theorem procSample_listing (c : Chain) (n : BitVec 16) (s : State) :
    (procSample c n s).listing = s.listing := rfl

/-- The buffer after one sample: its cell holds what `CHAIN_STEP` gives, every other cell is as before. -/
theorem memRead_procSample (c : Chain) (n : BitVec 16) {s : State} (hm : s.buf.wf = true)
    (ch : BitVec 8) (i : BitVec 16) :
    memRead (procSample c n s) ch i =
      if ch = channelOf c ∧ i = n then (chainStep s.rf c (memRead s (channelOf c) n)).1
      else memRead s ch i :=
  memRead_memWrite (s := s.setRf (chainStep s.rf c (memRead s (channelOf c) n)).2) hm _ _ _ _ _

/-- All the `PCHECK` step can do: pass, or enter the fault its tests give. -/
theorem pcheckStep_cases (sr : F) (s pass : State) :
    checkParams s.stg.snap sr = none ∧ pcheckStep sr s pass = pass ∨
      ∃ f, checkParams s.stg.snap sr = some f ∧ pcheckStep sr s pass = raise f s := by
  unfold pcheckStep
  split
  · exact .inr ⟨_, ‹_›, rfl⟩
  · exact .inl ⟨‹_›, rfl⟩

/-- All a word written to `CMD` of an idle core can do: start a command, or raise `ILLCMD`. -/
theorem writeCommand_cases (w : BitVec 32) (s : State) :
    (∃ cmd, decodeCommand w = some cmd ∧ writeCommand w s = acceptCommand cmd s) ∨
      decodeCommand w = none ∧ writeCommand w s = raise .illcmd s := by
  unfold writeCommand
  split
  · exact .inl ⟨_, ‹_›, rfl⟩
  · exact .inr ⟨‹_›, rfl⟩

/-- All `PREPARE`'s `CHECK` can do. -/
theorem prepareCheck_cases (m : BitVec 16) (s : State) :
    legalRate s.argSr = true ∧
        prepareCheck m s = { s with
          seq := .run (.prepare m) (.snap .lowCutFreq), stg := { s.stg with rate := s.argSr } } ∨
      legalRate s.argSr = false ∧ prepareCheck m s = raise .sr s := by
  unfold prepareCheck
  split
  · exact .inl ⟨‹_›, rfl⟩
  · exact .inr ⟨by simp_all, rfl⟩

/-- All `PROCESS`'s `CHECK` can do. -/
theorem processCheck_cases (nch : BitVec 8) (len : BitVec 16) (s : State) :
    (∃ f, (f = .notprep ∨ f = .nch ∨ f = .len) ∧ processCheck nch len s = raise f s) ∨
      s.prep = true ∧ 2 ≤ nch ∧ len ≤ s.maxblk ∧
        processCheck nch len s = s.setSeq (.run (.process nch len) (.snap .lowCutFreq)) := by
  unfold processCheck
  split
  · exact .inl ⟨_, .inl rfl, rfl⟩
  · split
    · exact .inl ⟨_, .inr (.inl rfl), rfl⟩
    · split
      · exact .inl ⟨_, .inr (.inr rfl), rfl⟩
      · exact .inr ⟨by simp_all, BitVec.not_lt.mp ‹_›, BitVec.not_lt.mp ‹_›, rfl⟩

/-- What follows a sample changes `seq`, and at the end of the command the staging registers. -/
theorem afterSample_cases (nch : BitVec 8) (len : BitVec 16) (c : Chain) (n : BitVec 16)
    (s : State) :
    (n.toNat + 1 < len.toNat ∧
        afterSample nch len c n s = s.setSeq (.run (.process nch len) (.proc c (n + 1)))) ∨
      (¬n.toNat + 1 < len.toNat ∧ c = .left ∧
        afterSample nch len c n s = s.setSeq (.run (.process nch len) (.proc .right 0))) ∨
      ¬n.toNat + 1 < len.toNat ∧ c = .right ∧ afterSample nch len c n s = finish s := by
  unfold afterSample
  split
  · exact .inl ⟨‹_›, rfl⟩
  · cases c
    · exact .inr (.inl ⟨‹_›, rfl, rfl⟩)
    · exact .inr (.inr ⟨‹_›, rfl, rfl⟩)

end Sys2Proof.Machine
end

