-- ==== Sys2Proof/Laws/PerInstr.lean ====
section
/-! SUPPORT. The per-instruction family: every instruction's encoding matches its row of the opcode table
under the row's mask. -/

namespace Sys2Proof.Laws.TableMatch

/-- The encoding of `i` equals the row's match under the row's mask (R61 to R65). -/
def Statement (i : Instr) : Prop := (encode i).bits &&& (tableRow i).mask = (tableRow i).fixed

theorem and_mask_of_bitVec {n : Nat} {w m f : BitVec n} (h : w &&& m = f) :
    w.toNat &&& m.toNat = f.toNat := by
  rw [← BitVec.toNat_and, h]

theorem prepare (m : BitVec 16) : Statement (.prepare m) :=
  and_mask_of_bitVec (w := 0x01#8 ++ 0x00#8 ++ m) (m := 0xFFFF0000#32) (f := 0x01000000#32) (by
    rw [(by decide : 0xFFFF0000#32 = 0xFF#8 ++ 0xFF#8 ++ 0#16), BitVec.and_append, BitVec.and_append,
      BitVec.and_zero]
    decide)

theorem process (nch : BitVec 8) (len : BitVec 16) : Statement (.process nch len) :=
  and_mask_of_bitVec (w := 0x02#8 ++ nch ++ len) (m := 0xFF000000#32) (f := 0x02000000#32) (by
    rw [(by decide : 0xFF000000#32 = 0xFF#8 ++ 0#8 ++ 0#16), BitVec.and_append, BitVec.and_append,
      BitVec.and_zero, BitVec.and_zero]
    decide)

theorem slope2count : Statement .slope2count := rfl

theorem slope2order : Statement .slope2order := rfl

theorem calcPeak : Statement .calcPeak := rfl

theorem calcCut : Statement .calcCut := rfl

theorem bqLoad : Statement .bqLoad := rfl

theorem bqReset : Statement .bqReset := rfl

theorem bqStep : Statement .bqStep := rfl

theorem cfgCut : Statement .cfgCut := rfl

theorem cascStep : Statement .cascStep := rfl

theorem cfgPeak : Statement .cfgPeak := rfl

theorem chainStep : Statement .chainStep := rfl

theorem chainProc : Statement .chainProc := rfl

theorem snapshot : Statement .snapshot := rfl

theorem pcheck : Statement .pcheck := rfl

theorem update : Statement .update := rfl

theorem updApply : Statement .updApply := rfl

theorem wrreg (addr : BitVec 3) (data : BitVec 32) : Statement (.wrreg addr data) :=
  and_mask_of_bitVec (w := 1#1 ++ addr ++ data) (m := 0x800000000#36) (f := 0x800000000#36) (by
    rw [(by decide : 0x800000000#36 = 1#1 ++ 0#3 ++ 0#32), BitVec.and_append, BitVec.and_append,
      BitVec.and_zero, BitVec.and_zero]
    decide)

theorem rdreg (addr : BitVec 3) : Statement (.rdreg addr) :=
  and_mask_of_bitVec (w := 0#1 ++ addr ++ 0#32) (m := 0x800000000#36) (f := 0#36) (by
    rw [(by decide : 0x800000000#36 = 1#1 ++ 0#3 ++ 0#32), BitVec.and_append, BitVec.and_append,
      BitVec.and_zero]
    decide)

theorem pwrite (idx : BitVec 3) (val : F) : Statement (.pwrite idx val) :=
  Nat.and_zero _

end Sys2Proof.Laws.TableMatch
end

