-- ==== Sys2Proof/Laws/RegFile.lean ====
section
/-! SUPPORT. The register file, the flags and the parameter cells: what a read gives after a write,
and that a write leaves every other cell alone. -/

namespace Sys2Proof.Machine

/-! ### Slots -/

@[simp] theorem Slot.get_put_same (sl : Slot) (j : Reg) (v : F) : (sl.put j v).get j = some v := by
  cases j <;> rfl

theorem Slot.get_put_ne (sl : Slot) {j j' : Reg} (v : F) (h : j' ≠ j) :
    (sl.put j v).get j' = sl.get j' := by
  cases j <;> cases j' <;> first | rfl | exact absurd rfl h

/-! ### Chains -/

@[simp] theorem ChainRegs.slot_setSlot_same (r : ChainRegs) (k : SlotId) (v : Slot) :
    (r.setSlot k v).slot k = v := by
  cases k <;> rfl

theorem ChainRegs.slot_setSlot_ne (r : ChainRegs) {k k' : SlotId} (v : Slot) (h : k' ≠ k) :
    (r.setSlot k v).slot k' = r.slot k' := by
  cases k <;> cases k' <;> first | rfl | exact absurd rfl h

@[simp] theorem ChainRegs.flag_setSlot (r : ChainRegs) (k k' : SlotId) (v : Slot) :
    (r.setSlot k v).flag k' = r.flag k' := by
  cases k <;> cases k' <;> rfl

@[simp] theorem ChainRegs.slot_setFlag (r : ChainRegs) (k k' : SlotId) (v : Bool) :
    (r.setFlag k v).slot k' = r.slot k' := by
  cases k <;> cases k' <;> rfl

theorem ChainRegs.flag_setFlag_same (r : ChainRegs) {k : SlotId} (v : Bool) (h : k ≠ .pk) :
    (r.setFlag k v).flag k = some v := by
  cases k <;> first | rfl | exact absurd rfl h

theorem ChainRegs.flag_setFlag_ne (r : ChainRegs) {k k' : SlotId} (v : Bool) (h : k' ≠ k) :
    (r.setFlag k v).flag k' = r.flag k' := by
  cases k <;> cases k' <;> first | rfl | exact absurd rfl h

/-! ### The register file -/

@[simp] theorem RegFile.chain_setChain_same (rf : RegFile) (c : Chain) (v : ChainRegs) :
    (rf.setChain c v).chain c = v := by
  cases c <;> rfl

theorem RegFile.chain_setChain_ne (rf : RegFile) {c c' : Chain} (v : ChainRegs) (h : c' ≠ c) :
    (rf.setChain c v).chain c' = rf.chain c' := by
  cases c <;> cases c' <;> first | rfl | exact absurd rfl h

theorem RegFile.ext_chain {rf rf' : RegFile} (h : ∀ c, rf.chain c = rf'.chain c) : rf = rf' := by
  cases rf; cases rf'
  have hl := h .left
  have hr := h .right
  simp_all [RegFile.chain]

@[simp] theorem RegFile.chain_setSlot_same (rf : RegFile) (c : Chain) (k : SlotId) (v : Slot) :
    (rf.setSlot c k v).chain c = (rf.chain c).setSlot k v := by
  simp [RegFile.setSlot]

theorem RegFile.chain_setSlot_ne (rf : RegFile) {c c' : Chain} (k : SlotId) (v : Slot)
    (h : c' ≠ c) : (rf.setSlot c k v).chain c' = rf.chain c' := by
  simp [RegFile.setSlot, RegFile.chain_setChain_ne _ _ h]

@[simp] theorem RegFile.chain_setFlag_same (rf : RegFile) (c : Chain) (k : SlotId) (v : Bool) :
    (rf.setFlag c k v).chain c = (rf.chain c).setFlag k v := by
  simp [RegFile.setFlag]

theorem RegFile.chain_setFlag_ne (rf : RegFile) {c c' : Chain} (k : SlotId) (v : Bool)
    (h : c' ≠ c) : (rf.setFlag c k v).chain c' = rf.chain c' := by
  simp [RegFile.setFlag, RegFile.chain_setChain_ne _ _ h]

@[simp] theorem RegFile.slot_setSlot_same (rf : RegFile) (c : Chain) (k : SlotId) (v : Slot) :
    (rf.setSlot c k v).slot c k = v := by
  simp [RegFile.slot]

theorem RegFile.slot_setSlot_ne (rf : RegFile) {c c' : Chain} {k k' : SlotId} (v : Slot)
    (h : ¬(c' = c ∧ k' = k)) : (rf.setSlot c k v).slot c' k' = rf.slot c' k' := by
  by_cases hc : c' = c
  · subst hc
    have hk : k' ≠ k := fun e => h ⟨rfl, e⟩
    simp [RegFile.slot, ChainRegs.slot_setSlot_ne _ _ hk]
  · simp [RegFile.slot, RegFile.chain_setSlot_ne _ _ _ hc]

@[simp] theorem RegFile.flag_setSlot (rf : RegFile) (c c' : Chain) (k k' : SlotId) (v : Slot) :
    (rf.setSlot c k v).flag c' k' = rf.flag c' k' := by
  by_cases hc : c' = c
  · subst hc; simp [RegFile.flag]
  · simp [RegFile.flag, RegFile.chain_setSlot_ne _ _ _ hc]

@[simp] theorem RegFile.slot_setFlag (rf : RegFile) (c c' : Chain) (k k' : SlotId) (v : Bool) :
    (rf.setFlag c k v).slot c' k' = rf.slot c' k' := by
  by_cases hc : c' = c
  · subst hc; simp [RegFile.slot]
  · simp [RegFile.slot, RegFile.chain_setFlag_ne _ _ _ hc]

@[simp] theorem RegFile.read_setFlag (rf : RegFile) (c c' : Chain) (k k' : SlotId) (j : Reg)
    (v : Bool) : (rf.setFlag c k v).read c' k' j = rf.read c' k' j := by
  simp [RegFile.read]

@[simp] theorem RegFile.flag_pk (rf : RegFile) (c : Chain) : rf.flag c .pk = some true := by
  cases c <;> rfl

theorem RegFile.flag_setFlag_same (rf : RegFile) (c : Chain) {k : SlotId} (v : Bool)
    (h : k ≠ .pk) : (rf.setFlag c k v).flag c k = some v := by
  simp [RegFile.flag, ChainRegs.flag_setFlag_same _ _ h]

theorem RegFile.flag_setFlag_ne (rf : RegFile) {c c' : Chain} {k k' : SlotId} (v : Bool)
    (h : ¬(c' = c ∧ k' = k)) : (rf.setFlag c k v).flag c' k' = rf.flag c' k' := by
  by_cases hc : c' = c
  · subst hc
    have hk : k' ≠ k := fun e => h ⟨rfl, e⟩
    simp [RegFile.flag, ChainRegs.flag_setFlag_ne _ _ hk]
  · simp [RegFile.flag, RegFile.chain_setFlag_ne _ _ _ hc]

@[simp] theorem RegFile.read_write_same (rf : RegFile) (c : Chain) (k : SlotId) (j : Reg) (v : F) :
    (rf.write c k j v).read c k j = some v := by
  simp [RegFile.read, RegFile.write]

/-- Writing one register leaves every other register of the file alone. -/
theorem RegFile.read_write_ne (rf : RegFile) {c c' : Chain} {k k' : SlotId} {j j' : Reg} (v : F)
    (h : ¬(c' = c ∧ k' = k ∧ j' = j)) : (rf.write c k j v).read c' k' j' = rf.read c' k' j' := by
  by_cases hs : c' = c ∧ k' = k
  · obtain ⟨rfl, rfl⟩ := hs
    have hj : j' ≠ j := fun e => h ⟨rfl, rfl, e⟩
    simp [RegFile.read, RegFile.write, Slot.get_put_ne _ _ hj]
  · simp [RegFile.read, RegFile.write, RegFile.slot_setSlot_ne _ _ hs]

@[simp] theorem RegFile.flag_write (rf : RegFile) (c c' : Chain) (k k' : SlotId) (j : Reg) (v : F) :
    (rf.write c k j v).flag c' k' = rf.flag c' k' := by
  simp [RegFile.write]

theorem RegFile.value_eq_of_read {rf : RegFile} {c : Chain} {k : SlotId} {j : Reg} {v : F}
    (h : rf.read c k j = some v) : rf.value c k j = v := by
  simp [RegFile.value, h]

theorem RegFile.active_eq_of_flag {rf : RegFile} {c : Chain} {k : SlotId} {b : Bool}
    (h : rf.flag c k = some b) : rf.active c k = b := by
  simp [RegFile.active, h]

/-! ### Parameter cells -/

@[simp] theorem Params.get_put_same (p : Params) (j : ParamId) (v : Option F) :
    (p.put j v).get j = v := by
  cases j <;> rfl

theorem Params.get_put_ne (p : Params) {j j' : ParamId} (v : Option F) (h : j' ≠ j) :
    (p.put j v).get j' = p.get j' := by
  cases j <;> cases j' <;> first | rfl | exact absurd rfl h

theorem Params.value_eq_of_get {p : Params} {j : ParamId} {v : F} (h : p.get j = some v) :
    p.value j = v := by
  simp [Params.value, h]

/-! ### Slot numbers of a side -/

theorem slotOf_ne_pk (side : Side) (i : Fin 4) : slotOf side i ≠ .pk := by
  cases side <;> revert i <;> decide

theorem slotOf_injective {side side' : Side} {i i' : Fin 4} (h : slotOf side i = slotOf side' i') :
    side = side' ∧ i = i' := by
  cases side <;> cases side' <;> revert i i' <;> decide

end Sys2Proof.Machine
end

