-- ==== Sys2Proof/Laws/Section.lean ====
section
/-! SUPPORT. What the operations on the register file can do: `BQ_LOAD`, `BQ_RESET`, `BQ_STEP`,
`CFG_CUT`, `CASC_STEP`, `CHAIN_STEP` and the loading of an update. -/

namespace Sys2Proof.Machine

/-! ### Relations between register files -/

theorem SameConfiguration.refl (rf : RegFile) : SameConfiguration rf rf :=
  ⟨fun _ _ _ _ => rfl, fun _ _ => rfl⟩

theorem SameConfiguration.trans {a b c : RegFile} (h : SameConfiguration a b)
    (h' : SameConfiguration b c) : SameConfiguration a c :=
  ⟨fun x k j hj => (h'.1 x k j hj).trans (h.1 x k j hj), fun x k => (h'.2 x k).trans (h.2 x k)⟩

theorem SameDelayLines.refl (rf : RegFile) : SameDelayLines rf rf := fun _ _ _ _ => rfl

theorem SameDelayLines.trans {a b c : RegFile} (h : SameDelayLines a b) (h' : SameDelayLines b c) :
    SameDelayLines a c :=
  fun x k j hj => (h' x k j hj).trans (h x k j hj)

theorem SameSlot.refl (c : Chain) (k : SlotId) (rf : RegFile) : SameSlot c k rf rf :=
  ⟨fun _ => rfl, rfl⟩

theorem SameSlot.trans {c : Chain} {k : SlotId} {x y z : RegFile} (h : SameSlot c k x y)
    (h' : SameSlot c k y z) : SameSlot c k x z :=
  ⟨fun j => (h'.1 j).trans (h.1 j), h'.2.trans h.2⟩

/-! ### `BQ_LOAD` (R92) -/

theorem bqLoad_read_same (rf : RegFile) (c : Chain) (k : SlotId) (set : CoefSet) (j : Reg) :
    (bqLoad rf c k set).read c k j =
      if isDelay j = true then rf.read c k j else coefOf set j := by
  cases j <;> simp [bqLoad, RegFile.read, Slot.get, coefOf, isDelay]

theorem bqLoad_read_ne (rf : RegFile) {c c' : Chain} {k k' : SlotId} (set : CoefSet) (j : Reg)
    (h : ¬(c' = c ∧ k' = k)) : (bqLoad rf c k set).read c' k' j = rf.read c' k' j := by
  simp [bqLoad, RegFile.read, RegFile.slot_setSlot_ne _ _ h]

@[simp] theorem bqLoad_flag (rf : RegFile) (c c' : Chain) (k k' : SlotId) (set : CoefSet) :
    (bqLoad rf c k set).flag c' k' = rf.flag c' k' := by
  simp [bqLoad]

theorem bqLoad_delays (rf : RegFile) (c : Chain) (k : SlotId) (set : CoefSet) :
    SameDelayLines rf (bqLoad rf c k set) := by
  intro c' k' j hj
  by_cases h : c' = c ∧ k' = k
  · obtain ⟨rfl, rfl⟩ := h
    simp [bqLoad_read_same, hj]
  · exact bqLoad_read_ne rf set j h

/-! ### `BQ_RESET` (R93) -/

theorem bqReset_read_same (rf : RegFile) (c : Chain) (k : SlotId) (j : Reg) :
    (bqReset rf c k).read c k j = if isDelay j = true then some 0 else rf.read c k j := by
  cases j <;> simp [bqReset, RegFile.read, Slot.get, isDelay]

theorem bqReset_read_ne (rf : RegFile) {c c' : Chain} {k k' : SlotId} (j : Reg)
    (h : ¬(c' = c ∧ k' = k)) : (bqReset rf c k).read c' k' j = rf.read c' k' j := by
  simp [bqReset, RegFile.read, RegFile.slot_setSlot_ne _ _ h]

@[simp] theorem bqReset_flag (rf : RegFile) (c c' : Chain) (k k' : SlotId) :
    (bqReset rf c k).flag c' k' = rf.flag c' k' := by
  simp [bqReset]

theorem bqReset_config (rf : RegFile) (c : Chain) (k : SlotId) :
    SameConfiguration rf (bqReset rf c k) := by
  refine ⟨fun c' k' j hj => ?_, fun c' k' => bqReset_flag rf c c' k k'⟩
  by_cases h : c' = c ∧ k' = k
  · obtain ⟨rfl, rfl⟩ := h
    simp [bqReset_read_same, hj]
  · exact bqReset_read_ne rf j h

/-! ### `BQ_STEP` (R94) -/

theorem bqStep_w1 (rf : RegFile) (c : Chain) (k : SlotId) (x : F) :
    (bqStep rf c k x).2.read c k .w1 = some (bqInner rf c k x) := by
  simp [bqStep]

theorem bqStep_w2 (rf : RegFile) (c : Chain) (k : SlotId) (x : F) :
    (bqStep rf c k x).2.read c k .w2 = some (rf.value c k .w1) := by
  rw [bqStep, RegFile.read_write_ne _ _ (by simp)]
  simp

theorem bqStep_read_ne (rf : RegFile) {c c' : Chain} {k k' : SlotId} (x : F) (j : Reg)
    (h : ¬(c' = c ∧ k' = k)) : (bqStep rf c k x).2.read c' k' j = rf.read c' k' j := by
  rw [bqStep, RegFile.read_write_ne _ _ (fun e => h ⟨e.1, e.2.1⟩),
    RegFile.read_write_ne _ _ (fun e => h ⟨e.1, e.2.1⟩)]

theorem bqStep_config (rf : RegFile) (c : Chain) (k : SlotId) (x : F) :
    SameConfiguration rf (bqStep rf c k x).2 := by
  refine ⟨fun c' k' j hj => ?_, fun c' k' => by simp [bqStep]⟩
  have h1 : j ≠ .w1 := by rintro rfl; simp [isDelay] at hj
  have h2 : j ≠ .w2 := by rintro rfl; simp [isDelay] at hj
  rw [bqStep, RegFile.read_write_ne _ _ (fun e => h1 e.2.2),
    RegFile.read_write_ne _ _ (fun e => h2 e.2.2)]

theorem bqStep_slot_ne (rf : RegFile) {c c' : Chain} {k k' : SlotId} (x : F)
    (h : ¬(c' = c ∧ k' = k)) : SameSlot c' k' rf (bqStep rf c k x).2 :=
  ⟨fun j => bqStep_read_ne rf x j h, (bqStep_config rf c k x).2 c' k'⟩

/-- After a step the slot's two delay registers hold values. -/
theorem bqStep_written (rf : RegFile) (c : Chain) (k : SlotId) (x : F) {c' : Chain} {k' : SlotId}
    {j : Reg} (hj : isDelay j = true) (h : rf.read c' k' j ≠ none) :
    (bqStep rf c k x).2.read c' k' j ≠ none := by
  by_cases hs : c' = c ∧ k' = k
  · obtain ⟨rfl, rfl⟩ := hs
    cases j <;> simp_all [isDelay, bqStep_w1, bqStep_w2]
  · rwa [bqStep_read_ne rf x j hs]

/-! ### `CASC_STEP` and `CHAIN_STEP` (R102, R109) -/

/-- What `BQ_STEP` keeps, a turn of a cascade keeps. -/
theorem cascTurn_keeps {P : RegFile → Prop} {c : Chain} {side : Side} {i : Fin 4}
    (hstep : ∀ rf x, rf.active c (slotOf side i) = true → P rf → P (bqStep rf c (slotOf side i) x).2)
    {v : F × RegFile} (h : P v.2) : P (cascTurn c side v i).2 := by
  unfold cascTurn
  split
  · exact hstep _ _ ‹_› h
  · exact h

/-- What `BQ_STEP` of every active slot of the side keeps, a cascade step keeps. -/
theorem cascStep_keeps {P : RegFile → Prop} {c : Chain} {side : Side}
    (hstep : ∀ rf i x, rf.active c (slotOf side i) = true → P rf →
      P (bqStep rf c (slotOf side i) x).2)
    {rf : RegFile} (x : F) (h : P rf) : P (cascStep rf c side x).2 := by
  have k := fun (i : Fin 4) (v : F × RegFile) (hv : P v.2) =>
    cascTurn_keeps (c := c) (side := side) (i := i) (fun rf x => hstep rf i x) hv
  exact k 3 _ (k 2 _ (k 1 _ (k 0 (x, rf) h)))

theorem cascStep_config (rf : RegFile) (c : Chain) (side : Side) (x : F) :
    SameConfiguration rf (cascStep rf c side x).2 :=
  cascStep_keeps (P := SameConfiguration rf)
    (fun rf' i x' _ h => h.trans (bqStep_config rf' c (slotOf side i) x')) x (.refl rf)

/-- A cascade step leaves alone every slot that is not an active slot of its side. -/
theorem cascStep_slot_other (rf : RegFile) {c c' : Chain} {side : Side} {k : SlotId} (x : F)
    (h : ∀ i : Fin 4, c' = c → k = slotOf side i → rf.active c (slotOf side i) = false) :
    SameSlot c' k rf (cascStep rf c side x).2 := by
  have := cascStep_keeps (P := fun r => SameConfiguration rf r ∧ SameSlot c' k rf r) (c := c)
    (side := side) (rf := rf) ?_ x ⟨.refl rf, .refl c' k rf⟩
  · exact this.2
  · intro r i x' hact hr
    refine ⟨hr.1.trans (bqStep_config r c (slotOf side i) x'), hr.2.trans (bqStep_slot_ne r x' ?_)⟩
    rintro ⟨hc, hk⟩
    have h0 := h i hc hk
    have hf : r.active c (slotOf side i) = rf.active c (slotOf side i) := by
      simp [RegFile.active, hr.1.2]
    rw [hf, h0] at hact
    exact Bool.noConfusion hact

theorem cascStep_written {rf : RegFile} (c : Chain) (side : Side) (x : F)
    (h : DelayLinesWritten rf) : DelayLinesWritten (cascStep rf c side x).2 :=
  cascStep_keeps (P := DelayLinesWritten)
    (fun r i x' _ hr c' k' j hj => bqStep_written r c (slotOf side i) x' hj (hr c' k' j hj)) x h

/-- A bypassed side is the identity (R103). -/
theorem cascStep_bypassed {rf : RegFile} {c : Chain} {side : Side} (x : F)
    (h : ∀ i : Fin 4, rf.active c (slotOf side i) = false) : cascStep rf c side x = (x, rf) := by
  simp [cascStep, cutSlots, cascTurn, h]

theorem chainStep_config (rf : RegFile) (c : Chain) (x : F) :
    SameConfiguration rf (chainStep rf c x).2 :=
  ((cascStep_config rf c .low x).trans (bqStep_config _ c .pk _)).trans
    (cascStep_config _ c .high _)

theorem chainStep_written {rf : RegFile} (c : Chain) (x : F) (h : DelayLinesWritten rf) :
    DelayLinesWritten (chainStep rf c x).2 := by
  refine cascStep_written c .high _ ?_
  intro c' k' j hj
  exact bqStep_written _ c .pk _ hj (cascStep_written c .low x h c' k' j hj)

/-- A chain step leaves the other chain alone. -/
theorem chainStep_other_chain (rf : RegFile) {c c' : Chain} (k : SlotId) (x : F) (h : c' ≠ c) :
    SameSlot c' k rf (chainStep rf c x).2 :=
  ((cascStep_slot_other rf x (fun _ e => absurd e h)).trans
    (bqStep_slot_ne _ _ (fun e => h e.1))).trans
    (cascStep_slot_other _ _ (fun _ e => absurd e h))

/-! ### A block through a chain (R110) -/

/-- A block cut in two is filtered part by part. -/
theorem filterBlock_append (c : Chain) (rf : RegFile) (xs ys : List F) :
    filterBlock c rf (xs ++ ys) =
      ((filterBlock c rf xs).1 ++ (filterBlock c (filterBlock c rf xs).2 ys).1,
        (filterBlock c (filterBlock c rf xs).2 ys).2) := by
  induction xs generalizing rf with
  | nil => rfl
  | cons x xs ih => simp [filterBlock, ih]

theorem filterBlock_config (c : Chain) (rf : RegFile) (xs : List F) :
    SameConfiguration rf (filterBlock c rf xs).2 := by
  induction xs generalizing rf with
  | nil => exact .refl rf
  | cons x xs ih => exact (chainStep_config rf c x).trans (ih _)

/-- A block leaves the other chain alone. -/
theorem filterBlock_other_chain {c c' : Chain} (rf : RegFile) (k : SlotId) (xs : List F)
    (h : c' ≠ c) : SameSlot c' k rf (filterBlock c rf xs).2 := by
  induction xs generalizing rf with
  | nil => exact .refl c' k rf
  | cons x xs ih => exact (chainStep_other_chain rf k x h).trans (ih _)

/-! ### `CFG_CUT` (R99) -/

theorem bypassAll_read (rf : RegFile) (c c' : Chain) (side : Side) (k : SlotId) (j : Reg) :
    (bypassAll rf c side).read c' k j = rf.read c' k j := by
  simp [bypassAll, cutSlots]

theorem bypassAll_flag_side (rf : RegFile) (c : Chain) (side : Side) (i : Fin 4) :
    (bypassAll rf c side).flag c (slotOf side i) = some false := by
  cases c <;> cases side <;> revert i <;> simp only [Fin.forall_fin_succ] <;>
    refine ⟨rfl, rfl, rfl, rfl, fun i => i.elim0⟩

theorem bypassAll_flag_other (rf : RegFile) {c c' : Chain} {side : Side} {k : SlotId}
    (h : ∀ i : Fin 4, ¬(c' = c ∧ k = slotOf side i)) :
    (bypassAll rf c side).flag c' k = rf.flag c' k := by
  simp only [bypassAll, cutSlots, List.foldl]
  rw [RegFile.flag_setFlag_ne _ _ (h 3), RegFile.flag_setFlag_ne _ _ (h 2),
    RegFile.flag_setFlag_ne _ _ (h 1), RegFile.flag_setFlag_ne _ _ (h 0)]

theorem loadAndActivate_read (rf : RegFile) (c : Chain) (side : Side) (seqn : List CoefSet)
    (i : Fin 4) (c' : Chain) (k : SlotId) (j : Reg) :
    (loadAndActivate c side seqn rf i).read c' k j =
      (bqLoad rf c (slotOf side i) (setAt seqn i)).read c' k j := by
  simp [loadAndActivate]

theorem loadAndActivate_flag (rf : RegFile) (c : Chain) (side : Side) (seqn : List CoefSet)
    (i : Fin 4) (c' : Chain) (k : SlotId) :
    (loadAndActivate c side seqn rf i).flag c' k =
      if c' = c ∧ k = slotOf side i then some true else rf.flag c' k := by
  by_cases h : c' = c ∧ k = slotOf side i
  · obtain ⟨rfl, rfl⟩ := h
    simp [loadAndActivate, RegFile.flag_setFlag_same _ _ _ (slotOf_ne_pk side i)]
  · simp [loadAndActivate, RegFile.flag_setFlag_ne _ _ h, h]

/-- Loading and activating the slots of a list: a listed slot holds its set and is active. -/
theorem loadAll_listed {l : List (Fin 4)} (hl : l.Nodup) (rf : RegFile) (c : Chain) (side : Side)
    (seqn : List CoefSet) {i : Fin 4} (hi : i ∈ l) :
    let r := l.foldl (loadAndActivate c side seqn) rf
    r.flag c (slotOf side i) = some true ∧
      ∀ j, isDelay j = false → r.read c (slotOf side i) j = coefOf (setAt seqn i) j := by
  induction l generalizing rf with
  | nil => cases hi
  | cons a l ih =>
    rw [List.nodup_cons] at hl
    by_cases hmem : i ∈ l
    · exact ih hl.2 _ hmem
    · have hia : i = a := by simpa [hmem] using hi
      subst hia
      have keep : ∀ (l : List (Fin 4)) (r : RegFile), i ∉ l →
          (l.foldl (loadAndActivate c side seqn) r).flag c (slotOf side i)
            = r.flag c (slotOf side i) ∧
          ∀ j, (l.foldl (loadAndActivate c side seqn) r).read c (slotOf side i) j
            = r.read c (slotOf side i) j := by
        intro l
        induction l with
        | nil => exact fun _ _ => ⟨rfl, fun _ => rfl⟩
        | cons b l ihl =>
          intro r hb
          have hne : ¬(c = c ∧ slotOf side i = slotOf side b) := by
            rintro ⟨_, e⟩
            exact hb ((slotOf_injective e).2 ▸ List.mem_cons_self ..)
          have := ihl (loadAndActivate c side seqn r b) (fun h => hb (List.mem_cons_of_mem _ h))
          refine ⟨this.1.trans ?_, fun j => (this.2 j).trans ?_⟩
          · rw [loadAndActivate_flag, if_neg hne]
          · rw [loadAndActivate_read, bqLoad_read_ne _ _ _ hne]
      have h := keep l (loadAndActivate c side seqn rf i) hmem
      refine ⟨h.1.trans (by simp [loadAndActivate_flag]), fun j hj => (h.2 j).trans ?_⟩
      simp [loadAndActivate_read, bqLoad_read_same, hj]

/-- Loading and activating the slots of a list leaves every other slot alone. -/
theorem loadAll_other {l : List (Fin 4)} (rf : RegFile) {c c' : Chain} {side : Side} {k : SlotId}
    (seqn : List CoefSet) (h : ∀ i ∈ l, ¬(c' = c ∧ k = slotOf side i)) :
    SameSlot c' k rf (l.foldl (loadAndActivate c side seqn) rf) := by
  induction l generalizing rf with
  | nil => exact .refl c' k rf
  | cons a l ih =>
    have hne := h a (List.mem_cons_self ..)
    refine SameSlot.trans ⟨fun j => ?_, ?_⟩ (ih _ fun i hi => h i (List.mem_cons_of_mem _ hi))
    · rw [loadAndActivate_read, bqLoad_read_ne _ _ _ hne]
    · rw [loadAndActivate_flag, if_neg hne]

theorem loadAll_delays {l : List (Fin 4)} (rf : RegFile) (c : Chain) (side : Side)
    (seqn : List CoefSet) : SameDelayLines rf (l.foldl (loadAndActivate c side seqn) rf) := by
  induction l generalizing rf with
  | nil => exact .refl rf
  | cons a l ih =>
    refine SameDelayLines.trans (fun c' k j hj => ?_) (ih _)
    rw [loadAndActivate_read]
    exact bqLoad_delays rf c (slotOf side a) (setAt seqn a) c' k j hj

theorem slopeCount_toNat (idx : SlopeIndex) : (slopeCount idx).toNat = idx.toNat + 1 := by
  revert idx; decide

theorem mem_take_cutSlots (n : Nat) (i : Fin 4) : i ∈ cutSlots.take n ↔ i.val < n := by
  have h4 : ∀ i : Fin 4, ∀ n : Fin 5, i ∈ cutSlots.take n.val ↔ i.val < n.val := by decide
  by_cases hn : n < 5
  · exact h4 i ⟨n, hn⟩
  · rw [List.take_of_length_le (by simp [cutSlots]; omega)]
    have hi := i.isLt
    have hall : ∀ i : Fin 4, i ∈ cutSlots := by decide
    exact ⟨fun _ => by omega, fun _ => hall i⟩

theorem take_cutSlots_nodup (n : Nat) : (cutSlots.take n).Nodup :=
  (by decide : cutSlots.Nodup).sublist (List.take_sublist _ _)

/-- `CFG_CUT` on a slot it activates: its set of the sequence, and the flag 1. -/
theorem cfgCut_active (rf : RegFile) (c : Chain) (side : Side) (idx : SlopeIndex)
    (seqn : List CoefSet) {i : Fin 4} (hi : i.val ≤ idx.toNat) :
    (cfgCut rf c side idx seqn).flag c (slotOf side i) = some true ∧
      ∀ j, isDelay j = false →
        (cfgCut rf c side idx seqn).read c (slotOf side i) j = coefOf (setAt seqn i) j :=
  loadAll_listed (take_cutSlots_nodup _) (bypassAll rf c side) c side seqn
    ((mem_take_cutSlots _ i).2 (by rw [slopeCount_toNat]; omega))

/-- `CFG_CUT` on a slot of its side past the count: bypassed, registers kept. -/
theorem cfgCut_bypassed (rf : RegFile) (c : Chain) (side : Side) (idx : SlopeIndex)
    (seqn : List CoefSet) {i : Fin 4} (hi : idx.toNat < i.val) :
    (cfgCut rf c side idx seqn).flag c (slotOf side i) = some false ∧
      ∀ j, (cfgCut rf c side idx seqn).read c (slotOf side i) j = rf.read c (slotOf side i) j := by
  have h : SameSlot c (slotOf side i) (bypassAll rf c side) (cfgCut rf c side idx seqn) := by
    refine loadAll_other _ seqn fun i' hi' e => ?_
    have := (slotOf_injective e.2).2
    rw [mem_take_cutSlots, slopeCount_toNat] at hi'
    subst this
    omega
  exact ⟨h.2.trans (bypassAll_flag_side rf c side i),
    fun j => (h.1 j).trans (bypassAll_read rf c c side _ j)⟩

/-- `CFG_CUT` leaves alone every slot that is not of its cascade. -/
theorem cfgCut_other (rf : RegFile) {c c' : Chain} {side : Side} {k : SlotId} (idx : SlopeIndex)
    (seqn : List CoefSet) (h : ∀ i : Fin 4, ¬(c' = c ∧ k = slotOf side i)) :
    SameSlot c' k rf (cfgCut rf c side idx seqn) :=
  SameSlot.trans ⟨fun j => bypassAll_read rf c c' side k j, bypassAll_flag_other rf h⟩
    (loadAll_other _ seqn fun i _ => h i)

/-- `CFG_CUT` writes no delay line (R104, R121). -/
theorem cfgCut_delays (rf : RegFile) (c : Chain) (side : Side) (idx : SlopeIndex)
    (seqn : List CoefSet) : SameDelayLines rf (cfgCut rf c side idx seqn) :=
  SameDelayLines.trans (fun c' k j _ => bypassAll_read rf c c' side k j)
    (loadAll_delays _ c side seqn)

/-! ### Loading an update (R119) -/

/-- No delay line is written (R121). -/
theorem loadDesign_delays (d : Design) (rf : RegFile) : SameDelayLines rf (loadDesign d rf) := by
  unfold loadDesign cfgPeak
  exact (((((bqLoad_delays _ _ _ _).trans (bqLoad_delays _ _ _ _)).trans
    (cfgCut_delays _ _ _ _ _)).trans (cfgCut_delays _ _ _ _ _)).trans
    (cfgCut_delays _ _ _ _ _)).trans (cfgCut_delays _ _ _ _ _)

end Sys2Proof.Machine
end

