-- ==== Sys2Proof/Laws/Step.lean ====
section
/-! SUPPORT. What a step can do: whose move it is and which meaning it runs, what each meaning does to
`seq` and the fault bits, and runs of several steps. -/

namespace Sys2Proof.Machine

/-! ### Whose move it is -/

/-- The listing's head need not wait on a core that is not at work. -/
theorem mustWait_of_not_busy {s : State} (m : Move) (h : busy s = false) : mustWait m s = false := by
  simp [mustWait, h]

@[simp] theorem busy_setListing (s : State) (l : List Move) : busy (s.setListing l) = busy s := rfl

@[simp] theorem mustWait_setListing (m : Move) (s : State) (l : List Move) :
    mustWait m (s.setListing l) = mustWait m s := rfl

theorem step_nil {s : State} (h : s.listing = []) : step s = coreTurn s := by
  simp [step, agentStep, h]

theorem step_waits {s : State} {m : Move} {rest : List Move} (h : s.listing = m :: rest)
    (hw : mustWait m s = true) : step s = coreTurn s := by
  simp [step, agentStep, h, hw]

theorem step_moves {s : State} {m : Move} {rest : List Move} (h : s.listing = m :: rest)
    (hw : mustWait m s = false) : step s = takeMove m (s.setListing rest) := by
  simp [step, agentStep, h, hw]

/-- All a step can be: the core's turn, or the head of the listing taken off it. -/
theorem step_cases (s : State) :
    step s = coreTurn s ∨
      ∃ m rest, s.listing = m :: rest ∧ mustWait m s = false ∧
        step s = takeMove m (s.setListing rest) := by
  cases h : s.listing with
  | nil => exact .inl (step_nil h)
  | cons m rest =>
    cases hw : mustWait m s with
    | true => exact .inl (step_waits h hw)
    | false => exact .inr ⟨m, rest, rfl, hw, step_moves h hw⟩

/-- All the core's turn can be. -/
theorem coreTurn_cases (s : State) :
    (∃ cmd ph, s.seq = .run cmd ph ∧ coreTurn s = exec (cmdInstr cmd) s) ∨
      (∃ pos, s.seq = .idle ∧ s.micro = some pos ∧ coreTurn s = exec (microInstr pos) s) ∨
      coreTurn s = .next s := by
  unfold coreTurn
  split
  · exact .inl ⟨_, _, ‹_›, rfl⟩
  · exact .inr (.inr rfl)
  · split
    · exact .inr (.inl ⟨_, ‹_›, ‹_›, rfl⟩)
    · exact .inr (.inr rfl)

/-- All a word on its port can do. -/
theorem portWord_cases (p : Packet) (s : State) :
    (∃ i, decode p = .ok i ∧ portWord p s = exec i s) ∨
      (s.seq = .idle ∧ portWord p s = .next (raise .illcmd s)) ∨
      portWord p s = .next s ∨ portWord p s = .refused .noSuchMicroOperation := by
  unfold portWord
  split
  · exact .inl ⟨_, ‹_›, rfl⟩
  · split
    · exact .inr (.inl ⟨‹_›, rfl⟩)
    · exact .inr (.inr (.inl rfl))
  · exact .inr (.inr (.inl rfl))
  · exact .inr (.inr (.inr rfl))

/-- A conforming agent's next move is conforming, and so are the moves after it. -/
theorem conformingAgent_cons {s : State} {m : Move} {rest : List Move} (hl : s.listing = m :: rest)
    (h : conformingAgent s = true) :
    conformingMove m = true ∧ conformingAgent (s.setListing rest) = true := by
  simpa [conformingAgent, hl] using h

/-- What the conforming agent stores is legal. -/
theorem legalValue_of_conforming {w : BitVec 35} {idx : BitVec 3} {v : F} {j : ParamId}
    (hc : conformingPacket (.param w) = true) (hd : decode (.param w) = .ok (.pwrite idx v))
    (hj : paramOfIndex idx = some j) : legalValue j v = true := by
  simp only [decode] at hd
  split at hd
  · cases hd
  · cases hd
    simpa [conformingPacket, hj] using hc

/-- The moves that do not wait. -/
theorem neverWaits_cases {m : Move} (h : neverWaits m = true) :
    (∃ w, m = .send (.param w)) ∨ m = .core ∨ m = .reset := by
  cases m with
  | send p =>
    cases p with
    | param w => exact .inl ⟨w, rfl⟩
    | command w => cases h
    | micro w => cases h
    | bus w => cases h
  | core => exact .inr (.inl rfl)
  | reset => exact .inr (.inr rfl)
  | stage u => cases h
  | bufWrite ch i v => cases h
  | bufRead ch i => cases h

/-- A move that is taken while the core is at work is a parameter write, the core's own or reset. -/
theorem taken_while_busy {s : State} {m : Move} (h : mustWait m s = false) (hb : busy s = true) :
    (∃ w, m = .send (.param w)) ∨ m = .core ∨ m = .reset :=
  neverWaits_cases (by simpa [mustWait, hb] using h)

/-! ### The two commands -/

/-- All one step of `PREPARE` can be. -/
theorem execPrepare_cases (m : BitVec 16) (s : State) :
    (s.seq = .idle ∧ execPrepare m s = .next (acceptCommand (.prepare m) s)) ∨
      (s.seq = .halt ∧ execPrepare m s = .next s) ∨
      (∃ ph, s.seq = .run (.prepare m) ph ∧ execPrepare m s = prepareAt m ph s) ∨
      ∃ cmd ph, s.seq = .run cmd ph ∧ cmd ≠ .prepare m ∧ execPrepare m s = .refused .hostBlocked := by
  unfold execPrepare
  split
  · exact .inl ⟨‹_›, rfl⟩
  · exact .inr (.inl ⟨‹_›, rfl⟩)
  · rename_i cmd ph h
    by_cases hc : cmd = .prepare m
    · subst hc
      exact .inr (.inr (.inl ⟨ph, h, if_pos rfl⟩))
    · exact .inr (.inr (.inr ⟨cmd, ph, h, hc, if_neg hc⟩))

/-- All one step of `PROCESS` can be. -/
theorem execProcess_cases (nch : BitVec 8) (len : BitVec 16) (s : State) :
    (s.seq = .idle ∧ execProcess nch len s = .next (acceptCommand (.process nch len) s)) ∨
      (s.seq = .halt ∧ execProcess nch len s = .next s) ∨
      (∃ ph, s.seq = .run (.process nch len) ph ∧ execProcess nch len s = processAt nch len ph s) ∨
      ∃ cmd ph, s.seq = .run cmd ph ∧ cmd ≠ .process nch len ∧
        execProcess nch len s = .refused .hostBlocked := by
  unfold execProcess
  split
  · exact .inl ⟨‹_›, rfl⟩
  · exact .inr (.inl ⟨‹_›, rfl⟩)
  · rename_i cmd ph h
    by_cases hc : cmd = .process nch len
    · subst hc
      exact .inr (.inr (.inl ⟨ph, h, if_pos rfl⟩))
    · exact .inr (.inr (.inr ⟨cmd, ph, h, hc, if_neg hc⟩))

/-- The instruction of a command in flight takes the step of its position. -/
theorem exec_cmdInstr {s : State} {cmd : Cmd} {ph : Phase} (h : s.seq = .run cmd ph) :
    exec (cmdInstr cmd) s =
      match cmd with
      | .prepare m => prepareAt m ph s
      | .process nch len => processAt nch len ph s := by
  cases cmd with
  | prepare m => simp [cmdInstr, exec, execPrepare, h]
  | process nch len => simp [cmdInstr, exec, execProcess, h]

/-! ### What a meaning does to `seq` and the fault bits -/

/-- What one step of the core or one transaction does to `seq` and `FAULT`: neither changes; a running
or idle core enters a fault; or it moves on, in no fault. -/
def SeqFault (s t : State) : Prop :=
  (t.seq = s.seq ∧ t.fault = s.fault) ∨
    (s.seq ≠ .halt ∧ ∃ f, t.seq = .halt ∧ t.fault = s.fault ||| faultBit f) ∨
    (s.seq ≠ .halt ∧ t.seq ≠ .halt ∧ t.fault = s.fault)

theorem seqFault_coreDoes {s t u : State} (h : coreDoes s t = .next u)
    (ht : s.seq ≠ .halt → SeqFault s t) : SeqFault s u := by
  rcases coreDoes_cases h with ⟨_, rfl⟩ | ⟨hs, rfl⟩
  · exact .inl ⟨rfl, rfl⟩
  · exact ht hs

theorem seqFault_raise {s : State} (f : FaultCode) (h : s.seq ≠ .halt) : SeqFault s (raise f s) :=
  .inr (.inl ⟨h, f, rfl, rfl⟩)

theorem seqFault_pcheckStep {s pass : State} (sr : F) (h : s.seq ≠ .halt)
    (hp : SeqFault s pass) : SeqFault s (pcheckStep sr s pass) := by
  rcases pcheckStep_cases sr s pass with ⟨_, e⟩ | ⟨f, _, e⟩ <;> rw [e]
  · exact hp
  · exact seqFault_raise f h

theorem seqFault_same {s t : State} (hs : t.seq = s.seq) (hf : t.fault = s.fault) : SeqFault s t :=
  .inl ⟨hs, hf⟩

theorem seqFault_moves {s t : State} (h : s.seq ≠ .halt) (hs : t.seq ≠ .halt)
    (hf : t.fault = s.fault) : SeqFault s t :=
  .inr (.inr ⟨h, hs, hf⟩)

theorem prepareAt_seqFault {m : BitVec 16} {ph : Phase} {s t : State}
    (hs : s.seq = .run (.prepare m) ph) (h : prepareAt m ph s = .next t) : SeqFault s t := by
  have hn : s.seq ≠ .halt := by simp [hs]
  cases ph with
  | check =>
    cases h
    rcases prepareCheck_cases m s with ⟨_, e⟩ | ⟨_, e⟩ <;> rw [e]
    · exact seqFault_moves hn (by simp) rfl
    · exact seqFault_raise _ hn
  | snap j => cases h; exact seqFault_moves hn (by simp) rfl
  | pcheck => cases h; exact seqFault_pcheckStep _ hn (seqFault_moves hn (by simp) rfl)
  | commit => cases h; exact seqFault_moves hn (by simp) rfl
  | proc c n => cases h

theorem afterSample_seqFault {nch : BitVec 8} {len : BitVec 16} {c : Chain} {n : BitVec 16}
    {s u : State} (hs : s.seq ≠ .halt) (hf : u.fault = s.fault) :
    SeqFault s (afterSample nch len c n u) := by
  rcases afterSample_cases nch len c n u with ⟨_, e⟩ | ⟨_, _, e⟩ | ⟨_, _, e⟩ <;> rw [e] <;>
    exact seqFault_moves hs (by simp) (by simpa using hf)

theorem processAt_seqFault {nch : BitVec 8} {len : BitVec 16} {ph : Phase} {s t : State}
    (hs : s.seq = .run (.process nch len) ph) (h : processAt nch len ph s = .next t) :
    SeqFault s t := by
  have hn : s.seq ≠ .halt := by simp [hs]
  cases ph with
  | check =>
    cases h
    rcases processCheck_cases nch len s with ⟨f, _, e⟩ | ⟨_, _, _, e⟩ <;> rw [e]
    · exact seqFault_raise _ hn
    · exact seqFault_moves hn (by simp) rfl
  | snap j => cases h; exact seqFault_moves hn (by simp) rfl
  | pcheck => cases h; exact seqFault_pcheckStep _ hn (seqFault_moves hn (by simp) rfl)
  | commit =>
    cases h
    unfold processCommit
    split <;> exact seqFault_moves hn (by simp) rfl
  | proc c n =>
    simp only [processAt, processSample] at h
    split at h
    · cases h; exact afterSample_seqFault hn rfl
    · cases h

theorem updateAt_seqFault {s : State} (ph : UpdPhase) (h : s.seq ≠ .halt) :
    SeqFault s (updateAt ph s) := by
  cases ph with
  | snap j => exact seqFault_same rfl rfl
  | pcheck => exact seqFault_pcheckStep _ h (seqFault_same rfl rfl)
  | commit => exact seqFault_same rfl rfl

/-- Every meaning, one lemma for all rows of the table. -/
theorem exec_seqFault {i : Instr} {s t : State} (h : exec i s = .next t) : SeqFault s t := by
  have same : ∀ {u : State}, coreDoes s u = .next t → u.seq = s.seq → u.fault = s.fault →
      SeqFault s t := fun hc hs hf => seqFault_coreDoes hc fun _ => seqFault_same hs hf
  cases i with
  | prepare m =>
    simp only [exec] at h
    rcases execPrepare_cases m s with ⟨hs, e⟩ | ⟨hs, e⟩ | ⟨ph, hs, e⟩ | ⟨_, _, _, _, e⟩ <;>
      rw [e] at h
    · cases h; exact seqFault_moves (by simp [hs]) (by simp) rfl
    · cases h; exact seqFault_same rfl rfl
    · exact prepareAt_seqFault hs h
    · cases h
  | process nch len =>
    simp only [exec] at h
    rcases execProcess_cases nch len s with ⟨hs, e⟩ | ⟨hs, e⟩ | ⟨ph, hs, e⟩ | ⟨_, _, _, _, e⟩ <;>
      rw [e] at h
    · cases h; exact seqFault_moves (by simp [hs]) (by simp) rfl
    · cases h; exact seqFault_same rfl rfl
    · exact processAt_seqFault hs h
    · cases h
  | slope2count => exact same h rfl rfl
  | slope2order => exact same h rfl rfl
  | calcPeak => exact same h rfl rfl
  | calcCut => exact same h rfl rfl
  | bqLoad => exact same h rfl rfl
  | bqReset => exact same h rfl rfl
  | bqStep => exact same h rfl rfl
  | cfgCut => exact same h rfl rfl
  | cascStep => exact same h rfl rfl
  | cfgPeak => exact same h rfl rfl
  | chainStep => exact same h rfl rfl
  | chainProc =>
    simp only [exec, execChainProc] at h
    split at h
    · cases h; exact seqFault_same rfl rfl
    · split at h
      · cases h
      · cases h; exact seqFault_same rfl rfl
  | snapshot => exact same h rfl rfl
  | pcheck =>
    exact seqFault_coreDoes h fun hn => seqFault_pcheckStep _ hn (seqFault_same rfl rfl)
  | update =>
    exact seqFault_coreDoes (t := updateAt (updateStart s) s) h fun hn => updateAt_seqFault _ hn
  | updApply => exact same h rfl rfl
  | wrreg addr data =>
    simp only [exec, execWrreg] at h
    split at h
    · cases h
    · cases h
      unfold writeReg
      split
      · split
        · rename_i hi
          rcases writeCommand_cases data s with ⟨cmd, _, e⟩ | ⟨_, e⟩ <;> rw [e]
          · exact seqFault_moves (by simp [hi]) (by simp) rfl
          · exact seqFault_raise _ (by simp [hi])
        · exact seqFault_same rfl rfl
      · exact seqFault_same rfl rfl
      · exact seqFault_same rfl rfl
  | rdreg addr =>
    simp only [exec, execRdreg] at h
    split at h <;> cases h
    exact seqFault_same rfl rfl
  | pwrite idx val =>
    simp only [exec, execPwrite] at h
    split at h <;> cases h <;> exact seqFault_same rfl rfl

/-- Every step but reset. -/
theorem step_seqFault {s t : State} (h : step s = .next t) :
    SeqFault s t ∨ ∃ rest, s.listing = .reset :: rest := by
  have core : ∀ {s' : State}, s'.seq = s.seq → s'.fault = s.fault → coreTurn s' = .next t →
      SeqFault s t := by
    intro s' hs hf hc
    have : SeqFault s' t := by
      rcases coreTurn_cases s' with ⟨_, _, _, e⟩ | ⟨_, _, _, e⟩ | e <;> rw [e] at hc
      · exact exec_seqFault hc
      · exact exec_seqFault hc
      · cases hc; exact seqFault_same rfl rfl
    simpa only [SeqFault, hs, hf] using this
  rcases step_cases s with e | ⟨m, rest, hl, _, e⟩ <;> rw [e] at h
  · exact .inl (core rfl rfl h)
  · cases m with
    | send p =>
      left
      simp only [takeMove] at h
      rcases portWord_cases p (s.setListing rest) with ⟨_, _, e⟩ | ⟨hi, e⟩ | e | e <;> rw [e] at h
      · exact exec_seqFault (s := s.setListing rest) h
      · cases h
        exact seqFault_raise (s := s.setListing rest) .illcmd (by rw [hi]; simp)
      · cases h; exact seqFault_same rfl rfl
      · cases h
    | stage u => cases h; exact .inl (seqFault_same rfl rfl)
    | core => exact .inl (core (s' := s.setListing rest) rfl rfl h)
    | reset => exact .inr ⟨rest, hl⟩
    | bufWrite ch i v => cases h; exact .inl (seqFault_same rfl rfl)
    | bufRead ch i => cases h; exact .inl (seqFault_same rfl rfl)

/-! ### Runs -/

/-- A run of `j + k` steps is a run of `k` steps from where the run of `j` steps ends. -/
theorem run_add {j k : Nat} {s u : State} (h : Host.Core.run Sys2Proof.core j s = .next u) :
    Host.Core.run Sys2Proof.core (j + k) s = Host.Core.run Sys2Proof.core k u := by
  induction j generalizing s with
  | zero =>
    cases h
    rw [Nat.zero_add]
  | succ j ih =>
    rw [Nat.succ_add]
    simp only [Host.Core.run] at h ⊢
    split at h
    · exact ih h
    · cases h
    · cases h

/-- The first step of a run. -/
theorem run_succ {k : Nat} {s u : State} (h : step s = .next u) :
    Host.Core.run Sys2Proof.core (k + 1) s = Host.Core.run Sys2Proof.core k u := by
  have hc : Sys2Proof.core.step s = .next u := h
  simp only [Host.Core.run, hc]

/-- A halted or idle core with nothing listed and no micro-operation stays as it is. -/
theorem run_rest {s : State} (hl : s.listing = []) (hs : s.seq = .halt ∨ s.seq = .idle ∧ s.micro = none)
    (k : Nat) : Host.Core.run Sys2Proof.core k s = .next s := by
  have h1 : step s = .next s := by
    rw [step_nil hl, coreTurn]
    rcases hs with h | ⟨h, hm⟩
    · rw [h]
    · rw [h, hm]
  induction k with
  | zero => rfl
  | succ k ih => rw [run_succ h1, ih]

end Sys2Proof.Machine
end

