-- ==== Sys2Proof/Laws/Update.lean ====
section
/-! SUPPORT. The update: what the tests of `PCHECK` decide, what loading a design and clearing the delay
lines leave in each slot. -/

namespace Sys2Proof.Machine

/-! ### Equality with the slope values (R117) -/

/-- `==.` with zero: the two zeros. -/
theorem fEq_zero (v : F) : fEq v 0x00000000#32 = true ↔ v = 0x00000000#32 ∨ v = 0x80000000#32 := by
  have hv := v.isLt
  have e0 : v = 0x00000000#32 ↔ v.toNat = 0 := by rw [← BitVec.toNat_inj]; rfl
  have e1 : v = 0x80000000#32 ↔ v.toNat = 0x80000000 := by rw [← BitVec.toNat_inj]; rfl
  rw [e0, e1]
  have hn : isNaN (0x00000000#32) = false := by decide
  have hk : orderKey (0x00000000#32) = 0 := by decide
  simp only [fEq, hn, hk, Bool.and_eq_true, Bool.not_eq_true', decide_eq_true_eq, Bool.not_false,
    and_true]
  constructor
  · rintro ⟨_, h⟩
    unfold orderKey at h
    rw [signBit_eq] at h
    split at h <;> simp_all <;> omega
  · intro h
    have hz : v = 0x00000000#32 ∨ v = 0x80000000#32 := by rw [e0, e1]; exact h
    rcases hz with rfl | rfl <;> decide

/-- `==.` with a finite datum above zero: that pattern alone. -/
theorem fEq_pos (v c : F) (hc0 : 0 < c.toNat) (hc : c.toNat < 0x7F800000) :
    fEq v c = true ↔ v = c := by
  have hv := v.isLt
  rw [← BitVec.toNat_inj]
  have hn : isNaN c = false := by
    simp only [isNaN, expField]
    have : c.toNat / 2 ^ 23 % 2 ^ 8 ≠ 255 := by omega
    rw [Bool.and_eq_false_iff]; left; simpa using this
  have hs : signBit c = false := by rw [signBit_eq]; simp; omega
  have hk : orderKey c = (c.toNat : Int) := by
    unfold orderKey; rw [hs]; simp; omega
  simp only [fEq, hn, hk, Bool.and_eq_true, Bool.not_eq_true', decide_eq_true_eq, Bool.not_false,
    and_true]
  constructor
  · rintro ⟨_, h⟩
    unfold orderKey at h
    rw [signBit_eq] at h
    split at h <;> simp_all <;> omega
  · intro h
    have := BitVec.eq_of_toNat_eq h
    subst this
    exact ⟨hn, hk⟩

/-! ### The tests of `PCHECK` (R118) -/

theorem anyNovalue_eq_false {p : Params} (h : anyNovalue p = false) (j : ParamId) :
    ∃ v, p.get j = some v := by
  simp only [anyNovalue, Bool.or_eq_false_iff, Option.isNone_eq_false_iff,
    Option.isSome_iff_exists] at h
  obtain ⟨⟨⟨⟨⟨⟨h0, h1⟩, h2⟩, h3⟩, h4⟩, h5⟩, h6⟩ := h
  cases j <;> assumption

/-- The range tests are the seven legal sets (R32). -/
theorem paramsInRange_iff (p : Params) :
    paramsInRange p = true ↔ ∀ j, legalValue j (p.value j) = true := by
  simp only [paramsInRange, Bool.and_eq_true]
  exact ⟨fun ⟨⟨⟨⟨⟨⟨h0, h1⟩, h2⟩, h3⟩, h4⟩, h5⟩, h6⟩ j => by cases j <;> assumption,
    fun h => ⟨⟨⟨⟨⟨⟨h _, h _⟩, h _⟩, h _⟩, h _⟩, h _⟩, h _⟩⟩

/-- All the tests can decide: no fault, `PARAM`, or `NYQ` when every `PARAM` test has passed. -/
theorem checkParams_cases (p : Params) (sr : F) :
    (checkParams p sr = none ∧ anyNovalue p = false ∧ paramsInRange p = true ∧
        belowNyquist p sr = true) ∨
      (checkParams p sr = some .param ∧ (anyNovalue p = true ∨ paramsInRange p = false)) ∨
      (checkParams p sr = some .nyq ∧ anyNovalue p = false ∧ paramsInRange p = true ∧
        belowNyquist p sr = false) := by
  unfold checkParams
  cases h1 : anyNovalue p <;> cases h2 : paramsInRange p <;> cases h3 : belowNyquist p sr <;> simp

/-! ### Clearing the delay lines (R126) -/

theorem foldl_bqReset_read (l : List SlotId) (rf : RegFile) (c c' : Chain) (k : SlotId) (j : Reg) :
    (l.foldl (fun rf k => bqReset rf c k) rf).read c' k j =
      if c' = c ∧ k ∈ l ∧ isDelay j = true then some 0 else rf.read c' k j := by
  induction l generalizing rf with
  | nil => simp
  | cons a l ih =>
    rw [List.foldl_cons, ih]
    by_cases hs : c' = c ∧ k = a
    · obtain ⟨rfl, rfl⟩ := hs
      rw [bqReset_read_same]
      cases isDelay j <;> simp
    · rw [bqReset_read_ne _ _ hs]
      have : (c' = c ∧ k ∈ l ∧ isDelay j = true) ↔ (c' = c ∧ k ∈ a :: l ∧ isDelay j = true) := by
        simp only [List.mem_cons]; tauto
      simp only [this]

theorem foldl_bqReset_flag (l : List SlotId) (rf : RegFile) (c c' : Chain) (k : SlotId) :
    (l.foldl (fun rf k => bqReset rf c k) rf).flag c' k = rf.flag c' k := by
  induction l generalizing rf with
  | nil => rfl
  | cons a l ih => rw [List.foldl_cons, ih, bqReset_flag]

theorem mem_allSlots (k : SlotId) : k ∈ allSlots := by cases k <;> decide

/-- After the clearing every delay register of both chains holds `+0.0`; coefficients stay. -/
theorem resetDelays_read (rf : RegFile) (c : Chain) (k : SlotId) (j : Reg) :
    (resetDelays rf).read c k j = if isDelay j = true then some 0 else rf.read c k j := by
  simp only [resetDelays, foldl_bqReset_read, mem_allSlots, true_and]
  cases c <;> cases isDelay j <;> simp

/-- The clearing keeps every coefficient and every flag. -/
theorem resetDelays_config (rf : RegFile) : SameConfiguration rf (resetDelays rf) := by
  refine ⟨fun c k j hj => by rw [resetDelays_read]; simp [hj], fun c k => ?_⟩
  simp only [resetDelays, foldl_bqReset_flag]

/-! ### Loading a design (R119) -/

/-- A side's slope index in a design. -/
def Design.index (d : Design) : Side → SlopeIndex
  | .low => d.iL
  | .high => d.iH

/-- A side's sequence in a design. -/
def Design.sections (d : Design) : Side → List CoefSet
  | .low => d.lc
  | .high => d.hc

/-- Both chains of a side configured. -/
theorem cfgBoth_cut (rf : RegFile) (side : Side) (idx : SlopeIndex) (seqn : List CoefSet) (c : Chain)
    (i : Fin 4) :
    let r := cfgCut (cfgCut rf .left side idx seqn) .right side idx seqn
    (i.val ≤ idx.toNat → r.flag c (slotOf side i) = some true ∧
        ∀ j, isDelay j = false → r.read c (slotOf side i) j = coefOf (setAt seqn i) j) ∧
      (idx.toNat < i.val → r.flag c (slotOf side i) = some false ∧
        ∀ j, r.read c (slotOf side i) j = rf.read c (slotOf side i) j) := by
  intro r
  cases c with
  | left =>
    have o : SameSlot .left (slotOf side i) (cfgCut rf .left side idx seqn) r :=
      cfgCut_other _ _ _ (fun _ e => by cases e.1)
    constructor
    · intro hi
      have a := cfgCut_active rf .left side idx seqn hi
      exact ⟨o.2.trans a.1, fun j hj => (o.1 j).trans (a.2 j hj)⟩
    · intro hi
      have a := cfgCut_bypassed rf .left side idx seqn hi
      exact ⟨o.2.trans a.1, fun j => (o.1 j).trans (a.2 j)⟩
  | right =>
    have o : SameSlot .right (slotOf side i) rf (cfgCut rf .left side idx seqn) :=
      cfgCut_other _ _ _ (fun _ e => by cases e.1)
    constructor
    · intro hi
      exact cfgCut_active _ .right side idx seqn hi
    · intro hi
      have a := cfgCut_bypassed (cfgCut rf .left side idx seqn) .right side idx seqn hi
      exact ⟨a.1, fun j => (a.2 j).trans (o.1 j)⟩

/-- Configuring one side leaves the slots that are not of that side. -/
theorem cfgBoth_other (rf : RegFile) {side : Side} (idx : SlopeIndex) (seqn : List CoefSet) (c : Chain)
    {k : SlotId} (h : ∀ i : Fin 4, k ≠ slotOf side i) :
    SameSlot c k rf (cfgCut (cfgCut rf .left side idx seqn) .right side idx seqn) :=
  (cfgCut_other _ _ _ fun i e => h i e.2).trans (cfgCut_other _ _ _ fun i e => h i e.2)

/-- The two peak slots loaded. -/
theorem cfgBoth_peak (rf : RegFile) (set : CoefSet) (c : Chain) (j : Reg) (hj : isDelay j = false) :
    (cfgPeak (cfgPeak rf .left set) .right set).read c .pk j = coefOf set j := by
  cases c with
  | left =>
    rw [cfgPeak, bqLoad_read_ne _ _ _ (by simp), cfgPeak, bqLoad_read_same]
    simp [hj]
  | right =>
    rw [cfgPeak, bqLoad_read_same]
    simp [hj]

theorem cfgBoth_peak_other (rf : RegFile) (set : CoefSet) (c : Chain) {k : SlotId} (h : k ≠ .pk) :
    SameSlot c k rf (cfgPeak (cfgPeak rf .left set) .right set) :=
  ⟨fun j => by
      rw [cfgPeak, bqLoad_read_ne _ _ _ (fun e => h e.2), cfgPeak,
        bqLoad_read_ne _ _ _ (fun e => h e.2)],
    by simp [cfgPeak]⟩

/-- The peak slots after an update. -/
theorem loadDesign_peak (d : Design) (rf : RegFile) (c : Chain) (j : Reg) (hj : isDelay j = false) :
    (loadDesign d rf).read c .pk j = coefOf d.pk j := by
  have hl : ∀ i : Fin 4, SlotId.pk ≠ slotOf .low i := fun i e => slotOf_ne_pk .low i e.symm
  have hh : ∀ i : Fin 4, SlotId.pk ≠ slotOf .high i := fun i e => slotOf_ne_pk .high i e.symm
  unfold loadDesign
  rw [(cfgBoth_other _ d.iH d.hc c hh).1 j, (cfgBoth_other _ d.iL d.lc c hl).1 j]
  exact cfgBoth_peak rf d.pk c j hj

/-- The cut slots after an update: the first `N` of a side hold its sections and are active, the others
are bypassed and keep their registers. -/
theorem loadDesign_cut (d : Design) (rf : RegFile) (c : Chain) (side : Side) (i : Fin 4) :
    (i.val ≤ (d.index side).toNat →
        (loadDesign d rf).flag c (slotOf side i) = some true ∧
          ∀ j, isDelay j = false →
            (loadDesign d rf).read c (slotOf side i) j = coefOf (setAt (d.sections side) i) j) ∧
      ((d.index side).toNat < i.val →
        (loadDesign d rf).flag c (slotOf side i) = some false ∧
          ∀ j, (loadDesign d rf).read c (slotOf side i) j = rf.read c (slotOf side i) j) := by
  have ne : ∀ i i' : Fin 4, slotOf .low i ≠ slotOf .high i' := fun i i' e => by
    have := (slotOf_injective e).1
    cases this
  have p := cfgBoth_peak_other rf d.pk c (slotOf_ne_pk side i)
  unfold loadDesign
  cases side with
  | low =>
    have o := cfgBoth_other (cfgCut (cfgCut (cfgPeak (cfgPeak rf .left d.pk) .right d.pk) .left .low
      d.iL d.lc) .right .low d.iL d.lc) d.iH d.hc c (ne i)
    have a := cfgBoth_cut (cfgPeak (cfgPeak rf .left d.pk) .right d.pk) .low d.iL d.lc c i
    exact ⟨fun hi => ⟨o.2.trans (a.1 hi).1, fun j hj => (o.1 j).trans ((a.1 hi).2 j hj)⟩,
      fun hi => ⟨o.2.trans (a.2 hi).1, fun j => ((o.1 j).trans ((a.2 hi).2 j)).trans (p.1 j)⟩⟩
  | high =>
    have o := cfgBoth_other (cfgPeak (cfgPeak rf .left d.pk) .right d.pk) d.iL d.lc c
      (fun i' => (ne i' i).symm)
    have a := cfgBoth_cut (cfgCut (cfgCut (cfgPeak (cfgPeak rf .left d.pk) .right d.pk) .left .low
      d.iL d.lc) .right .low d.iL d.lc) .high d.iH d.hc c i
    exact ⟨fun hi => a.1 hi,
      fun hi => ⟨(a.2 hi).1, fun j => (((a.2 hi).2 j).trans (o.1 j)).trans (p.1 j)⟩⟩

end Sys2Proof.Machine
end

