-- ==== Sys2Proof/Tests/Slice0.lean ====
section
/-! SUPPORT. Small tests with results taken from the spec (the vectors of files 95 and 96 and the
examples of the rules), the smoke test of `WellFormed`, and for every statement with hypotheses a
concrete state and operands that meet them. -/

namespace Sys2Proof.Tests
open Sys2Proof Sys2Proof.Machine

-- One theorem at a time: each kernel evaluation that waits for the one before would hold a thread.
set_option Elab.async false

/-! ### Well-formedness: its one check -/

theorem test_wf_refuses_index_seven : (Instr.pwrite 7 0).wf = false := by decide

theorem test_wf_admits_boundary_operands :
    (Instr.pwrite 6 0).wf = true ∧ (Instr.process 0 0xFFFF).wf = true ∧ (Instr.rdreg 7).wf = true := by
  decide

/-! ### Decoding: words written out from the formats, each constructor once (R60 to R65) -/

theorem test_decode_prepare :
    decode (.command 0b00000001_00000000_0000001000000000#32) = .ok (.prepare 512) := by decide
theorem test_decode_process :
    decode (.command 0b00000010_00000011_0000000000000100#32) = .ok (.process 3 4) := by decide
theorem test_decode_illegal :
    decode (.command 0b00000001_00000010_0000001000000000#32) = .error .illegalCommand ∧
      decode (.command 0x1A000000#32) = .error .illegalCommand := by decide
theorem test_decode_slope2count : decode (.micro 0x10000000#32) = .ok .slope2count := by decide
theorem test_decode_slope2order : decode (.micro 0x11000000#32) = .ok .slope2order := by decide
theorem test_decode_calcPeak : decode (.micro 0x12000000#32) = .ok .calcPeak := by decide
theorem test_decode_calcCut : decode (.micro 0x13000000#32) = .ok .calcCut := by decide
theorem test_decode_bqLoad : decode (.micro 0x18000000#32) = .ok .bqLoad := by decide
theorem test_decode_bqReset : decode (.micro 0x19000000#32) = .ok .bqReset := by decide
theorem test_decode_bqStep : decode (.micro 0x1A000000#32) = .ok .bqStep := by decide
theorem test_decode_cfgCut : decode (.micro 0x20000000#32) = .ok .cfgCut := by decide
theorem test_decode_cascStep : decode (.micro 0x21000000#32) = .ok .cascStep := by decide
theorem test_decode_cfgPeak : decode (.micro 0x28000000#32) = .ok .cfgPeak := by decide
theorem test_decode_chainStep : decode (.micro 0x29000000#32) = .ok .chainStep := by decide
theorem test_decode_chainProc : decode (.micro 0x2A000000#32) = .ok .chainProc := by decide
theorem test_decode_snapshot : decode (.micro 0x30000000#32) = .ok .snapshot := by decide
theorem test_decode_pcheck : decode (.micro 0x31000000#32) = .ok .pcheck := by decide
theorem test_decode_update : decode (.micro 0x32000000#32) = .ok .update := by decide
theorem test_decode_updApply : decode (.micro 0x33000000#32) = .ok .updApply := by decide
theorem test_decode_no_tag : decode (.micro 0x14000000#32) = .error .noSuchTag := by decide
theorem test_decode_wrreg :
    decode (.bus 0b1_010_01000111001011000100010000000000#36) = .ok (.wrreg 2 0x472C4400) := by decide
theorem test_decode_rdreg :
    decode (.bus 0b0_001_11111111111111111111111111111111#36) = .ok (.rdreg 1) := by decide
theorem test_decode_pwrite :
    decode (.param 0b011_01000001010000000000000000000000#35) = .ok (.pwrite 3 0x41400000) := by decide
theorem test_decode_index_seven :
    decode (.param 0b111_00111111100000000000000000000000#35) = .error .ignoredIndex := by decide

/-! ### Small states -/

/-- The state an outcome goes on to. -/
def nextOf : Result → Option State
  | .next t => some t
  | _ => none

theorem nextOf_eq_some {r : Result} {t : State} (h : nextOf r = some t) : r = .next t := by
  cases r with
  | next u => exact congrArg _ (Option.some.inj h)
  | fault _ => cases h
  | refused _ => cases h

/-- The parameters of V-PC1: (20, 20000, 750, 0, 1, 0, 0). -/
def params1 : Params :=
  ⟨some 0x41A00000, some 0x469C4000, some 0x443B8000, some 0, some 0x3F800000, some 0, some 0⟩

/-- The sets of file 95, section 6. -/
def setA : CoefSet := ⟨0x3F000000, 0x3E800000, 0x3E000000, 0xBF000000, 0x3E800000⟩
def setB : CoefSet := ⟨0x3F800000, 0, 0, 0, 0x3F000000⟩
def setD : CoefSet := ⟨0x40000000, 0, 0, 0, 0⟩
def setE : CoefSet := ⟨0x3F800000, 0x3F800000, 0, 0, 0⟩
/-- The set of V-PK2. -/
def setPK2 : CoefSet := ⟨0x3F8D1C6F, 0xBFF4B2F0, 0x3F542F76, 0xBFF4B2F0, 0x3F6E6856⟩

/-- The reset state with latches, and a register file, for a micro-operation. -/
def withLatches (u : Latches) (rf : RegFile) : State := { State.reset with uop := u, rf := rf }

/-- The register file after reset. -/
def rf0 : RegFile := State.reset.rf

/-- Slot `(0, 4)` with a set and a delay line. -/
def rfPeak (set : CoefSet) (w1 w2 : F) : RegFile :=
  ((bqLoad rf0 .left .pk set).write .left .pk .w1 w1).write .left .pk .w2 w2

/-- Chain 0 as in V-CH1: a gain of 2, the set A, and `y[n] = x[n] + x[n-1]`, all slots at rest. -/
def rfCH1 : RegFile :=
  resetDelays
    (cfgCut (cfgPeak (cfgCut rf0 .left .low 0 [setD]) .left setA) .left .high 0 [setE])

/-- A state at a position of a command, with the parameters of V-PC1 in store and snapshot. -/
def atPosition (cmd : Cmd) (ph : Phase) (sr : F) : State :=
  { State.reset with
    seq := .run cmd ph, par := params1, argSr := sr, sr := sr
    stg := { Staging.dead with snap := params1, rate := sr } }

/-- A halted state. -/
def halted : State := { State.reset with seq := .halt, fault := 2 }

/-! ### One step each: expected values from the spec -/

/-- R74's example. -/
theorem test_slope2count :
    (nextOf (exec .slope2count (withLatches { Latches.initial with idx := 2 } rf0))).map (·.uop.count)
      = some 3 := by decide +kernel

/-- R75's example. -/
theorem test_slope2order :
    (nextOf (exec .slope2order (withLatches { Latches.initial with idx := 3 } rf0))).map (·.uop.order)
      = some .o8 := by decide +kernel

/-- V-PK2, with the reference realisation. -/
theorem test_peak_design :
    peakDesign refNum 0x472C4400 0x447A0000 0x3F800000 0x41400000 = setPK2 := by decide +kernel

/-- V-PK7: the widest band, the most boost, a negative cosine. -/
theorem test_peak_design_boundary :
    peakDesign refNum 0x472C4400 0x469C4000 0x3DCCCCCD 0x41C00000
      = ⟨0x409E32FB, 0x3FB40BEB, 0xC05E64CD, 0x3FB40BEB, 0x3EF00942⟩ := by decide +kernel

/-- V-CT1, with the reference realisation. -/
theorem test_cut_design_highpass :
    cutDesign refNum 0x447A0000 0x473B8000 .o2 .hp
      = [⟨0x3F695DBE, 0xBFE95DBE, 0x3F695DBE, 0xBFE85D18, 0x3F54BCC8⟩] := by decide +kernel

/-- V-CT6: two sections of a lowpass, in order. -/
theorem test_cut_design_lowpass :
    cutDesign refNum 0x459C4000 0x472C4400 .o4 .lp
      = [⟨0x3D9B4407, 0x3E1B4407, 0x3D9B4407, 0xBF7197BE, 0x3E7CE70B⟩,
         ⟨0x3DC7335A, 0x3E47335A, 0x3DC7335A, 0xBF9AFA43, 0x3F198E36⟩] := by decide +kernel

/-- V-BQ4: a load leaves the delay line. -/
theorem test_bqLoad :
    (nextOf (exec .bqLoad
        (withLatches { Latches.initial with k := .pk, set := setA }
          (rfPeak setD 0x40C00000 0x40E00000)))).map (·.rf.slot .left .pk)
      = some ⟨some 0x3F000000, some 0x3E800000, some 0x3E000000, some 0xBF000000, some 0x3E800000,
          some 0x40C00000, some 0x40E00000⟩ := by decide +kernel

/-- V-BQ4: a reset leaves the coefficients (1, 2, 3, 4, 5). -/
theorem test_bqReset :
    (nextOf (exec .bqReset
        (withLatches { Latches.initial with k := .pk }
          (rfPeak ⟨0x3F800000, 0x40000000, 0x40400000, 0x40800000, 0x40A00000⟩ 0x40C00000
            0x40E00000)))).map (·.rf.slot .left .pk)
      = some ⟨some 0x3F800000, some 0x40000000, some 0x40400000, some 0x40800000, some 0x40A00000,
          some 0, some 0⟩ := by decide +kernel

/-- V-BQ1, step 1. -/
theorem test_bqStep_exact :
    (nextOf (exec .bqStep
        (withLatches { Latches.initial with k := .pk } (rfPeak setA 0x3F800000 0)))).map
        (fun t => (t.uop.y, t.rf.read .left .pk .w1, t.rf.read .left .pk .w2))
      = some (0x3F000000, some 0x3F000000, some 0x3F800000) := by decide +kernel

/-- V-BQ2, step 2: rounding. -/
theorem test_bqStep_rounds :
    (nextOf (exec .bqStep
        (withLatches { Latches.initial with k := .pk, x := 0xBE800000 }
          (rfPeak setPK2 0x401A5978 0x3F800000)))).map
        (fun t => (t.uop.y, t.rf.read .left .pk .w1, t.rf.read .left .pk .w2))
      = some (0xBA9A0C00, some 0x405B783C, some 0x401A5978) := by decide +kernel

/-- R99's example (V-CA2): from all active to 1,1,0,0. -/
theorem test_cfgCut :
    (nextOf (exec .cfgCut
        (withLatches { Latches.initial with idx := 1, seqn := [setA, setB] }
          (cfgCut rf0 .left .low 3 [setD, setD, setD, setD])))).map
        (fun t => (cutSlots.map fun i => t.rf.flag .left (slotOf .low i), t.rf.slot .left .lc1,
          t.rf.read .left .lc2 .b0))
      = some ([some true, some true, some false, some false],
          ⟨some 0x3F800000, some 0, some 0, some 0, some 0x3F000000, none, none⟩, some 0x40000000) := by
  decide +kernel

/-- V-CA7, step 1: the second slot takes the first one's output. -/
theorem test_cascStep :
    (nextOf (exec .cascStep
        (withLatches { Latches.initial with x := 0x3F800000 }
          (resetDelays (cfgCut rf0 .left .low 1 [setA, setB]))))).map
        (fun t => (t.uop.y, t.rf.read .left .lc0 .w1, t.rf.read .left .lc1 .w1,
          t.rf.read .left .lc2 .w1))
      = some (0x3F000000, some 0x3F800000, some 0x3F000000, some 0) := by decide +kernel

/-- V-CA6: a bypassed cascade passes a signalling NaN's bits. -/
theorem test_cascStep_bypass :
    (nextOf (exec .cascStep
        (withLatches { Latches.initial with x := 0x7F812345 } (bypassAll rf0 .left .low)))).map
        (fun t => (t.uop.y, t.rf == bypassAll rf0 .left .low))
      = some (0x7F812345, true) := by decide +kernel

/-- R108: the peak slot, and nothing of the other chain. -/
theorem test_cfgPeak :
    (nextOf (exec .cfgPeak (withLatches { Latches.initial with c := .right, set := setA } rf0))).map
        (fun t => (t.rf.read .right .pk .a1, t.rf.read .left .pk .a1))
      = some (some 0xBF000000, none) := by decide +kernel

/-- V-CH1, step 0. -/
theorem test_chainStep :
    (nextOf (exec .chainStep (withLatches { Latches.initial with x := 0x3F800000 } rfCH1))).map
        (·.uop.y)
      = some 0x3F800000 := by decide +kernel

/-- V-CH1, step 0, in the buffer: sample 0 of channel 0 is filtered in place, sample 1 is not. -/
theorem test_chainProc :
    (nextOf (exec .chainProc
        (memWrite (memWrite (withLatches { Latches.initial with len := 2 } rfCH1) 0 0 0x3F800000)
          0 1 0xBF800000))).map
        (fun t => (memRead t 0 0, memRead t 0 1, t.micro))
      = some (0x3F800000, 0xBF800000, some (.chainProc 1)) := by decide +kernel

/-- V-CH3. -/
theorem test_chainProc_empty : nextOf (exec .chainProc State.reset) = some State.reset := by
  decide +kernel

/-- R116: the fourth read. -/
theorem test_snapshot :
    (nextOf (exec .snapshot
        { State.reset with par := params1, micro := some (.snapshot .peakGainDb) })).map
        (fun t => (t.stg.snap.peakGainDb, t.stg.snap.peakFreq, t.micro))
      = some (some 0, none, some (.snapshot .peakQuality)) := by decide +kernel

/-- V-PC4 and V-PC3: just above and exactly at the limit. -/
theorem test_pcheck_nyquist :
    checkParams params1 0x471C4001 = none ∧ checkParams params1 0x471C4000 = some .nyq := by
  decide +kernel

/-- V-PC6, V-PC8, V-PC9, V-PC12, V-PC16, V-PC18. -/
theorem test_pcheck_param :
    checkParams { params1 with highCutSlope := none } 0x472C4400 = some .param ∧
      checkParams { params1 with highCutFreq := some 0x469C4001 } 0x472C4400 = some .param ∧
      checkParams { params1 with peakFreq := some 0x7FC00000 } 0x472C4400 = some .param ∧
      checkParams { params1 with peakQuality := some 0x3DCCCCCC } 0x472C4400 = some .param ∧
      checkParams { params1 with highCutSlope := some 0x3FC00000 } 0x472C4400 = some .param ∧
      checkParams { params1 with peakGainDb := some 0x42C60000 } 0x46FA0000 = some .param := by
  decide +kernel

/-- R115: the first step of an update reads `P[0]`. -/
theorem test_update :
    (nextOf (exec .update { State.reset with par := params1 })).map
        (fun t => (t.stg.snap.lowCutFreq, t.micro))
      = some (some 0x41A00000, some (.update (.snap .highCutFreq))) := by decide +kernel

/-- V-UP3 with any elementary functions: `act[c][0..8] = 1,1,1,1,1,1,1,0,0`. -/
theorem test_updApply :
    allSlots.map
        ((loadDesign
            (designOf refNum
              ⟨some 0x447A0000, some 0x459C4000, some 0x447A0000, some 0x41400000, some 0x3F800000,
                some 0x40400000, some 0x3F800000⟩ 0x472C4400) rf0).flag .right)
      = [some true, some true, some true, some true, some true, some true, some true, some false,
          some false] := by decide +kernel

/-- V-UP1, with the reference realisation: slots 0, 4 and 5. -/
theorem test_updApply_sets :
    designOf refNum params1 0x472C4400
      = { pk := ⟨0x3F800000, 0xBFF1A73A, 0x3F661436, 0xBFF1A73A, 0x3F661436⟩
          iL := 0, lc := [⟨0x3F7F7C16, 0xBFFF7C16, 0x3F7F7C16, 0xBFFF7BF4, 0x3F7EF86F⟩]
          iH := 0, hc := [⟨0x3F5030C3, 0x3FD030C3, 0x3F5030C3, 0x3FCBAFBE, 0x3F29638F⟩] } := by
  decide +kernel

/-- V-F12: `PREPARE` with `ARG_SR` at its reset value. -/
theorem test_prepare_sr :
    (nextOf (exec (.prepare 512) (atPosition (.prepare 512) .check 0))).map statusWord
      = some 0x00001002 := by decide +kernel

/-- V-F5: `PROCESS` before `PREPARE`. -/
theorem test_process_notprep :
    (nextOf (exec (.process 2 64) (atPosition (.process 2 64) .check 0x472C4400))).map statusWord
      = some 0x00000202 := by decide +kernel

/-- V-F10: the channel count before the length. -/
theorem test_process_nch :
    (nextOf (exec (.process 1 513)
        { atPosition (.process 1 513) .check 0x472C4400 with prep := true, maxblk := 512 })).map
        statusWord
      = some 0x00000403 := by decide +kernel

/-- V-R: any pattern is stored in `ARG_SR`; a read-only register ignores the write. -/
theorem test_wrreg :
    (nextOf (exec (.wrreg 2 0xDEADBEEF) State.reset)).map (·.argSr) = some 0xDEADBEEF ∧
      nextOf (exec (.wrreg 3 0x472C4400) State.reset) = some State.reset := by decide +kernel

/-- V-F1, V-F4: illegal words. -/
theorem test_wrreg_illegal :
    (nextOf (exec (.wrreg 0 0x00000000) State.reset)).map statusWord = some 0x00000102 ∧
      (nextOf (exec (.wrreg 0 0x01020200) State.reset)).map statusWord = some 0x00000102 := by
  decide +kernel

/-- R134's second example. -/
theorem test_rdreg : (nextOf (exec (.rdreg 1) halted)).map (·.hostData) = some 0x00000202 := by
  decide +kernel

/-- R132's example, and index 7 of V-R. -/
theorem test_pwrite :
    (nextOf (exec (.pwrite 3 0x41400000) halted)).map (·.par.peakGainDb) = some (some 0x41400000) ∧
      nextOf (exec (.pwrite 7 0x3F800000) State.reset) = some State.reset := by decide +kernel

/-- V-SD2, V-SD8, V-SD12. -/
theorem test_slope_index :
    slopeIndex 0x80000000 = some 0 ∧ slopeIndex 0x403FFFFF = none ∧ slopeIndex 0x00000003 = none := by
  decide +kernel

/-- R53: a `PWRITE` lands between two reads of a snapshot. -/
theorem test_pwrite_inside_snapshot :
    (nextOf (step
        { atPosition (.process 2 0) (.snap .peakGainDb) 0x472C4400 with
          listing := [.send (.param 0x340C00000#35)] })).map (fun t => (t.par.peakGainDb, t.seq))
      = some (some 0x40C00000, .run (.process 2 0) (.snap .peakGainDb)) := by decide +kernel

/-- A fetched table word runs in the next step. -/
theorem test_fetch_word :
    (nextOf (step (State.reset.withFetchWord 32 0x01000200))).map (·.seq)
      = some (.run (.prepare 512) .check) := by
  decide +kernel

/-! ### Witnesses: for every statement with hypotheses, a state and operands that meet them together -/

theorem witness_DecodeEncode :
    (Instr.pwrite 6 0xFFFFFFFF).WellFormed ∧ (Instr.process 0xFF 0xFFFF).WellFormed := by decide

theorem witness_EncodeDecode :
    decode (.command 0x02FFFFFF#32) = .ok (.process 0xFF 0xFFFF) ∧
      decode (.bus 0x7FFFFFFFF#36) = .ok (.rdreg 7) := by decide

theorem witness_CommandWordPartition :
    (0x0100FFFF#32 &&& 0xFFFF0000#32 = 0x01000000#32) ∧
      (0x02FFFFFF#32 &&& 0xFF000000#32 = 0x02000000#32) ∧
      (0x01010000#32 &&& 0xFFFF0000#32 ≠ 0x01000000#32 ∧
        0x01010000#32 &&& 0xFF000000#32 ≠ 0x02000000#32) ∧
      (0x03000000#32 &&& 0xFFFF0000#32 ≠ 0x01000000#32 ∧
        0x03000000#32 &&& 0xFF000000#32 ≠ 0x02000000#32) := by decide

/-- The reset state with a listing. -/
def listed (l : List Move) : State := { State.reset with listing := l }

theorem witness_StepRunsDecoded :
    ((listed [.send (.bus 0xA472C4400#36)]).listing = .send (.bus 0xA472C4400#36) :: [] ∧
      mustWait (.send (.bus 0xA472C4400#36)) (listed [.send (.bus 0xA472C4400#36)]) = false ∧
      decode (.bus 0xA472C4400#36) = .ok (.wrreg 2 0x472C4400) ∧
      (Instr.wrreg 2 0x472C4400).WellFormed) ∧
      busy State.reset = false ∧ decodeTableWord 35 0x341400000 = some (.pwrite 3 0x41400000) := by
  decide +kernel

/-- A `PROCESS` at its first read, with a listing. -/
def inFlight (l : List Move) : State :=
  { atPosition (.process 2 1) (.snap .lowCutFreq) 0x472C4400 with listing := l }

theorem witness_OnlyParameterAgentMoves :
    (inFlight []).seq = .run (.process 2 1) (.snap .lowCutFreq) ∧ (inFlight []).listing = [] ∧
      (inFlight [.send (.command 0)]).listing = .send (.command 0) :: [] ∧
      (inFlight [.bufRead 0 0]).listing = .bufRead 0 0 :: [] ∧
      (inFlight [.send (.param (6#3 ++ 0#32))]).listing = .send (.param (6#3 ++ 0#32)) :: [] := by
  decide +kernel

theorem witness_SlopeToCount :
    (withLatches { Latches.initial with idx := 3 } rf0).seq ≠ .halt := by decide

theorem witness_SlopeToOrder :
    (withLatches { Latches.initial with idx := 3 } rf0).seq ≠ .halt := by decide

/-- The operands of V-PK2, with a gain. -/
def peakState (gdb : F) : State :=
  withLatches
    { Latches.initial with sr := 0x472C4400, freq := 0x447A0000, q := 0x3F800000, gdb := gdb } rf0

theorem witness_PeakDesignResult : (peakState 0x41400000).seq ≠ .halt := by decide

/-- The sine of V-PK2 is one of three patterns, whatever the implementation (R79 E3). -/
theorem sin_of_w0 :
    numFns.sin 0x3E11E531 = 0x3E1166F4 ∨ numFns.sin 0x3E11E531 = 0x3E1166F5 ∨
      numFns.sin 0x3E11E531 = 0x3E1166F6 := by
  have hd : inTrigDomain 0x3E11E531 = true := by decide +kernel
  have hx : numFns.sin 0x3E11E531
      = heldTo (sinRatio 0x3E11E531) isPositive (Config.rawSin 0x3E11E531) := by
    simp only [numFns, hd, if_true]
  rw [hx]
  rcases heldTo_cases (sinRatio 0x3E11E531) isPositive (Config.rawSin 0x3E11E531) with
    ⟨h, e⟩ | e | ⟨h, _⟩
  · rw [e]
    have := within_near (e := 0x7C) (f := 0x1166F5) (by decide +kernel) h (by decide +kernel)
      (by decide) (by decide) (by decide) (by decide +kernel) (by decide +kernel)
    simp only [BitVec.toNat_eq]
    simp at this ⊢
    omega
  · rw [e]
    right
    left
    decide +kernel
  · exact absurd h (by decide +kernel)

/-- The tangent of V-CT1 is one of three patterns, whatever the implementation (R79 E3). -/
theorem tan_of_V_CT1 :
    numFns.tan 0x3D860A92 = 0x3D863BA6 ∨ numFns.tan 0x3D860A92 = 0x3D863BA7 ∨
      numFns.tan 0x3D860A92 = 0x3D863BA8 := by
  have hd : inTanDomain 0x3D860A92 = true := by decide +kernel
  have hx : numFns.tan 0x3D860A92
      = heldTo (tanRatio 0x3D860A92) isPositive (Config.rawTan 0x3D860A92) := by
    simp only [numFns, hd, if_true]
  rw [hx]
  rcases heldTo_cases (tanRatio 0x3D860A92) isPositive (Config.rawTan 0x3D860A92) with
    ⟨h, e⟩ | e | ⟨h, _⟩
  · rw [e]
    have := within_near (e := 0x7B) (f := 0x063BA7) (by decide +kernel) h (by decide +kernel)
      (by decide) (by decide) (by decide) (by decide +kernel) (by decide +kernel)
    simp only [BitVec.toNat_eq]
    simp at this ⊢
    omega
  · rw [e]
    right
    left
    decide +kernel
  · exact absurd h (by decide +kernel)

theorem w0_of_V_PK2 : fDiv (fMul 0x40C90FDB#32 0x447A0000) 0x472C4400 = 0x3E11E531 := by
  decide +kernel

theorem witness_FlatPeak :
    (peakState 0x80000000).seq ≠ .halt ∧ (∃ t, exec .calcPeak (peakState 0x80000000) = .next t) ∧
      isZero (peakState 0x80000000).uop.gdb = true ∧
      (let alpha := fDiv (numFns.sin (fDiv (fMul 0x40C90FDB#32 0x447A0000) 0x472C4400))
        (fMul 0x40000000#32 0x3F800000)
      let a0 := fAdd 0x3F800000#32 (fDiv alpha 0x3F800000#32)
      isNaN alpha = false ∧ isFinite a0 = true ∧ isZero a0 = false) := by
  refine ⟨by decide, ⟨_, rfl⟩, by decide +kernel, ?_⟩
  rw [w0_of_V_PK2]
  rcases sin_of_w0 with h | h | h <;> rw [h] <;> decide +kernel

/-- The operands of V-CT1. -/
def cutState : State :=
  withLatches
    { Latches.initial with freq := 0x447A0000, sr := 0x473B8000, order := .o2, kind := .hp } rf0

theorem witness_CutDesignResult : cutState.seq ≠ .halt := by decide

theorem pi_fc_of_V_CT1 : fDiv (fMul fPi 0x447A0000) 0x473B8000 = 0x3D860A92 := by decide +kernel

theorem witness_HighpassBlocksConstant :
    cutState.seq ≠ .halt ∧ cutState.uop.kind = .hp ∧
      ∃ t c, exec .calcCut cutState = .next t ∧ c ∈ t.uop.seqn ∧ isFinite c.b1 = true := by
  refine ⟨by decide, rfl, _, _, rfl, List.mem_singleton.mpr rfl, ?_⟩
  show isFinite (cutSection .hp (numFns.tan (fDiv (fMul fPi 0x447A0000) 0x473B8000))
    (fMul (numFns.tan (fDiv (fMul fPi 0x447A0000) 0x473B8000))
      (numFns.tan (fDiv (fMul fPi 0x447A0000) 0x473B8000))) 0x3FB504F3#32).b1 = true
  rw [pi_fc_of_V_CT1]
  rcases tan_of_V_CT1 with h | h | h <;> rw [h] <;> decide +kernel

theorem witness_ElementarySigns :
    isZero 0x80000000 = true ∧ (fLt 0 0x00000001 = true ∧ fLt 0x00000001 0x40490FDB = true) ∧
      fLt 0x40490FDA 0x40490FDB = true ∧
      (fLt 0 0x3FC90FDA = true ∧ fLt 0x3FC90FDA 0x3FC90FDB = true) ∧
      fLe 0xBF99999A 0xBF99999A = true ∧ fLe 0x3F99999A 0x3F99999A = true := by decide +kernel

/-- A section with the set A and a delay line, fed a sample. -/
def sectionState (x w1 w2 : F) : State :=
  withLatches { Latches.initial with k := .pk, x := x, set := setB } (rfPeak setA w1 w2)

theorem witness_SectionLoad : (sectionState 0 0 0).seq ≠ .halt := by decide
theorem witness_SectionReset : (sectionState 0 0 0).seq ≠ .halt := by decide
theorem witness_SectionStep : (sectionState 0x3F800000 0 0).seq ≠ .halt := by decide

theorem witness_SectionRestStaysRest :
    let s := sectionState 0x80000000 0 0x80000000
    s.seq ≠ .halt ∧ (∃ t, exec .bqStep s = .next t) ∧
      (∀ j, isDelay j = false → isFinite (s.rf.value s.uop.c s.uop.k j) = true) ∧
      isZero (s.rf.value s.uop.c s.uop.k .w1) = true ∧
      isZero (s.rf.value s.uop.c s.uop.k .w2) = true ∧ isZero s.uop.x = true := by
  refine ⟨by decide, ⟨_, rfl⟩, ?_, by decide +kernel, by decide +kernel, by decide +kernel⟩
  intro j
  cases j <;> decide +kernel

theorem witness_NaNStaysInSection :
    ((sectionState 0x7FC00000 0 0).seq ≠ .halt ∧
      (∃ t, exec .bqStep (sectionState 0x7FC00000 0 0) = .next t) ∧
      isNaN (sectionState 0x7FC00000 0 0).uop.x = true) ∧
      ((∃ t, exec .bqStep (sectionState 0 0x7F800001 0) = .next t) ∧
        isNaN ((sectionState 0 0x7F800001 0).rf.value .left .pk .w1) = true) ∧
      (∃ t, exec .bqStep (sectionState 0 0 0xFFC00000) = .next t) ∧
        isNaN ((sectionState 0 0 0xFFC00000).rf.value .left .pk .w2) = true :=
  ⟨⟨by decide, ⟨_, rfl⟩, by decide +kernel⟩, ⟨⟨_, rfl⟩, by decide +kernel⟩, ⟨_, rfl⟩,
    by decide +kernel⟩

/-- The operands of V-CA2 and of V-CA4's index. -/
def cascadeState (idx : SlopeIndex) : State :=
  withLatches { Latches.initial with idx := idx, seqn := [setA, setB], x := 0x3F800000 }
    (resetDelays (cfgCut rf0 .left .low 1 [setA, setB]))

theorem witness_ConfigureCut :
    (cascadeState 1).seq ≠ .halt ∧ (cascadeState 1).uop.seqn[1]? = some setB ∧
      (0 : Fin 4).val ≤ (cascadeState 0).uop.idx.toNat ∧
      (cascadeState 2).uop.idx.toNat < (3 : Fin 4).val := by decide

theorem witness_CutCountExact :
    (cascadeState 3).seq ≠ .halt ∧ ∃ t, exec .cfgCut (cascadeState 3) = .next t :=
  ⟨by decide, _, rfl⟩

theorem witness_CascadeStep :
    (cascadeState 1).seq ≠ .halt ∧ (cascadeState 1).rf.active .left .lc1 = true ∧
      (cascadeState 1).rf.active .left .lc2 = false := by decide +kernel

theorem witness_ConfigurePeak : (sectionState 0 0 0).seq ≠ .halt := by decide

theorem witness_ChainStepNineSlots :
    (withLatches { Latches.initial with x := 0x3F800000 } rfCH1).seq ≠ .halt ∧
      rfCH1.active .left .hc0 = true ∧ rfCH1.active .left .hc3 = false := by decide +kernel

/-- A `CHAIN_PROC` of two samples, at a position. -/
def blockState (m : Option MicroPos) : State :=
  { memWrite (withLatches { Latches.initial with len := 2 } rfCH1) 0 0 0x3F800000 with micro := m }

theorem witness_ChainProcIteration :
    ((blockState none).seq ≠ .halt ∧ (blockState none).buf.wf = true ∧
      (blockState none).micro = none ∧ 0 < (blockState none).uop.len) ∧
      ((blockState (some (.chainProc 1))).seq ≠ .halt ∧
        (blockState (some (.chainProc 1))).micro = some (.chainProc 1) ∧
        1 < (blockState (some (.chainProc 1))).uop.len) ∧
      State.reset.uop.len = 0 := by decide +kernel

/-- The reset state with a snapshot, a rate and a position of a micro-operation. -/
def updateState (p : Params) (sr : F) (m : Option MicroPos) : State :=
  { State.reset with
    par := params1, stg := { Staging.dead with snap := p }
    uop := { Latches.initial with sr := sr }, micro := m }

theorem witness_SnapshotStep :
    ((updateState params1 0 none).seq ≠ .halt ∧ (updateState params1 0 none).micro = none) ∧
      (updateState params1 0 (some (.snapshot .highCutSlope))).micro
        = some (.snapshot .highCutSlope) := by decide

theorem witness_SnapshotInterleaving :
    ((inFlight [.send (.param (3#3 ++ 0x41400000#32))]).seq
        = .run (.process 2 1) (.snap .lowCutFreq) ∧
      paramOfIndex 3 = some .peakGainDb ∧
      (inFlight [.send (.param (3#3 ++ 0x41400000#32))]).listing
        = List.replicate 0 .core ++ [.send (.param (3#3 ++ 0x41400000#32))]) ∧
      (inFlight (List.replicate 7 .core ++ [.send (.param (6#3 ++ 0#32))])).listing
        = List.replicate 7 .core ++ [.send (.param (6#3 ++ 0#32))] := by decide

theorem allLegal_params1 : AllLegal params1 := by
  intro j
  cases j <;> exact ⟨_, rfl, by simp only [LegalParam]; decide +kernel⟩

/-- V-PC4's rate is just high enough. -/
theorem belowHalf_params1 : BelowHalf params1 0x471C4001 := by
  rintro j v (rfl | rfl | rfl) h <;> obtain rfl := Option.some.inj h <;> decide +kernel

theorem belowHalf_44100 : BelowHalf params1 0x472C4400 := by
  rintro j v (rfl | rfl | rfl) h <;> obtain rfl := Option.some.inj h <;> decide +kernel

/-- V-PC3's rate is just too low. -/
theorem not_belowHalf_params1 : ¬BelowHalf params1 0x471C4000 := fun h =>
  absurd (h .highCutFreq 0x469C4000 (.inr (.inl rfl)) rfl) (by decide +kernel)

/-- V-PC6: a cell without a value. -/
theorem not_allLegal_novalue : ¬AllLegal { params1 with highCutSlope := none } := fun h => by
  obtain ⟨v, hv, -⟩ := h .highCutSlope
  cases hv

/-- V-PC8: just above 20000 Hz. -/
theorem not_allLegal_high : ¬AllLegal { params1 with highCutFreq := some 0x469C4001 } := fun h => by
  obtain ⟨v, hv, hl⟩ := h .highCutFreq
  obtain rfl := Option.some.inj hv
  exact absurd hl.2 (by decide +kernel)

theorem witness_ParameterCheck :
    ((updateState params1 0x471C4001 none).seq ≠ .halt ∧
      AllLegal (updateState params1 0x471C4001 none).stg.snap ∧
      BelowHalf (updateState params1 0x471C4001 none).stg.snap
        (updateState params1 0x471C4001 none).uop.sr) ∧
      ¬AllLegal (updateState { params1 with highCutSlope := none } 0 none).stg.snap ∧
      ¬AllLegal (updateState { params1 with highCutFreq := some 0x469C4001 } 0 none).stg.snap ∧
      ¬BelowHalf (updateState params1 0x471C4000 none).stg.snap
        (updateState params1 0x471C4000 none).uop.sr :=
  ⟨⟨by decide, allLegal_params1, belowHalf_params1⟩, not_allLegal_novalue, not_allLegal_high,
    not_belowHalf_params1⟩

theorem witness_UpdateSteps :
    (updateState params1 0x471C4001 none).micro = none ∧
      ((updateState params1 0x471C4001 (some (.update .pcheck))).seq ≠ .halt ∧
        (updateState params1 0x471C4001 (some (.update .pcheck))).micro = some (.update .pcheck) ∧
        AllLegal (updateState params1 0x471C4001 (some (.update .pcheck))).stg.snap ∧
        BelowHalf (updateState params1 0x471C4001 (some (.update .pcheck))).stg.snap 0x471C4001) ∧
      (updateState params1 0 (some (.update .commit))).micro = some (.update .commit) :=
  ⟨rfl, ⟨by decide, rfl, allLegal_params1, belowHalf_params1⟩, rfl⟩

theorem witness_UpdateApply :
    (updateState params1 0x472C4400 none).seq ≠ .halt ∧
      AllLegal (updateState params1 0x472C4400 none).stg.snap := ⟨by decide, allLegal_params1⟩

/-- Two states with one snapshot and rate, and different registers. -/
theorem witness_UpdateIdempotent :
    let s := updateState params1 0x472C4400 none
    let s' := { s with rf := rfCH1 }
    s.seq ≠ .halt ∧ s'.seq ≠ .halt ∧ s.stg.snap = s'.stg.snap ∧ s.uop.sr = s'.uop.sr ∧
      (∃ t, exec .updApply s = .next t) ∧ ∃ t, exec .updApply s' = .next t :=
  ⟨by decide, by decide, rfl, rfl, ⟨_, rfl⟩, _, rfl⟩

theorem witness_UpdateWritesNoDelayLine :
    (∃ t, exec .snapshot (cascadeState 1) = .next t) ∧ (∃ t, exec .pcheck (cascadeState 1) = .next t) ∧
      (∃ t, exec .updApply (cascadeState 1) = .next t) ∧
      (∃ t, exec .cfgPeak (cascadeState 1) = .next t) ∧
      (∃ t, exec .cfgCut (cascadeState 1) = .next t) ∧
      (∃ t, exec .bqLoad (cascadeState 1) = .next t) ∧ ∃ t, exec .update (cascadeState 1) = .next t :=
  ⟨⟨_, rfl⟩, ⟨_, rfl⟩, ⟨_, rfl⟩, ⟨_, rfl⟩, ⟨_, rfl⟩, ⟨_, rfl⟩, _, rfl⟩

theorem witness_PrepareCheck :
    State.reset.seq = .idle ∧
      (∀ sr : F, sr = 0x00000001 ∨ sr = 0x7F7FFFFF →
        (atPosition (.prepare 0) .check sr).seq = .run (.prepare 0) .check ∧
          0 < (atPosition (.prepare 0) .check sr).argSr.toNat ∧
          (atPosition (.prepare 0) .check sr).argSr.toNat < 0x7F800000) ∧
      ∀ sr : F, sr = 0x00000000 ∨ sr = 0x7F800000 ∨ sr = 0x80000001 →
        ¬(0 < (atPosition (.prepare 0) .check sr).argSr.toNat ∧
          (atPosition (.prepare 0) .check sr).argSr.toNat < 0x7F800000) := by
  refine ⟨rfl, ?_, ?_⟩
  · rintro sr (rfl | rfl) <;> decide
  · rintro sr (rfl | rfl | rfl) <;> decide

theorem witness_CommandSnapAndCheck :
    (atPosition (.prepare 0) (.snap .highCutSlope) 0).seq
        = .run (.prepare 0) (.snap .highCutSlope) ∧
      ((atPosition (.process 2 0) .pcheck 0x471C4001).seq = .run (.process 2 0) .pcheck ∧
        AllLegal (atPosition (.process 2 0) .pcheck 0x471C4001).stg.snap ∧
        BelowHalf (atPosition (.process 2 0) .pcheck 0x471C4001).stg.snap
          (atPosition (.process 2 0) .pcheck 0x471C4001).sr) ∧
      ¬BelowHalf (atPosition (.prepare 0) .pcheck 0x471C4000).stg.snap
        (atPosition (.prepare 0) .pcheck 0x471C4000).stg.rate :=
  ⟨rfl, ⟨rfl, allLegal_params1, belowHalf_params1⟩, not_belowHalf_params1⟩

theorem witness_PrepareCommit :
    (atPosition (.prepare 512) .commit 0x472C4400).seq = .run (.prepare 512) .commit ∧
      AllLegal (atPosition (.prepare 512) .commit 0x472C4400).stg.snap := ⟨rfl, allLegal_params1⟩

/-- R126's example, before its command word. -/
def beforePrepare : State :=
  { State.reset with
    par := params1, argSr := 0x472C4400, listing := [.send (.command (0x0100#16 ++ 512#16))] }

theorem witness_PrepareRun :
    beforePrepare.seq = .idle ∧ beforePrepare.micro = none ∧
      beforePrepare.listing = [.send (.command (0x0100#16 ++ 512#16))] ∧
      0 < beforePrepare.argSr.toNat ∧ beforePrepare.argSr.toNat < 0x7F800000 ∧
      AllLegal beforePrepare.par ∧ BelowHalf beforePrepare.par beforePrepare.argSr :=
  ⟨rfl, rfl, rfl, by decide, by decide, allLegal_params1, belowHalf_44100⟩

/-- A `PROCESS` at its `CHECK` on a core prepared for 512 samples. -/
def atCheck (prep : Bool) (nch : BitVec 8) (len : BitVec 16) : State :=
  { atPosition (.process nch len) .check 0x472C4400 with prep := prep, maxblk := 512 }

theorem witness_ProcessCheck :
    State.reset.seq = .idle ∧ (atCheck false 2 0).seq = .run (.process 2 0) .check ∧
      (atCheck false 2 0).prep = false ∧
      ((atCheck true 1 0).prep = true ∧ (1 : BitVec 8).toNat < 2) ∧
      ((atCheck true 2 513).prep = true ∧ 2 ≤ (2 : BitVec 8).toNat ∧
        (atCheck true 2 513).maxblk.toNat < (513 : BitVec 16).toNat) ∧
      (atCheck true 2 512).seq = .run (.process 2 512) .check ∧ (atCheck true 2 512).prep = true ∧
      (512 : BitVec 16).toNat ≤ (atCheck true 2 512).maxblk.toNat := by decide

/-- A core prepared for 512 samples, with the word of a `PROCESS` of `len` samples of two channels to
come; sample 0 of channel 0 is `x`, the others are `+0.0`. -/
def beforeProcess (len : BitVec 16) (x : F) : State :=
  { memWrite State.reset 0 0 x with
    par := params1, sr := 0x472C4400, prep := true, maxblk := 512, rf := rfCH1
    listing := [.send (.command (0x02#8 ++ 2#8 ++ len))] }

theorem ready_beforeProcess (len : BitVec 16) (x : F) (h : len.toNat ≤ 512) :
    ReadyToProcess 2 len (beforeProcess len x) :=
  ⟨rfl, rfl, rfl, rfl, by decide, h, allLegal_params1, belowHalf_44100,
    storeCell_wf _ _ rfl⟩

/-- Two samples of each channel, one after the other: channel 0 is `(1.0, 0.0)` and channel 1 is
`(0.0, 0.0)`; the second command has channel 0 at `0.0`, and the registers the first one left. -/
theorem witness_StreamingAcrossBlocks : ∃ a' : State,
    Host.Core.run Sys2Proof.core 13 (beforeProcess 1 0x3F800000) = .next a' ∧
      (1 : BitVec 16).toNat + (1 : BitVec 16).toNat < 65536 ∧
      ReadyToProcess 2 (1 + 1) (beforeProcess 2 0x3F800000) ∧
      ReadyToProcess 2 1 (beforeProcess 1 0x3F800000) ∧
      ReadyToProcess 2 1 { beforeProcess 1 0 with rf := a'.rf } ∧
      ∀ ch : BitVec 8, ch < 2 →
        blockOf (beforeProcess 2 0x3F800000) ch (1 + 1)
          = blockOf (beforeProcess 1 0x3F800000) ch 1
            ++ blockOf { beforeProcess 1 0 with rf := a'.rf } ch 1 := by
  have h : (nextOf (Host.Core.run Sys2Proof.core 13 (beforeProcess 1 0x3F800000))).isSome = true := by
    decide +kernel
  obtain ⟨a', ha⟩ := Option.isSome_iff_exists.1 h
  have hb : ∀ ch : BitVec 8, ch < 2 → blockOf (beforeProcess 2 0x3F800000) ch 2
      = blockOf (beforeProcess 1 0x3F800000) ch 1 ++ blockOf (beforeProcess 1 0) ch 1 := by
    decide +kernel
  obtain ⟨h1, h2, h3, h4, h5, h6, h7, h8, h9⟩ := ready_beforeProcess 1 0 (by decide)
  exact ⟨a', nextOf_eq_some ha, by decide, ready_beforeProcess 2 _ (by decide),
    ready_beforeProcess 1 _ (by decide), ⟨h1, h2, h3, h4, h5, h6, h7, h8, h9⟩, hb⟩

theorem witness_ProcessCommit :
    (∀ len : BitVec 16, len = 0 ∨ len = 1 →
      (atPosition (.process 2 len) .commit 0x472C4400).seq = .run (.process 2 len) .commit) ∧
      AllLegal (atPosition (.process 2 0) .commit 0x472C4400).stg.snap :=
  ⟨fun _ _ => rfl, allLegal_params1⟩

/-- A `PROCESS` of two samples on two channels, at a sample. -/
def atSample (c : Chain) (n : BitVec 16) : State :=
  { memWrite (atPosition (.process 2 2) (.proc c n) 0x472C4400) 1 1 0x3F800000 with
    rf := rfCH1, prep := true, maxblk := 512 }

theorem witness_ProcessSample :
    ((atSample .left 0).seq = .run (.process 2 2) (.proc .left 0) ∧ 2 ≤ (2 : BitVec 8).toNat ∧
      (0 : BitVec 16).toNat < (2 : BitVec 16).toNat ∧ (atSample .left 0).buf.wf = true) ∧
      (atSample .right 1).seq = .run (.process 2 2) (.proc .right 1) ∧
      (1 : BitVec 16).toNat < (2 : BitVec 16).toNat ∧ (atSample .right 1).buf.wf = true := by
  decide +kernel

theorem witness_ProcessRun :
    (atSample .left 0).seq = .run (.process 2 2) (.proc .left 0) ∧ 2 ≤ (2 : BitVec 8).toNat ∧
      (2 : BitVec 16) ≠ 0 ∧ (atSample .left 0).listing = [] ∧ (atSample .left 0).micro = none ∧
      (atSample .left 0).buf.wf = true := by decide +kernel

/-- Two states that agree on chain 0 and its sample, and differ in chain 1, parameters and rate. -/
theorem witness_ChannelsDoNotInteract :
    let s := atSample .left 1
    let s' := { s with rf := { s.rf with right := rf0.right }, par := Params.novalue, sr := 0 }
    s.seq = .run (.process 2 2) (.proc .left 1) ∧ s'.seq = .run (.process 2 2) (.proc .left 1) ∧
      s.buf.wf = true ∧ s'.buf.wf = true ∧ s.rf.chain .left = s'.rf.chain .left ∧
      memRead s (channelOf .left) 1 = memRead s' (channelOf .left) 1 ∧
      (∃ t, exec (.process 2 2) s = .next t) ∧ ∃ t, exec (.process 2 2) s' = .next t :=
  ⟨rfl, rfl, by decide +kernel, by decide +kernel, rfl, rfl, ⟨_, rfl⟩, _, rfl⟩

theorem witness_CommandSchedule :
    ((atSample .right 1).seq = .run (.process 2 2) (.proc .right 1) ∧
      PositionExists (atSample .right 1).seq) ∧
      (atCheck true 0 0).seq = .run (.process 0 0) .check ∧ PositionExists (atCheck true 0 0).seq :=
  ⟨⟨rfl, by simp only [atSample, atPosition, memWrite, State.setBuf, PositionExists]; decide⟩, rfl,
    trivial⟩

theorem witness_HostWrite :
    (∀ cmd ph, State.reset.seq ≠ .run cmd ph) ∧ (∀ cmd ph, halted.seq ≠ .run cmd ph) ∧
      decode (.command 0x01000200) = .ok (cmdInstr (.prepare 512)) ∧
      decode (.command 0x01010200) = .error .illegalCommand ∧ State.reset.seq = .idle ∧
      halted.seq = .halt ∧ ((1 : BitVec 3) ≠ 0 ∧ (1 : BitVec 3) ≠ 2) ∧
      (7 : BitVec 3) ≠ 0 ∧ (7 : BitVec 3) ≠ 2 :=
  ⟨fun _ _ => nofun, fun _ _ => nofun, by decide, by decide, rfl, rfl, by decide, by decide,
    by decide⟩

theorem witness_HostRead :
    (∀ cmd ph, State.reset.seq ≠ .run cmd ph) ∧ (∀ cmd ph, halted.seq ≠ .run cmd ph) ∧
      5 ≤ (5 : BitVec 3).toNat ∧ 5 ≤ (7 : BitVec 3).toNat :=
  ⟨fun _ _ => nofun, fun _ _ => nofun, by decide, by decide⟩

theorem witness_ParameterWrite :
    ([ParamId.lowCutFreq, .highCutFreq, .peakFreq, .peakGainDb, .peakQuality, .lowCutSlope,
        .highCutSlope][0]? = some .lowCutFreq ∧ (0 : BitVec 3).toNat = 0) ∧
      [ParamId.lowCutFreq, .highCutFreq, .peakFreq, .peakGainDb, .peakQuality, .lowCutSlope,
        .highCutSlope][6]? = some .highCutSlope ∧ (6 : BitVec 3).toNat = 6 := by decide

theorem witness_IllegalCommand :
    let w : BitVec 32 := 0x01020200
    ((listed [.send (.command w)]).seq = .idle ∧ (listed [.send (.command w)]).micro = none ∧
      (listed [.send (.command w)]).listing = .send (.command w) :: []) ∧
      (listed [.send (.bus (1#1 ++ 0#3 ++ w))]).listing = .send (.bus (1#1 ++ 0#3 ++ w)) :: [] ∧
      w &&& 0xFFFF0000#32 ≠ 0x01000000#32 ∧ w &&& 0xFF000000#32 ≠ 0x02000000#32 := by decide

/-- A `PROCESS` word before any `PREPARE` (V-F5): two steps later the core is halted. -/
theorem witness_FaultsArePrecise :
    let p : Packet := .bus (1#1 ++ 0#3 ++ 0x02020040#32)
    (listed [.send p]).seq = .idle ∧ (listed [.send p]).micro = none ∧
      (listed [.send p]).listing = [.send p] ∧
      ∃ t, Host.Core.run Sys2Proof.core 2 (listed [.send p]) = .next t ∧ t.seq = .halt :=
  ⟨rfl, rfl, rfl, _, rfl, rfl⟩

theorem witness_HaltedCore :
    halted.seq = .halt ∧ (∀ d, Instr.wrreg 1 d ≠ .wrreg 2 d) ∧
      ∀ d j v, Instr.wrreg 2 d ≠ .pwrite j v :=
  ⟨rfl, fun _ => by simp, fun _ _ _ => nofun⟩

theorem witness_OnlyResetClears :
    (∃ t, step { halted with prep := true } = .next t) ∧
      (∀ rest, { halted with prep := true }.listing ≠ .reset :: rest) ∧
      { halted with prep := true }.prep = true ∧ { halted with prep := true }.seq = .halt :=
  ⟨⟨_, rfl⟩, fun _ => nofun, rfl, rfl⟩

theorem witness_HardwareReset :
    { atSample .right 1 with listing := [.reset] }.listing = .reset :: [] := rfl

theorem witness_HostBufferAccess :
    busy (listed [.bufWrite 255 65535 0xFFFFFFFF]) = false ∧
      (listed [.bufWrite 255 65535 0xFFFFFFFF]).buf.wf = true ∧
      (listed [.bufWrite 255 65535 0xFFFFFFFF]).listing = .bufWrite 255 65535 0xFFFFFFFF :: [] ∧
      (listed [.bufRead 0 0]).listing = .bufRead 0 0 :: [] := by decide +kernel

theorem witness_StepKeepsBufferForm :
    (atSample .right 1).buf.wf = true ∧ ∃ t, step (atSample .right 1) = .next t :=
  ⟨by decide +kernel, _, rfl⟩

theorem witness_StepKeepsFaultCoherence :
    (FaultCoherent (atCheck false 2 0) ∧ ∃ t, step (atCheck false 2 0) = .next t) ∧
      FaultCoherent halted :=
  ⟨⟨⟨by decide, .inl rfl⟩, _, rfl⟩, by decide, .inr ⟨.notprep, by decide⟩⟩

theorem witness_StepKeepsSchedule :
    OnSchedule (atSample .right 1) ∧ OnSchedule (blockState (some (.chainProc 1))) := by
  refine ⟨⟨witness_CommandSchedule.1.2, ?_⟩, trivial, ?_⟩
  · intro _ n h
    cases h
  · intro _ n h
    cases h
    decide

/-- Both chains loaded with the same sets, at rest. -/
def rfBoth : RegFile :=
  resetDelays
    (loadDesign { pk := setA, iL := 0, lc := [setD], iH := 3, hc := [setE, setE, setE, setE] } rf0)

theorem linked_rfBoth : StereoLinked rfBoth := by
  refine ⟨fun k j => ?_, fun k => ?_⟩
  · cases k <;> cases j <;> decide +kernel
  · cases k <;> decide +kernel

theorem prepared_rfBoth : Prepared rfBoth := by
  refine ⟨linked_rfBoth, fun c side => ?_, fun c k j => ?_, fun c j => ?_⟩
  · refine ⟨if side = .low then 1 else 4, ?_, ?_, fun i => ⟨?_, fun hi j => ?_⟩⟩
    · cases side <;> decide
    · cases side <;> decide
    · revert i
      cases c <;> cases side <;> decide +kernel
    · revert i
      cases c <;> cases side <;> cases j <;> decide +kernel
  · cases c <;> cases k <;> cases j <;> decide +kernel
  · cases c <;> cases j <;> decide +kernel

/-- A prepared core in the middle of a block. -/
def preparedState : State := { atSample .right 1 with rf := rfBoth }

theorem witness_StepKeepsPrepared :
    NoMicroLines preparedState ∧ StereoLinked preparedState.rf ∧ preparedState.prep = true ∧
      (preparedState.prep = true → Prepared preparedState.rf) ∧ ∃ t, step preparedState = .next t :=
  ⟨⟨rfl, fun _ h => by cases h⟩, linked_rfBoth, rfl, fun _ => prepared_rfBoth, _, rfl⟩

theorem witness_CommandsTerminate :
    ((atCheck true 2 2).seq = .run (.process 2 2) .check ∧ (atCheck true 2 2).listing = [] ∧
      (atCheck true 2 2).micro = none) ∧
      (atPosition (.prepare 0) .check 0).seq = .run (.prepare 0) .check := by decide

/-- R53's agent: the bounds of R32 pass, and the first pattern past a bound, a NaN and a slope of 1.5 do
not; index 7 stores nothing. -/
theorem test_conforming_agent :
    conformingMove (.send (.param (1#3 ++ 0x469C4000#32))) = true ∧
      conformingMove (.send (.param (1#3 ++ 0x469C4001#32))) = false ∧
      conformingMove (.send (.param (3#3 ++ 0xC1C00000#32))) = true ∧
      conformingMove (.send (.param (4#3 ++ 0x3DCCCCCC#32))) = false ∧
      conformingMove (.send (.param (2#3 ++ 0x7FC00000#32))) = false ∧
      conformingMove (.send (.param (6#3 ++ 0x3FC00000#32))) = false ∧
      conformingMove (.send (.param (7#3 ++ 0xFFFFFFFF#32))) = true := by decide +kernel

theorem legalOrNovalue_params1 : LegalOrNovalue params1 := fun j v h => by
  obtain ⟨w, hw, hl⟩ := allLegal_params1 j
  obtain rfl : w = v := Option.some.inj (hw.symm.trans h)
  exact hl

/-- A `PREPARE` after its last read, with a legal write and a hardware reset to come. -/
def atPcheck (snap : Params) (l : List Move) : State :=
  { atPosition (.prepare 0) .pcheck 0x472C4400 with
    stg := { Staging.dead with snap := snap }, listing := l }

/-- Before all are written, at a hardware reset, and once all are written. -/
theorem witness_StepKeepsStoreContract :
    (StoreContract (atPcheck Params.novalue []) ∧ ∃ t, step (atPcheck Params.novalue []) = .next t) ∧
      (StoreContract (atPcheck params1 [.reset]) ∧
        ∃ t, step (atPcheck params1 [.reset]) = .next t) ∧
      let s := atPcheck params1 [.send (.param (3#3 ++ 0x41C00000#32)), .reset]
      (StoreContract s ∧ ∃ t, step s = .next t) ∧ NoMicroLines s ∧ StoreFilled s ∧
        ∀ rest, s.listing ≠ .reset :: rest := by
  have none_novalue : LegalOrNovalue Params.novalue := fun j v h => by cases j <;> cases h
  have filled : ∀ j, params1.get j ≠ none := fun j => by cases j <;> exact Option.some_ne_none _
  refine ⟨⟨⟨rfl, legalOrNovalue_params1, none_novalue⟩, _, rfl⟩,
    ⟨⟨rfl, legalOrNovalue_params1, legalOrNovalue_params1⟩, _, rfl⟩,
    ⟨⟨by decide +kernel, legalOrNovalue_params1, legalOrNovalue_params1⟩, _, rfl⟩,
    ⟨rfl, fun w h => ?_⟩, ⟨filled, fun _ _ j _ _ => filled j⟩, fun _ h => ?_⟩
  · simp [atPcheck] at h
  · cases h

end Sys2Proof.Tests
end

section
/-! PROOF. What one meaning of the opcode table can do to the state, said once: `Effect` for the
commands and the port transactions, `MicroEffect` for the micro-operations. -/

namespace Sys2Proof.Machine

/-! ### The rows of the table by port -/

/-- The sixteen rows of format U (R63). -/
def isMicro : Instr → Bool
  | .prepare _ | .process _ _ | .wrreg _ _ | .rdreg _ | .pwrite _ _ => false
  | _ => true

@[simp] theorem isMicro_cmdInstr (cmd : Cmd) : isMicro (cmdInstr cmd) = false := by
  cases cmd <;> rfl

@[simp] theorem isMicro_microInstr (pos : MicroPos) : isMicro (microInstr pos) = true := by
  cases pos <;> rfl

/-- Every word but a `C:` line's decodes to a row of another format (R60, R64, R65). -/
theorem isMicro_of_decode {p : Packet} {i : Instr} (h : decode p = .ok i) :
    isMicro i = true → ∃ w, p = .micro w := by
  intro hi
  cases p with
  | micro w => exact ⟨w, rfl⟩
  | command w =>
    simp only [decode] at h
    split at h <;> cases h
    simp at hi
  | bus w =>
    simp only [decode, decodeBus] at h
    split at h <;> cases h <;> cases hi
  | param w =>
    simp only [decode] at h
    split at h <;> cases h
    cases hi

/-- The parameter port carries parameter writes only (R65). -/
theorem decode_param {w : BitVec 35} {i : Instr} (h : decode (.param w) = .ok i) :
    ∃ idx v, i = .pwrite idx v := by
  simp only [decode] at h
  split at h <;> cases h
  exact ⟨_, _, rfl⟩

theorem cmdInstr_injective {cmd cmd' : Cmd} (h : cmdInstr cmd = cmdInstr cmd') : cmd = cmd' := by
  cases cmd <;> cases cmd' <;> cases h <;> rfl

/-- A command word decodes to a command exactly as R70 tests it. -/
theorem decodeCommand_of_decode {w : BitVec 32} {cmd : Cmd}
    (h : decode (.command w) = .ok (cmdInstr cmd)) : decodeCommand w = some cmd := by
  simp only [decode] at h
  split at h
  · rw [← cmdInstr_injective (Except.ok.inj h)]; assumption
  · cases h

theorem decodeCommand_of_illegal {w : BitVec 32}
    (h : decode (.command w) = .error .illegalCommand) : decodeCommand w = none := by
  simp only [decode] at h
  split at h
  · cases h
  · assumption

/-- The word of a `PREPARE` (R61). -/
theorem decode_prepareWord (m : BitVec 16) :
    decode (.command (0x0100#16 ++ m)) = .ok (.prepare m) := by
  have op : (0x0100#16 ++ m).extractLsb' 24 8 = 0x01#8 := by
    rw [BitVec.extractLsb'_append_eq_of_le (by decide)]
    decide
  have nch : (0x0100#16 ++ m).extractLsb' 16 8 = 0x00#8 := by
    rw [BitVec.extractLsb'_append_eq_of_le (by decide)]
    decide
  have maxblk : (0x0100#16 ++ m).extractLsb' 0 16 = m := by
    rw [BitVec.extractLsb'_append_eq_of_add_le (by decide), BitVec.extractLsb'_eq_self]
  simp only [decode, decodeCommand, op, nch, maxblk, if_true, cmdInstr]

/-! ### Where a command goes on -/

/-- `PREPARE` in flight takes the step of its position. -/
theorem exec_prepare_at {s : State} {m : BitVec 16} {ph : Phase} (hs : s.seq = .run (.prepare m) ph) :
    exec (.prepare m) s = prepareAt m ph s :=
  exec_cmdInstr (cmd := .prepare m) hs

/-- `PROCESS` in flight takes the step of its position. -/
theorem exec_process_at {s : State} {nch : BitVec 8} {len : BitVec 16} {ph : Phase}
    (hs : s.seq = .run (.process nch len) ph) :
    exec (.process nch len) s = processAt nch len ph s :=
  exec_cmdInstr (cmd := .process nch len) hs

/-- After a read the command stands at the next position of R25. -/
theorem phaseAfterSnap_next (cmd : Cmd) (j : ParamId) :
    Seq.run cmd (phaseAfterSnap j) = nextPosition cmd (.snap j) := by
  cases j <;> rfl

/-- What follows a sample: the next position of R25, with the staging kept or dead. -/
theorem afterSample_next (nch : BitVec 8) (len : BitVec 16) (c : Chain) (n : BitVec 16) (s : State) :
    ∃ g, afterSample nch len c n s =
      (s.setStg g).setSeq (nextPosition (.process nch len) (.proc c n)) := by
  rcases afterSample_cases nch len c n s with ⟨hn, e⟩ | ⟨hn, rfl, e⟩ | ⟨hn, rfl, e⟩ <;> rw [e]
  · refine ⟨s.stg, ?_⟩
    cases c <;> simp only [nextPosition, if_pos hn] <;> rfl
  · refine ⟨s.stg, ?_⟩
    simp only [nextPosition, if_neg hn]
    rfl
  · refine ⟨Staging.dead, ?_⟩
    simp only [nextPosition, if_neg hn]
    rfl

/-- `PROCESS`'s `COMMIT`: the update, and the next position of R25. -/
theorem processCommit_next (nch : BitVec 8) (len : BitVec 16) (s : State) :
    ∃ g, processCommit nch len s =
      ((applyUpdate s.sr s).setStg g).setSeq (nextPosition (.process nch len) .commit) := by
  by_cases h : len = 0
  · exact ⟨Staging.dead, by simp only [processCommit, nextPosition, if_pos h]; rfl⟩
  · exact ⟨(applyUpdate s.sr s).stg, by simp only [processCommit, nextPosition, if_neg h]; rfl⟩

/-- No position is followed by `HALT` in R25. -/
theorem nextPosition_ne_halt (cmd : Cmd) (ph : Phase) : nextPosition cmd ph ≠ .halt := by
  cases ph with
  | check => exact nofun
  | snap j => cases j <;> exact nofun
  | pcheck => exact nofun
  | commit =>
    cases cmd <;> simp only [nextPosition]
    · exact nofun
    · split <;> exact nofun
  | proc c n =>
    cases cmd <;> cases c <;> simp only [nextPosition]
    · exact nofun
    · exact nofun
    · split <;> exact nofun
    · split <;> exact nofun

/-! ### Commands and port transactions -/

/-- All that one step of a command or one port transaction can make of the state `s`. -/
inductive Effect (s : State) : State → Prop
  /-- Nothing changes. -/
  | stays : Effect s s
  /-- A fault is entered (R144). -/
  | faults (f : FaultCode) (hs : s.seq ≠ .halt) : Effect s (raise f s)
  /-- A command goes on or is accepted; staging may change. -/
  | moves (g : Staging) (q : Seq) (hs : s.seq ≠ .halt) (hq : q ≠ .halt) :
      Effect s ((s.setStg g).setSeq q)
  /-- `PREPARE`'s `COMMIT`. -/
  | prepares (m : BitVec 16) (hs : s.seq ≠ .halt) : Effect s (prepareCommit m s)
  /-- `PROCESS`'s `COMMIT`. -/
  | updates (g : Staging) (q : Seq) (hs : s.seq ≠ .halt) (hq : q ≠ .halt) :
      Effect s (((applyUpdate s.sr s).setStg g).setSeq q)
  /-- A `PROC` step. -/
  | samples (c : Chain) (n : BitVec 16) (g : Staging) (q : Seq) (hs : s.seq ≠ .halt)
      (hq : q ≠ .halt) : Effect s (((procSample c n s).setStg g).setSeq q)
  /-- A host write to `ARG_SR`. -/
  | writesRate (v : F) : Effect s (s.setArgSr v)
  /-- A host read. -/
  | returns (v : BitVec 32) : Effect s (s.setHostData v)
  /-- A parameter write. -/
  | stores (p : Params) : Effect s (s.setPar p)

theorem effect_pcheckStep {s : State} (sr : F) {q : Seq} (hs : s.seq ≠ .halt) (hq : q ≠ .halt) :
    Effect s (pcheckStep sr s (s.setSeq q)) := by
  rcases pcheckStep_cases sr s (s.setSeq q) with ⟨_, e⟩ | ⟨f, _, e⟩ <;> rw [e]
  · exact .moves s.stg q hs hq
  · exact .faults f hs

theorem prepareAt_effect {m : BitVec 16} {ph : Phase} {s t : State} (hs : s.seq ≠ .halt)
    (h : prepareAt m ph s = .next t) : Effect s t := by
  cases ph with
  | check =>
    cases h
    rcases prepareCheck_cases m s with ⟨_, e⟩ | ⟨_, e⟩ <;> rw [e]
    · exact .moves { s.stg with rate := s.argSr } (.run (.prepare m) (.snap .lowCutFreq)) hs nofun
    · exact .faults .sr hs
  | snap j => cases h; exact .moves _ _ hs nofun
  | pcheck => cases h; exact effect_pcheckStep _ hs nofun
  | commit => cases h; exact .prepares m hs
  | proc c n => cases h

theorem processAt_effect {nch : BitVec 8} {len : BitVec 16} {ph : Phase} {s t : State}
    (hs : s.seq ≠ .halt) (h : processAt nch len ph s = .next t) : Effect s t := by
  cases ph with
  | check =>
    cases h
    rcases processCheck_cases nch len s with ⟨f, _, e⟩ | ⟨_, _, _, e⟩ <;> rw [e]
    · exact .faults f hs
    · exact .moves s.stg _ hs nofun
  | snap j => cases h; exact .moves _ _ hs nofun
  | pcheck => cases h; exact effect_pcheckStep _ hs nofun
  | commit =>
    cases h
    obtain ⟨g, e⟩ := processCommit_next nch len s
    rw [e]
    exact .updates g _ hs (nextPosition_ne_halt _ _)
  | proc c n =>
    simp only [processAt, processSample] at h
    split at h <;> cases h
    obtain ⟨g, e⟩ := afterSample_next nch len c n (procSample c n s)
    rw [e]
    exact .samples c n g _ hs (nextPosition_ne_halt _ _)

/-- All a host write can do while no command is in flight (R133). -/
theorem writeReg_cases (addr : BitVec 3) (data : BitVec 32) (s : State) :
    (addr = 0 ∧ s.seq = .idle ∧ writeReg addr data s = writeCommand data s) ∨
      (addr = 2 ∧ writeReg addr data s = s.setArgSr data) ∨
      (addr ≠ 2 ∧ (addr = 0 → s.seq ≠ .idle) ∧ writeReg addr data s = s) := by
  by_cases h0 : addr = 0
  · subst h0
    by_cases hs : s.seq = .idle
    · exact .inl ⟨rfl, hs, if_pos hs⟩
    · exact .inr (.inr ⟨by decide, fun _ => hs, if_neg hs⟩)
  · by_cases h2 : addr = 2
    · subst h2
      exact .inr (.inl ⟨rfl, rfl⟩)
    · refine .inr (.inr ⟨h2, fun e => absurd e h0, ?_⟩)
      unfold writeReg
      split
      · exact absurd (BitVec.eq_of_toNat_eq ‹_›) h0
      · exact absurd (BitVec.eq_of_toNat_eq ‹_›) h2
      · rfl

theorem writeReg_effect (addr : BitVec 3) (data : BitVec 32) (s : State) :
    Effect s (writeReg addr data s) := by
  rcases writeReg_cases addr data s with ⟨_, hs, e⟩ | ⟨_, e⟩ | ⟨_, _, e⟩ <;> rw [e]
  · have hn : s.seq ≠ .halt := by simp [hs]
    rcases writeCommand_cases data s with ⟨cmd, _, e⟩ | ⟨_, e⟩ <;> rw [e]
    · exact .moves s.stg _ hn nofun
    · exact .faults _ hn
  · exact .writesRate data
  · exact .stays

/-- A host write while no command is in flight (R133). -/
theorem exec_wrreg_at_rest (addr : BitVec 3) (data : BitVec 32) {s : State}
    (hr : ∀ cmd ph, s.seq ≠ .run cmd ph) : exec (.wrreg addr data) s = .next (writeReg addr data s) := by
  simp only [exec, execWrreg]

/-- A host read while no command is in flight (R134). -/
theorem exec_rdreg_at_rest (addr : BitVec 3) {s : State} (hr : ∀ cmd ph, s.seq ≠ .run cmd ph) :
    exec (.rdreg addr) s = .next (s.setHostData (readReg addr s)) := by
  simp only [exec, execRdreg]

/-- Every row but the micro-operations. -/
theorem exec_effect {i : Instr} {s t : State} (hi : isMicro i = false) (h : exec i s = .next t) :
    Effect s t := by
  cases i with
  | prepare m =>
    simp only [exec] at h
    rcases execPrepare_cases m s with ⟨hs, e⟩ | ⟨_, e⟩ | ⟨ph, hs, e⟩ | ⟨_, _, _, _, e⟩ <;>
      rw [e] at h
    · cases h; exact .moves s.stg _ (by simp [hs]) nofun
    · cases h; exact .stays
    · exact prepareAt_effect (by simp [hs]) h
    · cases h
  | process nch len =>
    simp only [exec] at h
    rcases execProcess_cases nch len s with ⟨hs, e⟩ | ⟨_, e⟩ | ⟨ph, hs, e⟩ | ⟨_, _, _, _, e⟩ <;>
      rw [e] at h
    · cases h; exact .moves s.stg _ (by simp [hs]) nofun
    · cases h; exact .stays
    · exact processAt_effect (by simp [hs]) h
    · cases h
  | wrreg addr data =>
    simp only [exec, execWrreg] at h
    split at h <;> cases h
    exact writeReg_effect addr data s
  | rdreg addr =>
    simp only [exec, execRdreg] at h
    split at h <;> cases h
    exact .returns _
  | pwrite idx val =>
    simp only [exec, execPwrite] at h
    split at h <;> cases h
    · exact .stores _
    · exact .stays
  | _ => cases hi

/-- `PREP` is set by `PREPARE`'s `COMMIT` and cleared by no meaning (R27). -/
theorem Effect.prep {s t : State} (h : Effect s t) : t.prep = s.prep ∨ t.prep = true := by
  cases h with
  | prepares m hs => exact .inr rfl
  | _ => exact .inl rfl

/-- Commands and transactions write no latch; a listing's micro-operation stays where it is, or dies
with a fault. -/
theorem Effect.position {s t : State} (h : Effect s t) :
    t.uop = s.uop ∧ (t.micro = s.micro ∨ t.seq = .halt ∧ t.micro = none) := by
  cases h with
  | faults f hs => exact ⟨rfl, .inr ⟨rfl, rfl⟩⟩
  | _ => exact ⟨rfl, .inl rfl⟩

/-- No command or transaction leaves `HALT` (R145). -/
theorem Effect.halted {s t : State} (h : Effect s t) (hs : s.seq = .halt) : t.seq = .halt := by
  cases h with
  | stays => exact hs
  | writesRate v => exact hs
  | returns v => exact hs
  | stores p => exact hs
  | faults f hn => rfl
  | moves g q hn hq => exact absurd hs hn
  | prepares m hn => exact absurd hs hn
  | updates g q hn hq => exact absurd hs hn
  | samples c n g q hn hq => exact absurd hs hn

theorem Effect.listing {s t : State} (h : Effect s t) : t.listing = s.listing := by
  cases h <;> rfl

/-! ### Micro-operations -/

/-- What a micro-operation without a fault leaves of the positions and of `PREP`; a `CHAIN_PROC` it is
at has a sample of its block. -/
structure MicroEffect (s t : State) : Prop where
  seq : t.seq = s.seq
  prep : t.prep = s.prep
  len : t.uop.len = s.uop.len
  micro : t.micro = s.micro ∨ ∀ n, t.micro = some (.chainProc n) → n < s.uop.len

theorem microEffect_pcheckStep {s pass : State} (sr : F)
    (hp : MicroEffect s pass) :
    (∃ f, pcheckStep sr s pass = raise f s) ∨ MicroEffect s (pcheckStep sr s pass) := by
  rcases pcheckStep_cases sr s pass with ⟨_, e⟩ | ⟨f, _, e⟩ <;> rw [e]
  · exact .inr hp
  · exact .inl ⟨f, rfl⟩

theorem microEffect_updateAt {s : State} (ph : UpdPhase) :
    (∃ f, updateAt ph s = raise f s) ∨ MicroEffect s (updateAt ph s) := by
  cases ph with
  | snap j => exact .inr ⟨rfl, rfl, rfl, .inr nofun⟩
  | pcheck => exact microEffect_pcheckStep _ ⟨rfl, rfl, rfl, .inr nofun⟩
  | commit => exact .inr ⟨rfl, rfl, rfl, .inr nofun⟩

/-- The sample after `n` is one of the block when R110 goes on to it. -/
theorem succ_lt_of_toNat {n len : BitVec 16} (h : n.toNat + 1 < len.toNat) : n + 1 < len := by
  bv_omega

theorem microEffect_chainProcAt (n : BitVec 16) (s : State) : MicroEffect s (chainProcAt n s) := by
  refine ⟨rfl, rfl, rfl, .inr fun n' hn' => ?_⟩
  simp only [chainProcAt, State.setMicro_micro] at hn'
  split at hn' <;> cases hn'
  exact succ_lt_of_toNat ‹_›

theorem MicroEffect.refl (s : State) : MicroEffect s s := ⟨rfl, rfl, rfl, .inl rfl⟩

/-- Every micro-operation: a fault is entered, or its effect, which a halted core does not have. -/
theorem exec_microEffect {i : Instr} {s t : State} (hi : isMicro i = true)
    (h : exec i s = .next t) : (∃ f, t = raise f s) ∨ MicroEffect s t := by
  have eff : ∀ {u : State}, coreDoes s u = .next t → (∃ f, u = raise f s) ∨ MicroEffect s u →
      (∃ f, t = raise f s) ∨ MicroEffect s t := by
    intro u hc hu
    rcases coreDoes_cases hc with ⟨_, rfl⟩ | ⟨_, rfl⟩
    · exact .inr (.refl _)
    · exact hu
  have latch : ∀ {u : State}, coreDoes s u = .next t → u.seq = s.seq → u.prep = s.prep →
      u.uop.len = s.uop.len → u.micro = s.micro → (∃ f, t = raise f s) ∨ MicroEffect s t :=
    fun hc h1 h2 h3 h4 => eff hc (.inr ⟨h1, h2, h3, .inl h4⟩)
  cases i with
  | slope2count => exact latch h rfl rfl rfl rfl
  | slope2order => exact latch h rfl rfl rfl rfl
  | calcPeak => exact latch h rfl rfl rfl rfl
  | calcCut => exact latch h rfl rfl rfl rfl
  | bqLoad => exact latch h rfl rfl rfl rfl
  | bqReset => exact latch h rfl rfl rfl rfl
  | bqStep => exact latch h rfl rfl rfl rfl
  | cfgCut => exact latch h rfl rfl rfl rfl
  | cascStep => exact latch h rfl rfl rfl rfl
  | cfgPeak => exact latch h rfl rfl rfl rfl
  | chainStep => exact latch h rfl rfl rfl rfl
  | updApply => exact latch h rfl rfl rfl rfl
  | chainProc =>
    simp only [exec, execChainProc] at h
    split at h
    · cases h; exact .inr (.refl _)
    · split at h <;> cases h
      exact .inr (microEffect_chainProcAt _ s)
  | snapshot =>
    refine eff h (.inr ⟨rfl, rfl, rfl, .inr fun n hn => ?_⟩)
    simp at hn
  | pcheck => exact eff h (microEffect_pcheckStep _ (.refl s))
  | update => exact eff h (microEffect_updateAt _)
  | prepare m => cases hi
  | process nch len => cases hi
  | wrreg addr data => cases hi
  | rdreg addr => cases hi
  | pwrite idx val => cases hi

/-- No row of the table clears `PREP`. -/
theorem exec_prep {i : Instr} {s t : State} (h : exec i s = .next t) :
    t.prep = s.prep ∨ t.prep = true := by
  cases hi : isMicro i with
  | false => exact (exec_effect hi h).prep
  | true =>
    rcases exec_microEffect hi h with ⟨f, rfl⟩ | he
    · exact .inl rfl
    · exact .inl he.prep

end Sys2Proof.Machine
end

section
/-! PROOF. The schedule of R25: every position is followed by a position, and no step leaves it. -/

namespace Sys2Proof.Machine

/-! ### A command in flight -/

/-- The successor of a position past `CHECK` is a position. -/
theorem positionExists_next {cmd : Cmd} {ph : Phase} (h : PositionExists (.run cmd ph))
    (hc : ph ≠ .check) : PositionExists (nextPosition cmd ph) := by
  cases cmd with
  | prepare m =>
    cases ph with
    | check => trivial
    | snap j => cases j <;> trivial
    | pcheck => trivial
    | commit => trivial
    | proc c n => exact h.elim
  | process nch len =>
    cases ph with
    | check => exact absurd rfl hc
    | snap j => cases j <;> exact h
    | pcheck => exact h
    | commit =>
      have h2 : 2 ≤ nch := h
      by_cases hl : len = 0
      · simp only [nextPosition, if_pos hl]; trivial
      · simp only [nextPosition, if_neg hl]
        exact ⟨h2, by bv_omega⟩
    | proc c n =>
      obtain ⟨h2, hn⟩ : 2 ≤ nch ∧ n < len := h
      have h0 : 0 < len := by bv_omega
      by_cases hl : n.toNat + 1 < len.toNat
      · cases c <;> simp only [nextPosition, if_pos hl] <;> exact ⟨h2, succ_lt_of_toNat hl⟩
      · cases c <;> simp only [nextPosition, if_neg hl]
        · exact ⟨h2, h0⟩
        · trivial

/-- `CHECK` of a command: `HALT`, or the first read, which a `PROCESS` makes for two channels at
least. -/
theorem exec_check {s : State} {cmd : Cmd} (hs : s.seq = .run cmd .check) :
    ∃ t, exec (cmdInstr cmd) s = .next t ∧
      (t.seq = .halt ∨ t.seq = nextPosition cmd .check ∧ PositionExists t.seq) := by
  rw [exec_cmdInstr hs]
  cases cmd with
  | prepare m =>
    refine ⟨_, rfl, ?_⟩
    rcases prepareCheck_cases m s with ⟨_, e⟩ | ⟨_, e⟩ <;> rw [e]
    · exact .inr ⟨rfl, trivial⟩
    · exact .inl rfl
  | process nch len =>
    refine ⟨_, rfl, ?_⟩
    rcases processCheck_cases nch len s with ⟨f, _, e⟩ | ⟨_, h2, _, e⟩ <;> rw [e]
    · exact .inl rfl
    · exact .inr ⟨rfl, h2⟩

/-- The accesses of `PROC(c, n)` are those R42 defines when the position exists. -/
theorem processSample_next {nch : BitVec 8} {len : BitVec 16} (c : Chain) {n : BitVec 16} (s : State)
    (h2 : 2 ≤ nch) (hn : n < len) :
    processSample nch len c n s = .next (afterSample nch len c n (procSample c n s)) := by
  refine if_pos ⟨?_, hn⟩
  cases c <;> simp only [channelOf] <;> bv_omega

/-- Past `CHECK` a command goes to its next position, or from `PCHECK` to `HALT`. -/
theorem exec_past_check {s : State} {cmd : Cmd} {ph : Phase} (hs : s.seq = .run cmd ph)
    (h : PositionExists (.run cmd ph)) (hc : ph ≠ .check) :
    ∃ t, exec (cmdInstr cmd) s = .next t ∧
      (t.seq = nextPosition cmd ph ∨ t.seq = .halt ∧ ph = .pcheck) := by
  have checked : ∀ (sr : F) (q : Seq), (pcheckStep sr s (s.setSeq q)).seq = q ∨
      (pcheckStep sr s (s.setSeq q)).seq = .halt ∧ Phase.pcheck = .pcheck := by
    intro sr q
    rcases pcheckStep_cases sr s (s.setSeq q) with ⟨_, e⟩ | ⟨f, _, e⟩ <;> rw [e]
    · exact .inl rfl
    · exact .inr ⟨rfl, rfl⟩
  rw [exec_cmdInstr hs]
  cases cmd with
  | prepare m =>
    cases ph with
    | check => exact absurd rfl hc
    | snap j => exact ⟨_, rfl, .inl (phaseAfterSnap_next _ j)⟩
    | pcheck => exact ⟨_, rfl, checked _ _⟩
    | commit => exact ⟨_, rfl, .inl rfl⟩
    | proc c n => exact h.elim
  | process nch len =>
    cases ph with
    | check => exact absurd rfl hc
    | snap j => exact ⟨_, rfl, .inl (phaseAfterSnap_next _ j)⟩
    | pcheck => exact ⟨_, rfl, checked _ _⟩
    | commit =>
      refine ⟨_, rfl, .inl ?_⟩
      obtain ⟨g, e⟩ := processCommit_next nch len s
      rw [e, State.setSeq_seq]
    | proc c n =>
      obtain ⟨h2, hn⟩ : 2 ≤ nch ∧ n < len := h
      refine ⟨_, processSample_next c s h2 hn, .inl ?_⟩
      obtain ⟨g, e⟩ := afterSample_next nch len c n (procSample c n s)
      rw [e, State.setSeq_seq]

/-- A command in flight at a position of the schedule goes on to one, or halts. -/
theorem exec_command_position {s : State} {cmd : Cmd} {ph : Phase} (hs : s.seq = .run cmd ph)
    (h : PositionExists s.seq) :
    ∃ t, exec (cmdInstr cmd) s = .next t ∧ PositionExists t.seq := by
  rw [hs] at h
  by_cases hc : ph = .check
  · subst hc
    obtain ⟨t, e, ht | ht⟩ := exec_check hs
    · exact ⟨t, e, by rw [ht]; trivial⟩
    · exact ⟨t, e, ht.2⟩
  · obtain ⟨t, e, ht | ht⟩ := exec_past_check hs h hc
    · exact ⟨t, e, by rw [ht]; exact positionExists_next h hc⟩
    · exact ⟨t, e, by rw [ht.1]; trivial⟩

/-! ### Results on the schedule -/

/-- The result is no fault of the model, no blocked host, and every next state is on the schedule. -/
def StaysOnSchedule (r : Result) : Prop :=
  (∀ f, r ≠ .fault f) ∧ r ≠ .refused .hostBlocked ∧ ∀ t, r = .next t → OnSchedule t

theorem staysOnSchedule_next {t : State} (h : OnSchedule t) : StaysOnSchedule (.next t) :=
  ⟨(nofun), (nofun), fun _ e => by cases e; exact h⟩

theorem staysOnSchedule_noSuch : StaysOnSchedule (.refused .noSuchMicroOperation) := by
  refine ⟨fun _ e => ?_, fun e => ?_, fun _ e => ?_⟩ <;> cases e

theorem staysOnSchedule_of_exists {r : Result} (h : ∃ t, r = .next t ∧ OnSchedule t) :
    StaysOnSchedule r := by
  obtain ⟨t, rfl, ht⟩ := h
  exact staysOnSchedule_next ht

theorem onSchedule_of_halt {s : State} (h : s.seq = .halt) : OnSchedule s :=
  ⟨by rw [h]; trivial, fun hn => absurd h hn⟩

/-- What commands and transactions do keeps the place of a listing's `CHAIN_PROC`. -/
theorem Effect.microPosition {s t : State} (h : Effect s t) (hs : MicroPositionExists s) :
    MicroPositionExists t := by
  intro ht n hn
  obtain ⟨hu, hm | ⟨hh, _⟩⟩ := h.position
  · rw [hu]
    exact hs (fun e => ht (h.halted e)) n (hm ▸ hn)
  · exact absurd hh ht

theorem MicroEffect.onSchedule {s t : State} (h : MicroEffect s t) (hs : OnSchedule s) :
    OnSchedule t := by
  refine ⟨by rw [h.seq]; exact hs.1, fun ht n hn => ?_⟩
  rw [h.len]
  rcases h.micro with hm | hm
  · exact hs.2 (h.seq ▸ ht) n (hm ▸ hn)
  · exact hm n hn

/-! ### The rows of the table on the schedule -/

/-- A command in flight. -/
theorem command_staysOnSchedule {s : State} {cmd : Cmd} {ph : Phase} (hs : s.seq = .run cmd ph)
    (h : OnSchedule s) : StaysOnSchedule (exec (cmdInstr cmd) s) := by
  obtain ⟨t, e, ht⟩ := exec_command_position hs h.1
  exact staysOnSchedule_of_exists
    ⟨t, e, ht, (exec_effect (isMicro_cmdInstr cmd) e).microPosition h.2⟩

/-- The sample a `CHAIN_PROC` starts at or is at is one of its block. -/
theorem chainProcStart_lt {s : State} (h : MicroPositionExists s) (hs : s.seq ≠ .halt)
    (hl : s.uop.len ≠ 0) : chainProcStart s < s.uop.len := by
  unfold chainProcStart
  split
  · exact h hs _ ‹_›
  · bv_omega

/-- On the schedule every micro-operation has a next state. -/
theorem exec_micro_next {i : Instr} {s : State} (hi : isMicro i = true)
    (h : MicroPositionExists s) : ∃ t, exec i s = .next t := by
  cases i with
  | chainProc =>
    simp only [exec, execChainProc]
    split
    · exact ⟨_, rfl⟩
    · rename_i hn
      have hlt := chainProcStart_lt h (fun e => hn (.inl e)) (fun e => hn (.inr e))
      exact ⟨_, if_neg (Nat.not_le.2 (BitVec.lt_def.1 hlt))⟩
  | prepare m => cases hi
  | process nch len => cases hi
  | wrreg addr data => cases hi
  | rdreg addr => cases hi
  | pwrite idx val => cases hi
  | _ => exact ⟨_, rfl⟩

theorem micro_staysOnSchedule {i : Instr} {s : State} (hi : isMicro i = true) (h : OnSchedule s) :
    StaysOnSchedule (exec i s) := by
  obtain ⟨t, e⟩ := exec_micro_next hi h.2
  refine staysOnSchedule_of_exists ⟨t, e, ?_⟩
  rcases exec_microEffect hi e with ⟨f, rfl⟩ | he
  · exact onSchedule_of_halt (raise_seq f s)
  · exact he.onSchedule h

/-- A command word or host transaction while no command is in flight leaves `seq`, halts, or accepts a
command (R31). -/
theorem exec_host_next {i : Instr} {s : State} (hi : isMicro i = false)
    (hr : ∀ cmd ph, s.seq ≠ .run cmd ph) :
    ∃ t, exec i s = .next t ∧
      (t.seq = s.seq ∨ t.seq = .halt ∨ ∃ cmd, t.seq = .run cmd .check) := by
  have command : ∀ cmd, ∃ t, exec (cmdInstr cmd) s = .next t ∧
      (t.seq = s.seq ∨ t.seq = .halt ∨ ∃ cmd, t.seq = .run cmd .check) := by
    intro cmd
    cases hs : s.seq with
    | idle => exact ⟨acceptCommand cmd s, by cases cmd <;> simp [cmdInstr, exec, execPrepare,
        execProcess, hs], .inr (.inr ⟨cmd, rfl⟩)⟩
    | halt => exact ⟨s, by cases cmd <;> simp [cmdInstr, exec, execPrepare, execProcess, hs],
        .inl hs⟩
    | run cmd' ph => exact absurd hs (hr cmd' ph)
  cases i with
  | prepare m => exact command (.prepare m)
  | process nch len => exact command (.process nch len)
  | wrreg addr data =>
    refine ⟨_, exec_wrreg_at_rest addr data hr, ?_⟩
    rcases writeReg_cases addr data s with ⟨_, _, e⟩ | ⟨_, e⟩ | ⟨_, _, e⟩ <;> rw [e]
    · rcases writeCommand_cases data s with ⟨cmd, _, e⟩ | ⟨_, e⟩ <;> rw [e]
      · exact .inr (.inr ⟨cmd, rfl⟩)
      · exact .inr (.inl rfl)
    · exact .inl rfl
    · exact .inl rfl
  | rdreg addr => exact ⟨_, exec_rdreg_at_rest addr hr, .inl rfl⟩
  | pwrite idx val =>
    simp only [exec, execPwrite]
    split <;> exact ⟨_, rfl, .inl rfl⟩
  | _ => cases hi

theorem host_staysOnSchedule {i : Instr} {s : State} (hi : isMicro i = false)
    (hr : ∀ cmd ph, s.seq ≠ .run cmd ph) (h : OnSchedule s) : StaysOnSchedule (exec i s) := by
  obtain ⟨t, e, ht⟩ := exec_host_next hi hr
  refine staysOnSchedule_of_exists ⟨t, e, ?_, (exec_effect hi e).microPosition h.2⟩
  rcases ht with ht | ht | ⟨cmd, ht⟩ <;> rw [ht]
  · exact h.1
  · trivial
  · cases cmd <;> trivial

/-- A parameter write, at any time (R53). -/
theorem pwrite_staysOnSchedule {s : State} (idx : BitVec 3) (v : F) (h : OnSchedule s) :
    StaysOnSchedule (exec (.pwrite idx v) s) := by
  simp only [exec, execPwrite]
  split <;> exact staysOnSchedule_next h

/-! ### The agents on the schedule -/

theorem coreTurn_staysOnSchedule {s : State} (h : OnSchedule s) : StaysOnSchedule (coreTurn s) := by
  rcases coreTurn_cases s with ⟨cmd, ph, hs, e⟩ | ⟨pos, _, _, e⟩ | e <;> rw [e]
  · exact command_staysOnSchedule hs h
  · exact micro_staysOnSchedule (isMicro_microInstr pos) h
  · exact staysOnSchedule_next h

theorem not_run_of_not_busy {s : State} (h : busy s = false) (cmd : Cmd) (ph : Phase) :
    s.seq ≠ .run cmd ph := fun e => by
  simp [busy, e] at h

/-- A core that is not at work is halted, or idle with no micro-operation. -/
theorem rest_of_not_busy {s : State} (h : busy s = false) :
    s.seq = .halt ∨ s.seq = .idle ∧ s.micro = none := by
  unfold busy at h
  split at h
  · cases h
  · exact .inr ⟨‹_›, by simpa using h⟩
  · exact .inl ‹_›

/-- A core at work sees only parameter writes on its ports (R125). -/
theorem portWord_staysOnSchedule {p : Packet} {s : State}
    (hp : (∃ w, p = .param w) ∨ busy s = false) (h : OnSchedule s) :
    StaysOnSchedule (portWord p s) := by
  rcases portWord_cases p s with ⟨i, hd, e⟩ | ⟨_, e⟩ | e | e <;> rw [e]
  · rcases hp with ⟨w, rfl⟩ | hb
    · obtain ⟨idx, v, rfl⟩ := decode_param hd
      exact pwrite_staysOnSchedule idx v h
    · cases hi : isMicro i with
      | true => exact micro_staysOnSchedule hi h
      | false => exact host_staysOnSchedule hi (not_run_of_not_busy hb) h
  · exact staysOnSchedule_next (onSchedule_of_halt (raise_seq .illcmd s))
  · exact staysOnSchedule_next h
  · exact staysOnSchedule_noSuch

/-- New latches while the core is not at work: there is no `CHAIN_PROC` to displace. -/
theorem onSchedule_setUop {s : State} (u : Latches) (hb : busy s = false) (h : OnSchedule s) :
    OnSchedule (s.setUop u) := by
  refine ⟨h.1, fun hn n hm => ?_⟩
  rcases rest_of_not_busy hb with hs | ⟨_, hs⟩
  · exact absurd hs hn
  · cases hs.symm.trans hm

theorem takeMove_staysOnSchedule {m : Move} {s : State} (hw : mustWait m s = false)
    (h : OnSchedule s) : StaysOnSchedule (takeMove m s) := by
  have rest : neverWaits m = false → busy s = false := fun hm => by
    simpa [mustWait, hm] using hw
  cases m with
  | send p =>
    refine portWord_staysOnSchedule ?_ h
    cases p with
    | param w => exact .inl ⟨w, rfl⟩
    | command w => exact .inr (rest rfl)
    | micro w => exact .inr (rest rfl)
    | bus w => exact .inr (rest rfl)
  | stage u => exact staysOnSchedule_next (onSchedule_setUop u (rest rfl) h)
  | core => exact coreTurn_staysOnSchedule h
  | reset => exact staysOnSchedule_next ⟨trivial, fun _ _ => nofun⟩
  | bufWrite ch i v => exact staysOnSchedule_next h
  | bufRead ch i => exact staysOnSchedule_next h

theorem step_staysOnSchedule {s : State} (h : OnSchedule s) : StaysOnSchedule (step s) := by
  rcases step_cases s with e | ⟨m, rest, _, hw, e⟩ <;> rw [e]
  · exact coreTurn_staysOnSchedule h
  · exact takeMove_staysOnSchedule (s := s.setListing rest) hw h

end Sys2Proof.Machine

namespace Sys2Proof.Proofs

open Machine

/-- Settles O43: `CHECK` and `PCHECK` are the two positions with a test. -/
theorem commandSchedule : Obligations.CommandSchedule := by
  intro s cmd ph hs h
  by_cases hc : ph = .check
  · subst hc
    obtain ⟨t, e, ht | ht⟩ := exec_check hs
    · exact ⟨t, e, .inr ⟨ht, .inl rfl⟩⟩
    · exact ⟨t, e, .inl ht.1⟩
  · obtain ⟨t, e, ht | ht⟩ := exec_past_check hs (hs ▸ h) hc
    · exact ⟨t, e, .inl ht⟩
    · exact ⟨t, e, .inr ⟨ht.1, .inr ht.2⟩⟩

/-- Settles O56, agent by agent: the core goes from position to position, and the others move only
while it is not at work, or write a parameter. -/
theorem stepKeepsSchedule : Obligations.StepKeepsSchedule :=
  fun _ h => step_staysOnSchedule h

end Sys2Proof.Proofs
end

section
/-! PROOF. The stereo link (R22), the prepared register file (R24, R36, R37), and what no step but
hardware reset does to `PREP`, `HALT` and the fault bits (R27, R143, R156). -/

namespace Sys2Proof.Machine

/-! ### Register files -/

/-- Every slot is the peak slot or a slot of a side (R18). -/
theorem slotId_cases (k : SlotId) : k = .pk ∨ ∃ side i, k = slotOf side i := by
  cases k with
  | pk => exact .inl rfl
  | lc0 => exact .inr ⟨.low, 0, rfl⟩
  | lc1 => exact .inr ⟨.low, 1, rfl⟩
  | lc2 => exact .inr ⟨.low, 2, rfl⟩
  | lc3 => exact .inr ⟨.low, 3, rfl⟩
  | hc0 => exact .inr ⟨.high, 0, rfl⟩
  | hc1 => exact .inr ⟨.high, 1, rfl⟩
  | hc2 => exact .inr ⟨.high, 2, rfl⟩
  | hc3 => exact .inr ⟨.high, 3, rfl⟩

theorem coefOf_ne_none (set : CoefSet) {j : Reg} (hj : isDelay j = false) : coefOf set j ≠ none := by
  cases j with
  | w1 => cases hj
  | w2 => cases hj
  | _ => exact Option.some_ne_none _

theorem StereoLinked.of_config {rf rf' : RegFile} (h : StereoLinked rf)
    (hc : SameConfiguration rf rf') : StereoLinked rf' :=
  ⟨fun k j hj => by rw [hc.1 _ k j hj, hc.1 _ k j hj]; exact h.1 k j hj,
    fun k => by rw [hc.2, hc.2]; exact h.2 k⟩

/-- An update loads both chains alike, and what it leaves alone was linked. -/
theorem StereoLinked.loadDesign {rf : RegFile} (h : StereoLinked rf) (d : Design) :
    StereoLinked (loadDesign d rf) := by
  refine ⟨fun k j hj => ?_, fun k => ?_⟩
  · rcases slotId_cases k with rfl | ⟨side, i, rfl⟩
    · rw [loadDesign_peak d rf _ j hj, loadDesign_peak d rf _ j hj]
    · obtain ⟨onL, offL⟩ := loadDesign_cut d rf .left side i
      obtain ⟨onR, offR⟩ := loadDesign_cut d rf .right side i
      rcases Nat.lt_or_ge (d.index side).toNat i.val with hi | hi
      · rw [(offL hi).2, (offR hi).2, h.1 _ j hj]
      · rw [(onL hi).2 j hj, (onR hi).2 j hj]
  · rcases slotId_cases k with rfl | ⟨side, i, rfl⟩
    · simp
    · obtain ⟨onL, offL⟩ := loadDesign_cut d rf .left side i
      obtain ⟨onR, offR⟩ := loadDesign_cut d rf .right side i
      rcases Nat.lt_or_ge (d.index side).toNat i.val with hi | hi
      · rw [(offL hi).1, (offR hi).1]
      · rw [(onL hi).1, (onR hi).1]

/-- An update activates the first `idx + 1` slots of each side and loads them (R24, R119). -/
theorem activePrefixes_loadDesign (d : Design) (rf : RegFile) :
    ActivePrefixes (loadDesign d rf) := by
  intro c side
  have hlt : (d.index side).toNat < 4 := (d.index side).isLt
  refine ⟨(d.index side).toNat + 1, by omega, by omega, fun i => ?_⟩
  obtain ⟨on, off⟩ := loadDesign_cut d rf c side i
  rcases Nat.lt_or_ge (d.index side).toNat i.val with hi | hi
  · exact ⟨by rw [(off hi).1, decide_eq_false (by omega)], fun _ => by omega⟩
  · refine ⟨by rw [(on hi).1, decide_eq_true (by omega)], fun _ j hj => ?_⟩
    rw [(on hi).2 j hj]
    exact coefOf_ne_none _ hj

theorem DelayLinesWritten.of_delays {rf rf' : RegFile} (h : DelayLinesWritten rf)
    (hd : SameDelayLines rf rf') : DelayLinesWritten rf' :=
  fun c k j hj => by rw [hd c k j hj]; exact h c k j hj

theorem delayLinesWritten_resetDelays (rf : RegFile) : DelayLinesWritten (resetDelays rf) :=
  fun c k j hj => by rw [resetDelays_read, if_pos hj]; exact Option.some_ne_none _

/-- An update of a linked file with written delay lines makes it a prepared one. -/
theorem prepared_loadDesign {rf : RegFile} (d : Design) (hl : StereoLinked rf)
    (hw : DelayLinesWritten rf) : Prepared (loadDesign d rf) := by
  refine ⟨hl.loadDesign d, activePrefixes_loadDesign d rf, hw.of_delays (loadDesign_delays d rf),
    fun c j hj => ?_⟩
  rw [loadDesign_peak d rf c j hj]
  exact coefOf_ne_none _ hj

/-- A chain step writes delay lines only, and values. -/
theorem Prepared.chainStep {rf : RegFile} (h : Prepared rf) (c : Chain) (x : F) :
    Prepared (chainStep rf c x).2 := by
  obtain ⟨hl, ha, hw, hp⟩ := h
  have hc := chainStep_config rf c x
  refine ⟨hl.of_config hc, fun c' side => ?_, chainStep_written c x hw, fun c' j hj => ?_⟩
  · obtain ⟨n, h1, h4, hn⟩ := ha c' side
    refine ⟨n, h1, h4, fun i => ⟨by rw [hc.2]; exact (hn i).1, fun hi j hj => ?_⟩⟩
    rw [hc.1 _ _ j hj]
    exact (hn i).2 hi j hj
  · rw [hc.1 _ _ j hj]
    exact hp c' j hj

/-! ### Steps without micro-operation lines -/

/-- All that one agent's move can make of the state when no micro-operation is about. -/
inductive AgentEffect (s : State) : State → Prop
  /-- A step of the core or a transaction on a port. -/
  | port {t : State} (h : Effect s t) : AgentEffect s t
  /-- Latches for a `C:` line. -/
  | stage (u : Latches) : AgentEffect s (s.setUop u)
  /-- Hardware reset. -/
  | reset : AgentEffect s (hwReset s)
  /-- The host fills the buffer. -/
  | fills (ch : BitVec 8) (i : BitVec 16) (v : F) : AgentEffect s (memWrite s ch i v)

theorem coreTurn_effect {s t : State} (hm : s.micro = none) (h : coreTurn s = .next t) :
    Effect s t := by
  rcases coreTurn_cases s with ⟨cmd, ph, _, e⟩ | ⟨pos, _, hp, _⟩ | e
  · rw [e] at h
    exact exec_effect (isMicro_cmdInstr cmd) h
  · cases hm.symm.trans hp
  · rw [e] at h
    cases h
    exact .stays

theorem portWord_effect {p : Packet} {s t : State} (hp : ∀ w, p ≠ .micro w)
    (h : portWord p s = .next t) : Effect s t := by
  rcases portWord_cases p s with ⟨i, hd, e⟩ | ⟨hs, e⟩ | e | e <;> rw [e] at h
  · refine exec_effect ?_ h
    cases hi : isMicro i with
    | false => rfl
    | true =>
      obtain ⟨w, e⟩ := isMicro_of_decode hd hi
      exact absurd e (hp w)
  · cases h; exact .faults .illcmd (by rw [hs]; exact nofun)
  · cases h; exact .stays
  · cases h

/-- Every step without micro-operation lines: one agent's effect on a state with at most the head of
the listing taken off. -/
theorem step_agentEffect {s t : State} (hn : NoMicroLines s) (h : step s = .next t) :
    ∃ l, l <:+ s.listing ∧ AgentEffect (s.setListing l) t := by
  obtain ⟨hm, hw⟩ := hn
  rcases step_cases s with e | ⟨m, rest, hl, _, e⟩ <;> rw [e] at h
  · exact ⟨s.listing, List.suffix_refl _, .port (coreTurn_effect hm h)⟩
  · refine ⟨rest, hl ▸ List.suffix_cons m rest, ?_⟩
    cases m with
    | send p =>
      refine .port (portWord_effect (fun w e => hw w ?_) h)
      rw [hl, e]
      exact List.mem_cons_self ..
    | stage u => cases h; exact .stage u
    | core => exact .port (coreTurn_effect (s := s.setListing rest) hm h)
    | reset => cases h; exact .reset
    | bufWrite ch i v => cases h; exact .fills ch i v
    | bufRead ch i => cases h; exact .port (.returns _)

theorem AgentEffect.listing {s t : State} (h : AgentEffect s t) : t.listing = s.listing := by
  cases h with
  | port h => exact h.listing
  | stage u => rfl
  | reset => rfl
  | fills ch i v => rfl

theorem AgentEffect.micro {s t : State} (h : AgentEffect s t) (hm : s.micro = none) :
    t.micro = none := by
  cases h with
  | port h =>
    rcases h.position.2 with e | ⟨_, e⟩
    · rw [e, hm]
    · exact e
  | stage u => exact hm
  | reset => rfl
  | fills ch i v => exact hm

/-- A listing without micro-operation lines stays one. -/
theorem step_noMicroLines {s t : State} (hn : NoMicroLines s) (h : step s = .next t) :
    NoMicroLines t := by
  obtain ⟨l, hl, ht⟩ := step_agentEffect hn h
  refine ⟨ht.micro hn.1, fun w hw => hn.2 w ?_⟩
  rw [ht.listing] at hw
  exact hl.subset hw

/-! ### The link and the prepared file through a step -/

/-- R22, and R24, R36, R37 once `PREP` is set. -/
def LinkedPrepared (s : State) : Prop := StereoLinked s.rf ∧ (s.prep = true → Prepared s.rf)

theorem stereoLinked_reset : StereoLinked State.reset.rf := ⟨fun _ _ _ => rfl, fun _ => rfl⟩

theorem Effect.linkedPrepared {s t : State} (h : Effect s t) (hs : LinkedPrepared s) :
    LinkedPrepared t := by
  obtain ⟨hl, hp⟩ := hs
  cases h with
  | prepares m =>
    have linked : StereoLinked (resetDelays s.rf) := hl.of_config (resetDelays_config s.rf)
    exact ⟨linked.loadDesign _,
      fun _ => prepared_loadDesign _ linked (delayLinesWritten_resetDelays s.rf)⟩
  | updates g q =>
    refine ⟨hl.loadDesign _, fun h => ?_⟩
    obtain ⟨_, _, hw, _⟩ := hp h
    exact prepared_loadDesign _ hl hw
  | samples c n g q =>
    exact ⟨hl.of_config (chainStep_config _ _ _), fun h => (hp h).chainStep _ _⟩
  | _ => exact ⟨hl, hp⟩

theorem AgentEffect.linkedPrepared {s t : State} (h : AgentEffect s t) (hs : LinkedPrepared s) :
    LinkedPrepared t := by
  cases h with
  | port h => exact h.linkedPrepared hs
  | reset => exact ⟨stereoLinked_reset, fun h => by cases h⟩
  | stage u => exact hs
  | fills ch i v => exact hs

/-! ### `PREP`, `HALT` and the fault bits -/

theorem coreTurn_prep {s t : State} (h : coreTurn s = .next t) :
    t.prep = s.prep ∨ t.prep = true := by
  rcases coreTurn_cases s with ⟨_, _, _, e⟩ | ⟨_, _, _, e⟩ | e <;> rw [e] at h
  · exact exec_prep h
  · exact exec_prep h
  · cases h; exact .inl rfl

/-- No step but hardware reset clears `PREP`. -/
theorem step_prep {s t : State} (h : step s = .next t) (hr : ∀ rest, s.listing ≠ .reset :: rest) :
    t.prep = s.prep ∨ t.prep = true := by
  rcases step_cases s with e | ⟨m, rest, hl, _, e⟩ <;> rw [e] at h
  · exact coreTurn_prep h
  · cases m with
    | send p =>
      simp only [takeMove] at h
      rcases portWord_cases p (s.setListing rest) with ⟨_, _, e⟩ | ⟨_, e⟩ | e | e <;> rw [e] at h
      · exact exec_prep (s := s.setListing rest) h
      · cases h; exact .inl rfl
      · cases h; exact .inl rfl
      · cases h
    | stage u => cases h; exact .inl rfl
    | core => exact coreTurn_prep (s := s.setListing rest) h
    | reset => exact absurd hl (hr rest)
    | bufWrite ch i v => cases h; exact .inl rfl
    | bufRead ch i => cases h; exact .inl rfl

/-- A hardware reset at the head of the listing is the step (R156). -/
theorem step_reset {s : State} {rest : List Move} (h : s.listing = .reset :: rest) :
    step s = .next (hwReset (s.setListing rest)) :=
  step_moves h (by simp [mustWait, neverWaits])

theorem faultBit_ne_zero (f : FaultCode) : faultBit f ≠ 0 := by cases f <;> decide

theorem SeqFault.keepsBits {s t : State} (h : SeqFault s t) : s.fault &&& t.fault = s.fault := by
  rcases h with ⟨_, e⟩ | ⟨_, f, _, e⟩ | ⟨_, _, e⟩ <;> rw [e]
  · exact BitVec.and_self
  · refine BitVec.eq_of_getLsbD_eq fun i _ => ?_
    rw [BitVec.getLsbD_and, BitVec.getLsbD_or]
    cases s.fault.getLsbD i <;> rfl
  · exact BitVec.and_self

theorem SeqFault.halted {s t : State} (h : SeqFault s t) (hs : s.seq = .halt) :
    t.seq = .halt ∧ t.fault = s.fault := by
  rcases h with ⟨e, ef⟩ | ⟨hn, _⟩ | ⟨hn, _⟩
  · exact ⟨e.trans hs, ef⟩
  · exact absurd hs hn
  · exact absurd hs hn

/-- A core that is not halted has no fault bit, so the bit a fault sets is its only one. -/
theorem SeqFault.coherent {s t : State} (h : SeqFault s t) (hs : FaultCoherent s) :
    FaultCoherent t := by
  obtain ⟨hiff, hone⟩ := hs
  have clear : s.seq ≠ .halt → s.fault = 0 := fun hn => by
    by_contra hf
    exact hn (hiff.2 hf)
  rcases h with ⟨es, ef⟩ | ⟨hn, f, ht, ef⟩ | ⟨hn, ht, ef⟩
  · unfold FaultCoherent
    rw [es, ef]
    exact ⟨hiff, hone⟩
  · have e : t.fault = faultBit f := by rw [ef, clear hn]; exact BitVec.zero_or
    exact ⟨⟨fun _ => by rw [e]; exact faultBit_ne_zero f, fun _ => ht⟩, .inr ⟨f, e⟩⟩
  · have e : t.fault = 0 := ef.trans (clear hn)
    exact ⟨⟨fun h => absurd h ht, fun h => absurd e h⟩, .inl e⟩

theorem faultCoherent_reset (s : State) : FaultCoherent (hwReset s) :=
  ⟨⟨nofun, fun h => absurd rfl h⟩, .inl rfl⟩

theorem statusWord_hwReset (s : State) : statusWord (hwReset s) = 0 := by
  have h : statusWord State.reset = 0 := by decide
  exact h

theorem onSchedule_reset : OnSchedule State.reset := ⟨trivial, fun _ _ => nofun⟩

theorem legalOrNovalue_novalue : LegalOrNovalue Params.novalue := fun j v h => by
  cases j <;> cases h

end Sys2Proof.Machine

namespace Sys2Proof.Proofs

open Machine

/-- Settles O57: `PREPARE`'s and `PROCESS`'s `COMMIT` make a prepared file of a linked one, a sample
writes delay lines only, and nothing else but reset writes the register file. -/
theorem stepKeepsPrepared : Obligations.StepKeepsPrepared := by
  intro s t hn hl hp h
  obtain ⟨l, _, ht⟩ := step_agentEffect hn h
  exact ⟨step_noMicroLines hn h, ht.linkedPrepared ⟨hl, hp⟩⟩

/-- Settles O51. -/
theorem onlyResetClears : Obligations.OnlyResetClears := by
  intro s t h hr
  have hsf : SeqFault s t := (step_seqFault h).resolve_right fun ⟨rest, e⟩ => hr rest e
  refine ⟨hsf.keepsBits, fun hp => ?_, hsf.halted⟩
  rcases step_prep h hr with e | e
  · exact e.trans hp
  · exact e

/-- Settles O55. -/
theorem stepKeepsFaultCoherence : Obligations.StepKeepsFaultCoherence := by
  intro s t hs h
  rcases step_seqFault h with hsf | ⟨rest, hl⟩
  · exact hsf.coherent hs
  · rw [step_reset hl] at h
    cases h
    exact faultCoherent_reset _

/-- Settles O52: reset waits for nothing, and takes the cells of `State.reset`. -/
theorem hardwareReset : Obligations.HardwareReset := by
  intro s rest hl
  refine ⟨_, step_reset hl, rfl, rfl, statusWord_hwReset _, rfl, rfl, rfl, fun j => ?_, fun c k j => ?_,
    fun c k => ?_, fun _ => rfl⟩
  · cases j <;> rfl
  · cases c <;> cases k <;> cases j <;> rfl
  · cases c <;> cases k <;> rfl

/-- Settles O58. -/
theorem invariantsAtReset : Obligations.InvariantsAtReset :=
  ⟨reset_buf_wf, faultCoherent_reset State.reset, onSchedule_reset, ⟨rfl, fun _ => nofun⟩,
    stereoLinked_reset, fun h => absurd h Bool.false_ne_true,
    ⟨rfl, legalOrNovalue_novalue, legalOrNovalue_novalue⟩⟩

end Sys2Proof.Proofs
end

section
/-! PROOF. The host port (R133, R134), and `PREPARE` and `PROCESS` position by position (R126, R127). -/

namespace Sys2Proof.Machine

/-! ### Fault entry -/

theorem faultBit_getLsbD (f : FaultCode) (i : Nat) :
    (faultBit f).getLsbD i = decide (i + 1 = faultCode f) := by
  rcases Nat.lt_or_ge i 7 with hi | hi
  · have small : ∀ i : Fin 7, (faultBit f).getLsbD i = decide (i.val + 1 = faultCode f) := by
      cases f <;> decide
    exact small ⟨i, hi⟩
  · have hc : faultCode f ≤ 7 := by cases f <;> decide
    rw [BitVec.getLsbD_of_ge _ _ hi, decide_eq_false (by omega)]

theorem faultEntry_raise (f : FaultCode) (s : State) : FaultEntry f s (raise f s) :=
  { bit := fun i => by rw [raise_fault, BitVec.getLsbD_or, faultBit_getLsbD]
    seq := rfl, rf := rfl, prep := rfl, argSr := rfl, sr := rfl, maxblk := rfl
    agents := ⟨rfl, rfl, rfl⟩, uop := rfl, bytes := fun _ => rfl }

/-! ### `STATUS` (R27) -/

theorem toNat_append_eq_add {n m : Nat} (x : BitVec n) (y : BitVec m) :
    (x ++ y).toNat = x.toNat * 2 ^ m + y.toNat := by
  rw [BitVec.toNat_append, ← Nat.shiftLeft_add_eq_or_of_lt y.isLt, Nat.shiftLeft_eq]

/-- The layout of `STATUS`: `PREP` in bit 0, `HALTED` in bit 1, `FAULT` from bit 8. -/
theorem statusWord_toNat (s : State) :
    (statusWord s).toNat = (if s.prep = true then 1 else 0) + (if s.fault ≠ 0 then 2 else 0)
      + 256 * s.fault.toNat := by
  have hp : (BitVec.ofBool s.prep).toNat = if s.prep = true then 1 else 0 := by
    cases s.prep <;> rfl
  have hh : 2 * (haltedBit s).toNat = if s.fault ≠ 0 then 2 else 0 := by
    unfold haltedBit
    by_cases hf : s.fault = 0
    · rw [if_pos hf, if_neg (fun hn => hn hf)]; rfl
    · rw [if_neg hf, if_pos hf]; rfl
  have e : (statusWord s).toNat = (((0 * 2 ^ 7 + s.fault.toNat) * 2 ^ 6 + 0) * 2 ^ 1
      + (haltedBit s).toNat) * 2 ^ 1 + (BitVec.ofBool s.prep).toNat := by
    simp only [statusWord, toNat_append_eq_add]
    rfl
  rw [e, ← hp, ← hh]
  omega

/-! ### The rate (R126, R140) -/

/-- The finite data above zero are the patterns `0x00000001` to `0x7F7FFFFF`. -/
theorem legalRate_iff (v : F) : legalRate v = true ↔ 0 < v.toNat ∧ v.toNat < 0x7F800000 := by
  have hv := v.isLt
  have zn : isNaN (0 : F) = false := by decide
  have zk : orderKey (0 : F) = 0 := by decide
  have finite_iff : isFinite v = true ↔ expField v ≠ 255 := bne_iff_ne
  have hkey : 0 < orderKey v ↔ v.toNat < 2 ^ 31 ∧ 0 < v.toNat := by
    unfold orderKey
    rw [signBit_eq]
    by_cases hb : 2 ^ 31 ≤ v.toNat
    · simp only [hb, decide_true, if_true]; omega
    · simp only [hb, decide_false, Bool.false_eq_true, if_false]; omega
  have hexp : v.toNat < 2 ^ 31 → (expField v ≠ 255 ↔ v.toNat < 0x7F800000) := by
    unfold expField
    omega
  simp only [legalRate, fLt, zn, zk, Bool.and_eq_true, Bool.not_eq_true', decide_eq_true_eq,
    Bool.not_false, true_and, hkey]
  constructor
  · rintro ⟨hf, _, hs, h0⟩
    exact ⟨h0, (hexp hs).1 (finite_iff.1 hf)⟩
  · rintro ⟨h0, hlt⟩
    have hs : v.toNat < 2 ^ 31 := by omega
    have hf := finite_iff.2 ((hexp hs).2 hlt)
    exact ⟨hf, isNaN_false_of_isFinite hf, hs, h0⟩

/-! ### What an update configures (R119) -/

theorem slopeOperand_of_index {v : F} {idx : SlopeIndex} (h : slopeIndex v = some idx) :
    slopeOperand v = idx := by
  simp [slopeOperand, h]

theorem designOf_index (p : Params) (sr : F) (side : Side) :
    (designOf numFns p sr).index side = slopeOperand (p.value (slopeParam side)) := by
  cases side <;> rfl

theorem designOf_sections (p : Params) (sr : F) (side : Side) :
    (designOf numFns p sr).sections side =
      cutDesign numFns (p.value (freqParam side)) sr
        (slopeOrder (slopeOperand (p.value (slopeParam side)))) (kindOf side) := by
  cases side <;> rfl

/-- A design of slope index `idx` has `idx + 1` sections (R75, R84). -/
theorem cutDesign_length (nf : NumFns) (fc sr : F) (idx : SlopeIndex) (kind : Kind) :
    (cutDesign nf fc sr (slopeOrder idx) kind).length = idx.toNat + 1 := by
  have h : ∀ idx : SlopeIndex, (invQ (slopeOrder idx)).length = idx.toNat + 1 := by decide
  rw [cutDesign, List.length_map, h]

theorem setAt_of_getElem? {seqn : List CoefSet} {i : Nat} {set : CoefSet} (h : seqn[i]? = some set) :
    setAt seqn i = set := by
  simp [setAt, List.getD_eq_getElem?_getD, h]

theorem configuredBy_loadDesign (p : Params) (sr : F) (rf : RegFile) :
    ConfiguredBy p sr rf (loadDesign (designOf numFns p sr) rf) := by
  refine ⟨fun c j hj => loadDesign_peak _ rf c j hj, fun c side idx hidx i hi => ?_,
    fun c side idx hidx i hi => ?_, loadDesign_delays _ rf⟩
  · obtain ⟨on, _⟩ := loadDesign_cut (designOf numFns p sr) rf c side i
    rw [designOf_index, slopeOperand_of_index hidx, designOf_sections,
      slopeOperand_of_index hidx] at on
    have hlen := cutDesign_length numFns (p.value (freqParam side)) sr idx (kindOf side)
    have hget := List.getElem?_eq_getElem ((Nat.lt_succ_of_le hi).trans_eq hlen.symm)
    refine ⟨(on hi).1, _, hget, fun j hj => ?_⟩
    rw [(on hi).2 j hj, setAt_of_getElem? hget]
  · obtain ⟨_, off⟩ := loadDesign_cut (designOf numFns p sr) rf c side i
    rw [designOf_index, slopeOperand_of_index hidx] at off
    exact ⟨(off hi).1, fun j _ => (off hi).2 j⟩

/-- After `PREPARE`'s `COMMIT` every delay register holds `+0.0` (R126). -/
theorem prepareCommit_delays (m : BitVec 16) (s : State) (c : Chain) (k : SlotId) {j : Reg}
    (hj : isDelay j = true) : (prepareCommit m s).rf.read c k j = some 0x00000000#32 := by
  rw [prepareCommit_rf, loadDesign_delays _ _ c k j hj, resetDelays_read, if_pos hj]
  rfl

/-- `PREPARE`'s `COMMIT` configures both chains of the register file with the delay lines cleared. -/
theorem prepareCommit_configured (m : BitVec 16) (s : State) :
    ∃ rf, SameConfiguration s.rf rf ∧
      ConfiguredBy s.stg.snap s.stg.rate rf (prepareCommit m s).rf :=
  ⟨resetDelays s.rf, resetDelays_config s.rf, configuredBy_loadDesign _ _ _⟩

/-! ### The tests of `PCHECK` on a legal snapshot (R118) -/

theorem legalValue_of_legalParam {j : ParamId} {v : F} (h : LegalParam j v) :
    legalValue j v = true := by
  have slope : v = 0x00000000#32 ∨ v = 0x80000000#32 ∨ v = 0x3F800000#32 ∨ v = 0x40000000#32 ∨
      v = 0x40400000#32 → (slopeIndex v).isSome = true := by
    rintro (rfl | rfl | rfl | rfl | rfl) <;> decide
  cases j with
  | lowCutSlope => exact slope h
  | highCutSlope => exact slope h
  | _ => exact Bool.and_eq_true_iff.2 h

theorem anyNovalue_of_allLegal {p : Params} (h : AllLegal p) : anyNovalue p = false := by
  have holds : ∀ j, (p.get j).isNone = false := fun j => by
    obtain ⟨v, hv, _⟩ := h j
    rw [hv]
    rfl
  simp only [anyNovalue, Bool.or_eq_false_iff]
  exact ⟨⟨⟨⟨⟨⟨holds .lowCutFreq, holds .highCutFreq⟩, holds .peakFreq⟩, holds .peakGainDb⟩,
    holds .peakQuality⟩, holds .lowCutSlope⟩, holds .highCutSlope⟩

/-- A snapshot of legal values below half the rate passes. -/
theorem checkParams_of_legal {p : Params} {sr : F} (h : AllLegal p) (hb : BelowHalf p sr) :
    checkParams p sr = none := by
  have range : paramsInRange p = true := (paramsInRange_iff p).2 fun j => by
    obtain ⟨v, hv, hl⟩ := h j
    rw [Params.value_eq_of_get hv]
    exact legalValue_of_legalParam hl
  have below : ∀ j, j = .lowCutFreq ∨ j = .highCutFreq ∨ j = .peakFreq →
      fLt (p.value j) (fMul 0x3F000000#32 sr) = true := fun j hj => by
    obtain ⟨v, hv, _⟩ := h j
    rw [Params.value_eq_of_get hv]
    exact hb j v hj hv
  have nyquist : belowNyquist p sr = true := by
    simp only [belowNyquist, Bool.and_eq_true]
    exact ⟨⟨below _ (.inl rfl), below _ (.inr (.inl rfl))⟩, below _ (.inr (.inr rfl))⟩
  simp [checkParams, anyNovalue_of_allLegal h, range, nyquist]

/-! ### A `PREPARE` left to itself -/

/-- With nothing listed the step is the command's. -/
theorem step_command {s : State} {cmd : Cmd} {ph : Phase} (hl : s.listing = [])
    (hs : s.seq = .run cmd ph) : step s = exec (cmdInstr cmd) s := by
  rw [step_nil hl, coreTurn, hs]

/-- A command of `s` at phase `ph` with the snapshot `p`. -/
def withSnapshot (s : State) (cmd : Cmd) (p : Params) (ph : Phase) : State :=
  (s.setStg { s.stg with snap := p }).setSeq (.run cmd ph)

/-- One read of a command, with nothing listed, at the head of a run (R116). -/
theorem run_read {s : State} {cmd : Cmd} {p : Params} {k : Nat} {r : Result} (j : ParamId)
    (hl : s.listing = [])
    (h : Host.Core.run Sys2Proof.core k
      (withSnapshot s cmd (p.put j (s.par.get j)) (phaseAfterSnap j)) = r) :
    Host.Core.run Sys2Proof.core (k + 1) (withSnapshot s cmd p (.snap j)) = r := by
  refine (run_succ ?_).trans h
  rw [step_command (s := withSnapshot s cmd p (.snap j)) hl rfl, exec_cmdInstr rfl]
  cases cmd <;> rfl

/-- Seven cells written from `q` are `q`. -/
theorem put_all (p q : Params) :
    ((((((p.put .lowCutFreq (q.get .lowCutFreq)).put .highCutFreq (q.get .highCutFreq)).put
      .peakFreq (q.get .peakFreq)).put .peakGainDb (q.get .peakGainDb)).put
      .peakQuality (q.get .peakQuality)).put .lowCutSlope (q.get .lowCutSlope)).put
      .highCutSlope (q.get .highCutSlope) = q := rfl

/-- The seven reads of a command, one step each, with nothing listed: the snapshot is the store. -/
theorem run_snapshot {s : State} {cmd : Cmd} (hl : s.listing = []) (p : Params) :
    Host.Core.run Sys2Proof.core 7 (withSnapshot s cmd p (.snap .lowCutFreq)) =
      .next (withSnapshot s cmd s.par .pcheck) := by
  refine run_read .lowCutFreq hl <| run_read .highCutFreq hl <| run_read .peakFreq hl <|
    run_read .peakGainDb hl <| run_read .peakQuality hl <| run_read .lowCutSlope hl <|
    run_read .highCutSlope hl ?_
  rw [put_all]
  rfl

/-- The state in which a `PREPARE` that reads the parameters `p` and the rate `sr` commits. -/
def atPrepareCommit (m : BitVec 16) (s : State) : State :=
  (s.setStg { s.stg with snap := s.par, rate := s.argSr }).setSeq (.run (.prepare m) .commit)

/-- With nothing listed the step is the one of `PREPARE`'s position. -/
theorem step_prepare {s : State} {m : BitVec 16} {ph : Phase} (hl : s.listing = [])
    (hs : s.seq = .run (.prepare m) ph) : step s = prepareAt m ph s :=
  (step_command hl hs).trans (exec_prepare_at hs)

theorem prepareAt_pcheck_pass (m : BitVec 16) {s : State}
    (h : checkParams s.stg.snap s.stg.rate = none) :
    prepareAt m .pcheck s = .next (s.setSeq (.run (.prepare m) .commit)) := by
  simp only [prepareAt, pcheckStep, h]

/-- From `CHECK` to `COMMIT` in nine steps, when every test passes. -/
theorem run_prepare_to_commit {s : State} {m : BitVec 16} (hl : s.listing = [])
    (hs : s.seq = .run (.prepare m) .check) (hr : legalRate s.argSr = true) (hp : AllLegal s.par)
    (hb : BelowHalf s.par s.argSr) :
    Host.Core.run Sys2Proof.core 9 s = .next (atPrepareCommit m s) := by
  have check : step s = .next ((s.setStg { s.stg with rate := s.argSr }).setSeq
      (.run (.prepare m) (.snap .lowCutFreq))) :=
    (step_prepare hl hs).trans (congrArg _ (if_pos hr))
  have reads := run_snapshot (s := s.setStg { s.stg with rate := s.argSr }) (cmd := .prepare m) hl
    s.stg.snap
  have pcheck := (step_prepare (s := (s.setStg { s.stg with snap := s.par, rate := s.argSr }).setSeq
    (.run (.prepare m) .pcheck)) hl rfl).trans
    (prepareAt_pcheck_pass m (checkParams_of_legal hp hb))
  exact (run_succ check).trans ((run_add (k := 1) reads).trans (run_succ (k := 0) pcheck))

/-! ### One sample of a `PROCESS` -/

theorem sameBytesOutside_procSample (c : Chain) (n : BitVec 16) {s : State}
    (hm : s.buf.wf = true) :
    SameBytesOutside (cellAddr (channelOf c) n) s (procSample c n s) := by
  intro b hb
  rw [procSample_buf, loadByte_storeCell hm, if_neg (by omega), if_neg (by omega),
    if_neg (by omega), if_neg (by omega)]

/-! ### A chain's step depends on that chain alone (R128) -/

/-- Sample and chain `c` are the same on both sides. -/
def SameOnChain (c : Chain) (v v' : F × RegFile) : Prop :=
  v.1 = v'.1 ∧ v.2.chain c = v'.2.chain c

theorem value_congr {rf rf' : RegFile} {c : Chain} (h : rf.chain c = rf'.chain c) (k : SlotId)
    (j : Reg) : rf.value c k j = rf'.value c k j := by
  simp only [RegFile.value, RegFile.read, RegFile.slot, h]

theorem active_congr {rf rf' : RegFile} {c : Chain} (h : rf.chain c = rf'.chain c) (k : SlotId) :
    rf.active c k = rf'.active c k := by
  simp only [RegFile.active, RegFile.flag, h]

theorem chain_write_congr {rf rf' : RegFile} {c : Chain} (h : rf.chain c = rf'.chain c) (k : SlotId)
    (j : Reg) (v : F) : (rf.write c k j v).chain c = (rf'.write c k j v).chain c := by
  simp only [RegFile.write, RegFile.chain_setSlot_same, RegFile.slot, h]

theorem SameOnChain.bqStep {c : Chain} {v v' : F × RegFile} (h : SameOnChain c v v') (k : SlotId) :
    SameOnChain c (bqStep v.2 c k v.1) (bqStep v'.2 c k v'.1) := by
  obtain ⟨hx, hc⟩ := h
  have inner : bqInner v.2 c k v.1 = bqInner v'.2 c k v'.1 := by
    simp only [bqInner, value_congr hc, hx]
  refine ⟨?_, ?_⟩
  · simp only [Machine.bqStep, bqOutput, value_congr hc, inner]
  · simp only [Machine.bqStep, value_congr hc, inner]
    exact chain_write_congr (chain_write_congr hc k .w2 _) k .w1 _

theorem SameOnChain.cascTurn {c : Chain} {v v' : F × RegFile} (h : SameOnChain c v v') (side : Side)
    (i : Fin 4) : SameOnChain c (cascTurn c side v i) (cascTurn c side v' i) := by
  unfold Machine.cascTurn
  rw [active_congr h.2]
  split
  · exact h.bqStep _
  · exact h

theorem SameOnChain.cascStep {c : Chain} {v v' : F × RegFile} (h : SameOnChain c v v')
    (side : Side) : SameOnChain c (cascStep v.2 c side v.1) (cascStep v'.2 c side v'.1) :=
  (((h.cascTurn side 0).cascTurn side 1).cascTurn side 2).cascTurn side 3

theorem SameOnChain.chainStep {c : Chain} {v v' : F × RegFile} (h : SameOnChain c v v') :
    SameOnChain c (chainStep v.2 c v.1) (chainStep v'.2 c v'.1) :=
  ((h.cascStep .low).bqStep .pk).cascStep .high

/-- What a `PROC(c, n)` that answers a next state leaves in chain `c` and in the sample. -/
theorem exec_process_sample {s t : State} {nch : BitVec 8} {len : BitVec 16} {c : Chain}
    {n : BitVec 16} (hs : s.seq = .run (.process nch len) (.proc c n)) (hm : s.buf.wf = true)
    (h : exec (.process nch len) s = .next t) :
    SameOnChain c (memRead t (channelOf c) n, t.rf)
      (chainStep s.rf c (memRead s (channelOf c) n)) := by
  rw [exec_process_at hs] at h
  simp only [processAt, processSample] at h
  split at h <;> cases h
  obtain ⟨g, e⟩ := afterSample_next nch len c n (procSample c n s)
  rw [e]
  exact ⟨(memRead_procSample c n hm (channelOf c) n).trans (if_pos ⟨rfl, rfl⟩), rfl⟩

end Sys2Proof.Machine

namespace Sys2Proof.Proofs

open Machine

/-- Settles O44. -/
theorem hostWrite : Obligations.HostWrite := by
  intro s addr data hr
  rw [exec_wrreg_at_rest addr data hr]
  rcases writeReg_cases addr data s with ⟨rfl, hs, e⟩ | ⟨rfl, e⟩ | ⟨h2, hi, e⟩ <;> rw [e]
  · refine ⟨nofun, fun _ _ cmd hd => ?_, fun _ _ hd => ?_, fun _ hh => ?_, fun h => absurd rfl h⟩
    · rw [writeCommand, decodeCommand_of_decode hd]
      rfl
    · rw [writeCommand, decodeCommand_of_illegal hd]
      exact ⟨_, rfl, faultEntry_raise .illcmd s⟩
    · cases hs.symm.trans hh
  · exact ⟨fun _ => rfl, nofun, nofun, nofun, fun _ h => absurd rfl h⟩
  · exact ⟨fun h => absurd h h2, fun h hs => absurd hs (hi h), fun h hs => absurd hs (hi h),
      fun _ _ => rfl, fun _ _ => rfl⟩

/-- Settles O45. -/
theorem hostRead : Obligations.HostRead := by
  intro s addr hr
  refine ⟨readReg addr s, exec_rdreg_at_rest addr hr, ?_, ?_, ?_, ?_, ?_⟩
  · rintro rfl
    exact statusWord_toNat s
  · rintro rfl
    rfl
  · rintro rfl
    rfl
  · rintro rfl
    exact BitVec.toNat_setWidth_of_le (by decide)
  · rintro (rfl | h)
    · rfl
    · unfold readReg
      split
      iterate 4 omega
      rfl

/-- Settles O34. -/
theorem prepareCheck : Obligations.PrepareCheck := by
  intro s m
  refine ⟨fun hs => ?_, fun hs => ?_⟩
  · simp only [exec, execPrepare, hs]
    rfl
  · rw [← legalRate_iff, exec_prepare_at hs]
    rcases prepareCheck_cases m s with ⟨hr, e⟩ | ⟨hr, e⟩
    · exact ⟨fun _ => congrArg Host.Outcome.next e, fun hn => absurd hr hn⟩
    · exact ⟨fun h => absurd (hr.symm.trans h) nofun,
        fun _ => ⟨_, congrArg Host.Outcome.next e, faultEntry_raise .sr s⟩⟩

/-- Settles O36. -/
theorem prepareCommit : Obligations.PrepareCommit := by
  intro s m hs _
  refine ⟨Machine.prepareCommit m s, ?_, rfl, rfl, rfl, rfl, rfl, rfl,
    fun c k j hj => prepareCommit_delays m s c k hj, prepareCommit_configured m s, rfl, rfl,
    ⟨rfl, rfl, rfl⟩, fun _ => rfl⟩
  exact exec_prepare_at hs

/-- Settles O37: the word is accepted, nine steps lead from `CHECK` to `COMMIT`, and the commit is the
eleventh. -/
theorem prepareRun : Obligations.PrepareRun := by
  intro s m hs hm hl h0 hlt hp hb
  have accepted : step s = .next (acceptCommand (.prepare m) (s.setListing [])) := by
    have hw : mustWait (.send (.command (0x0100#16 ++ m))) s = false :=
      mustWait_of_not_busy _ (by simp [busy, hs, hm])
    rw [step_moves hl hw, takeMove, portWord, decode_prepareWord]
    simp only [exec, execPrepare, State.setListing_seq, hs]
  have ten : Host.Core.run Sys2Proof.core 10 s =
      .next (atPrepareCommit m (acceptCommand (.prepare m) (s.setListing []))) :=
    (run_succ accepted).trans (run_prepare_to_commit rfl rfl ((legalRate_iff _).2 ⟨h0, hlt⟩) hp hb)
  have commit := step_prepare (m := m) (ph := .commit)
    (s := atPrepareCommit m (acceptCommand (.prepare m) (s.setListing []))) rfl rfl
  have eleven := (run_add (k := 1) ten).trans (run_succ (k := 0) commit)
  exact ⟨⟨_, ten, rfl⟩, _, eleven, rfl, rfl, rfl, rfl, rfl, rfl, rfl,
    fun c k j hj => prepareCommit_delays m _ c k hj,
    prepareCommit_configured m (atPrepareCommit m (acceptCommand (.prepare m) (s.setListing []))),
    hm, rfl, fun _ => rfl⟩

/-- Settles O40. -/
theorem processSample : Obligations.ProcessSample := by
  intro s nch len c n hs h2 hn hm
  have hch : (if c = .left then 0 else 1 : BitVec 8) = channelOf c := by cases c <;> rfl
  rw [hch, exec_process_at hs]
  obtain ⟨g, e⟩ := afterSample_next nch len c n (procSample c n s)
  refine ⟨_, processSample_next c s h2 hn, ?_⟩
  rw [e]
  exact ⟨(memRead_procSample c n hm _ n).trans (if_pos ⟨rfl, rfl⟩), rfl, chainStep_config _ _ _,
    fun c' k hc => chainStep_other_chain _ k _ hc, sameBytesOutside_procSample c n hm, rfl, rfl, rfl,
    ⟨rfl, rfl, rfl, rfl, rfl⟩, rfl, rfl, rfl⟩

/-- Settles O42: both steps leave what `CHAIN_STEP` makes of the same sample and chain. -/
theorem channelsDoNotInteract : Obligations.ChannelsDoNotInteract := by
  intro s s' t t' nch nch' len len' c n hs hs' hm hm' hc hx h h'
  have same : SameOnChain c (Machine.chainStep s.rf c (memRead s (channelOf c) n))
      (Machine.chainStep s'.rf c (memRead s' (channelOf c) n)) :=
    SameOnChain.chainStep (v := (_, s.rf)) (v' := (_, s'.rf)) ⟨hx, hc⟩
  obtain ⟨hy, hr⟩ := exec_process_sample hs hm h
  obtain ⟨hy', hr'⟩ := exec_process_sample hs' hm' h'
  exact ⟨(hr.trans same.2).trans hr'.symm, (hy.trans same.1).trans hy'.symm⟩

end Sys2Proof.Proofs
end

section
/-! PROOF. What one step can do to the buffer, the parameter store, the snapshot and the fault bits
(R41, R53, R116, R118): the canonical form of the buffer and the contract on the store. -/

namespace Sys2Proof.Machine

/-! ### The reads of a command -/

/-- The position of a command that has made `n` of its seven reads (R25). -/
def phaseAfterReads : Nat → Phase
  | 0 => .snap .lowCutFreq
  | 1 => .snap .highCutFreq
  | 2 => .snap .peakFreq
  | 3 => .snap .peakGainDb
  | 4 => .snap .peakQuality
  | 5 => .snap .lowCutSlope
  | 6 => .snap .highCutSlope
  | _ => .pcheck

theorem paramNumber_lt (j : ParamId) : paramNumber j < 7 := by cases j <;> decide

theorem exists_paramNumber {n : Nat} (h : n < 7) : ∃ j, paramNumber j = n := by
  match n, h with
  | 0, _ => exact ⟨.lowCutFreq, rfl⟩
  | 1, _ => exact ⟨.highCutFreq, rfl⟩
  | 2, _ => exact ⟨.peakFreq, rfl⟩
  | 3, _ => exact ⟨.peakGainDb, rfl⟩
  | 4, _ => exact ⟨.peakQuality, rfl⟩
  | 5, _ => exact ⟨.lowCutSlope, rfl⟩
  | 6, _ => exact ⟨.highCutSlope, rfl⟩

/-- Before the read of `j` come as many reads as `j`'s index says. -/
theorem phaseAfterReads_paramNumber (j : ParamId) : phaseAfterReads (paramNumber j) = .snap j := by
  cases j <;> rfl

/-- Reads go by ascending index (R116). -/
theorem phaseAfterSnap_eq (j : ParamId) :
    phaseAfterSnap j = phaseAfterReads (paramNumber j + 1) := by
  cases j <;> rfl

theorem paramNumber_injective {i j : ParamId} (h : paramNumber i = paramNumber j) : i = j :=
  Phase.snap.inj (by rw [← phaseAfterReads_paramNumber, h, phaseAfterReads_paramNumber])

/-- After `n` reads the command has read the parameters of index below `n`. -/
theorem hasRead_phaseAfterReads {n : Nat} (hn : n ≤ 7) (i : ParamId) :
    hasRead (phaseAfterReads n) i ↔ paramNumber i < n := by
  rcases Nat.lt_or_eq_of_le hn with h | rfl
  · obtain ⟨j, rfl⟩ := exists_paramNumber h
    rw [phaseAfterReads_paramNumber]
    rfl
  · exact iff_of_true trivial (paramNumber_lt i)

/-- The command in flight has read parameter `j`, and may still use it. -/
def ReadInFlight (s : State) (j : ParamId) : Prop :=
  ∃ cmd ph, s.seq = .run cmd ph ∧ hasRead ph j

/-! ### One row of the opcode table -/

/-- All that one step can do to the snapshot, with what it does to `FAULT` and to the set of the
parameters read; `line` says that the step is a `C:` line's. -/
inductive SnapEffect (line : Bool) (s t : State) : Prop
  /-- The snapshot stays, and no parameter is read. -/
  | keeps (snap : t.stg.snap = s.stg.snap) (fault : t.fault = s.fault)
      (read : ∀ j, ReadInFlight t j → ReadInFlight s j)
  /-- `SNAP(j)` (R116). -/
  | reads (j : ParamId) (snap : t.stg.snap = s.stg.snap.put j (s.par.get j))
      (fault : t.fault = s.fault) (read : ∀ i, ReadInFlight t i → i = j ∨ ReadInFlight s i)
  /-- A command ends. -/
  | ends (snap : t.stg.snap = Params.novalue) (fault : t.fault = s.fault)
      (read : ∀ j, ¬ReadInFlight t j)
  /-- A fault is entered; `PARAM` comes from the tests of `PCHECK` alone (R118), which a command
  makes when it has read all seven parameters. -/
  | faults (f : FaultCode) (snap : t.stg.snap = Params.novalue)
      (fault : t.fault = s.fault ||| faultBit f) (read : ∀ j, ¬ReadInFlight t j)
      (param : f = .param → (∃ sr, checkParams s.stg.snap sr = some .param) ∧
        (line = false → ∀ j, ReadInFlight s j))

/-- The buffer is as before or has one cell stored. -/
def BufEffect (s t : State) : Prop := t.buf = s.buf ∨ ∃ a v, t.buf = storeCell s.buf a v

/-- What a step that is neither a parameter write nor hardware reset does to the moves to come, the
store, the buffer and the snapshot. -/
structure MemoryEffect (line : Bool) (s t : State) : Prop where
  listing : t.listing = s.listing
  par : t.par = s.par
  buf : BufEffect s t
  snap : SnapEffect line s t

theorem not_readInFlight_of_rest {s : State} (h : ∀ cmd ph, s.seq ≠ .run cmd ph) (j : ParamId) :
    ¬ReadInFlight s j :=
  fun ⟨cmd, ph, hs, _⟩ => h cmd ph hs

/-- Nothing of the four changes, nor the position of the command. -/
theorem MemoryEffect.of_same {line : Bool} {s t : State} (hl : t.listing = s.listing)
    (hp : t.par = s.par) (hb : t.buf = s.buf) (hg : t.stg.snap = s.stg.snap)
    (hf : t.fault = s.fault) (hs : t.seq = s.seq) : MemoryEffect line s t :=
  ⟨hl, hp, .inl hb, .keeps hg hf fun j h => by simpa only [ReadInFlight, hs] using h⟩

theorem MemoryEffect.refl {line : Bool} (s : State) : MemoryEffect line s s :=
  .of_same rfl rfl rfl rfl rfl rfl

theorem memoryEffect_raise {line : Bool} {f : FaultCode} {s : State}
    (param : f = .param → (∃ sr, checkParams s.stg.snap sr = some .param) ∧
      (line = false → ∀ j, ReadInFlight s j)) : MemoryEffect line s (raise f s) :=
  ⟨rfl, rfl, .inl rfl, .faults f rfl rfl (not_readInFlight_of_rest nofun) param⟩

/-- The step `PCHECK`, when what passes it does so. -/
theorem memoryEffect_pcheckStep {line : Bool} {s pass : State} (sr : F)
    (h : MemoryEffect line s pass) (read : line = false → ∀ j, ReadInFlight s j) :
    MemoryEffect line s (pcheckStep sr s pass) := by
  rcases pcheckStep_cases sr s pass with ⟨_, e⟩ | ⟨f, hf, e⟩ <;> rw [e]
  · exact h
  · exact memoryEffect_raise fun hp => ⟨⟨sr, hp ▸ hf⟩, read⟩

/-- A command accepted (R31). -/
theorem memoryEffect_acceptCommand (cmd : Cmd) (s : State) :
    MemoryEffect false s (acceptCommand cmd s) :=
  ⟨rfl, rfl, .inl rfl, .keeps rfl rfl fun j ⟨_, _, hq, hr⟩ => by cases hq; exact hr.elim⟩

/-- Before a read of `j` the command has read what comes before `j`; after it, `j` too (R116). -/
theorem hasRead_phaseAfterSnap {i j : ParamId} (h : hasRead (phaseAfterSnap j) i) :
    i = j ∨ hasRead (.snap j) i := by
  rw [phaseAfterSnap_eq, hasRead_phaseAfterReads (paramNumber_lt j)] at h
  rcases Nat.lt_succ_iff_lt_or_eq.1 h with hlt | heq
  · exact .inr hlt
  · exact .inl (paramNumber_injective heq)

/-- `SNAP(j)` of a command. -/
theorem memoryEffect_read {s : State} {cmd : Cmd} {j : ParamId} (hs : s.seq = .run cmd (.snap j)) :
    MemoryEffect false s ((snapStep j s).setSeq (.run cmd (phaseAfterSnap j))) := by
  refine ⟨rfl, rfl, .inl rfl, .reads j rfl rfl fun i ⟨_, _, hq, hr⟩ => ?_⟩
  cases hq
  exact (hasRead_phaseAfterSnap hr).imp_right fun h => ⟨_, _, hs, h⟩

/-- A command at `PCHECK` (R118). -/
theorem memoryEffect_check {s : State} {cmd : Cmd} (sr : F) (hs : s.seq = .run cmd .pcheck) :
    MemoryEffect false s (pcheckStep sr s (s.setSeq (.run cmd .commit))) :=
  have read : ∀ j, ReadInFlight s j := fun _ => ⟨_, _, hs, trivial⟩
  memoryEffect_pcheckStep sr ⟨rfl, rfl, .inl rfl, .keeps rfl rfl fun j _ => read j⟩ fun _ => read

theorem prepareAt_memoryEffect {m : BitVec 16} {ph : Phase} {s t : State}
    (hs : s.seq = .run (.prepare m) ph) (h : prepareAt m ph s = .next t) :
    MemoryEffect false s t := by
  cases ph with
  | check =>
    cases h
    rcases prepareCheck_cases m s with ⟨_, e⟩ | ⟨_, e⟩ <;> rw [e]
    · exact ⟨rfl, rfl, .inl rfl,
        .keeps rfl rfl fun j ⟨_, _, hq, hr⟩ => by cases hq; exact (Nat.not_lt_zero _ hr).elim⟩
    · exact memoryEffect_raise nofun
  | snap j => cases h; exact memoryEffect_read hs
  | pcheck => cases h; exact memoryEffect_check _ hs
  | commit =>
    cases h
    exact ⟨rfl, rfl, .inl rfl, .ends rfl rfl (not_readInFlight_of_rest nofun)⟩
  | proc c n => cases h

/-- The end of a `PROCESS`, or its next sample: `PROC` uses the snapshot no more. -/
theorem memoryEffect_afterSample {s u : State} (nch : BitVec 8) (len : BitVec 16) (c : Chain)
    (n : BitVec 16) (h : MemoryEffect false s u) (hu : u.stg.snap = s.stg.snap)
    (hf : u.fault = s.fault) : MemoryEffect false s (afterSample nch len c n u) := by
  have goes : ∀ c' n', MemoryEffect false s (u.setSeq (.run (.process nch len) (.proc c' n'))) :=
    fun c' n' => ⟨h.listing, h.par, h.buf,
      .keeps hu hf fun j ⟨_, _, hq, hr⟩ => by cases hq; exact hr.elim⟩
  rcases afterSample_cases nch len c n u with ⟨_, e⟩ | ⟨_, _, e⟩ | ⟨_, _, e⟩ <;> rw [e]
  · exact goes _ _
  · exact goes _ _
  · exact ⟨h.listing, h.par, h.buf, .ends rfl hf (not_readInFlight_of_rest nofun)⟩

/-- `CHAIN_STEP` on a sample of the buffer stores its cell, and nothing else of the memories. -/
theorem memoryEffect_procSample (c : Chain) (n : BitVec 16) (s : State) :
    MemoryEffect false s (procSample c n s) :=
  ⟨rfl, rfl, .inr ⟨_, _, procSample_buf c n s⟩, .keeps rfl rfl fun _ h => h⟩

theorem processAt_memoryEffect {nch : BitVec 8} {len : BitVec 16} {ph : Phase} {s t : State}
    (hs : s.seq = .run (.process nch len) ph) (h : processAt nch len ph s = .next t) :
    MemoryEffect false s t := by
  cases ph with
  | check =>
    cases h
    rcases processCheck_cases nch len s with ⟨f, hf, e⟩ | ⟨_, _, _, e⟩ <;> rw [e]
    · exact memoryEffect_raise (by rintro rfl; simp at hf)
    · exact ⟨rfl, rfl, .inl rfl,
        .keeps rfl rfl fun j ⟨_, _, hq, hr⟩ => by cases hq; exact (Nat.not_lt_zero _ hr).elim⟩
  | snap j => cases h; exact memoryEffect_read hs
  | pcheck => cases h; exact memoryEffect_check _ hs
  | commit =>
    cases h
    unfold processCommit
    split
    · exact ⟨rfl, rfl, .inl rfl, .ends rfl rfl (not_readInFlight_of_rest nofun)⟩
    · exact ⟨rfl, rfl, .inl rfl,
        .keeps rfl rfl fun j ⟨_, _, hq, hr⟩ => by cases hq; exact hr.elim⟩
  | proc c n =>
    simp only [processAt, processSample] at h
    split at h <;> cases h
    exact memoryEffect_afterSample nch len c n (memoryEffect_procSample c n s) rfl rfl

/-- Every micro-operation. -/
theorem exec_micro_memoryEffect {i : Instr} {s t : State} (hi : isMicro i = true)
    (h : exec i s = .next t) : MemoryEffect true s t := by
  have eff : ∀ {u : State}, coreDoes s u = .next t → MemoryEffect true s u →
      MemoryEffect true s t := by
    intro u hc hu
    rcases coreDoes_cases hc with ⟨_, rfl⟩ | ⟨_, rfl⟩
    · exact .refl _
    · exact hu
  have same : ∀ {u : State}, coreDoes s u = .next t → u.listing = s.listing → u.par = s.par →
      u.buf = s.buf → u.stg.snap = s.stg.snap → u.fault = s.fault → u.seq = s.seq →
      MemoryEffect true s t := fun hc h1 h2 h3 h4 h5 h6 => eff hc (.of_same h1 h2 h3 h4 h5 h6)
  have snap : ∀ j pos, MemoryEffect true s ((snapStep j s).setMicro pos) := fun j pos =>
    ⟨rfl, rfl, .inl rfl, .reads j rfl rfl fun _ h => .inr h⟩
  cases i with
  | slope2count => exact same h rfl rfl rfl rfl rfl rfl
  | slope2order => exact same h rfl rfl rfl rfl rfl rfl
  | calcPeak => exact same h rfl rfl rfl rfl rfl rfl
  | calcCut => exact same h rfl rfl rfl rfl rfl rfl
  | bqLoad => exact same h rfl rfl rfl rfl rfl rfl
  | bqReset => exact same h rfl rfl rfl rfl rfl rfl
  | bqStep => exact same h rfl rfl rfl rfl rfl rfl
  | cfgCut => exact same h rfl rfl rfl rfl rfl rfl
  | cascStep => exact same h rfl rfl rfl rfl rfl rfl
  | cfgPeak => exact same h rfl rfl rfl rfl rfl rfl
  | chainStep => exact same h rfl rfl rfl rfl rfl rfl
  | updApply => exact same h rfl rfl rfl rfl rfl rfl
  | chainProc =>
    simp only [exec, execChainProc] at h
    split at h
    · cases h; exact .refl _
    · split at h <;> cases h
      exact ⟨rfl, rfl, .inr ⟨_, _, procSample_buf s.uop.c _ s⟩, .keeps rfl rfl fun _ h => h⟩
  | snapshot => exact eff h (snap _ _)
  | pcheck => exact eff h (memoryEffect_pcheckStep _ (.refl s) nofun)
  | update =>
    refine eff h ?_
    cases updateStart s with
    | snap j => exact snap j _
    | pcheck => exact memoryEffect_pcheckStep _ (.of_same rfl rfl rfl rfl rfl rfl) nofun
    | commit => exact .of_same rfl rfl rfl rfl rfl rfl
  | prepare m => cases hi
  | process nch len => cases hi
  | wrreg addr data => cases hi
  | rdreg addr => cases hi
  | pwrite idx val => cases hi

theorem writeReg_memoryEffect (addr : BitVec 3) (data : BitVec 32) (s : State) :
    MemoryEffect false s (writeReg addr data s) := by
  rcases writeReg_cases addr data s with ⟨_, _, e⟩ | ⟨_, e⟩ | ⟨_, _, e⟩ <;> rw [e]
  · rcases writeCommand_cases data s with ⟨cmd, _, e⟩ | ⟨_, e⟩ <;> rw [e]
    · exact memoryEffect_acceptCommand cmd s
    · exact memoryEffect_raise nofun
  · exact .of_same rfl rfl rfl rfl rfl rfl
  · exact .of_same rfl rfl rfl rfl rfl rfl

/-- Every row of the table but `PWRITE`. -/
theorem exec_memoryEffect {i : Instr} {s t : State} (hi : ∀ idx v, i ≠ .pwrite idx v)
    (h : exec i s = .next t) : MemoryEffect (isMicro i) s t := by
  cases hm : isMicro i with
  | true => exact exec_micro_memoryEffect hm h
  | false =>
    cases i with
    | prepare m =>
      simp only [exec] at h
      rcases execPrepare_cases m s with ⟨_, e⟩ | ⟨_, e⟩ | ⟨ph, hs, e⟩ | ⟨_, _, _, _, e⟩ <;>
        rw [e] at h
      · cases h; exact memoryEffect_acceptCommand _ s
      · cases h; exact .refl s
      · exact prepareAt_memoryEffect hs h
      · cases h
    | process nch len =>
      simp only [exec] at h
      rcases execProcess_cases nch len s with ⟨_, e⟩ | ⟨_, e⟩ | ⟨ph, hs, e⟩ | ⟨_, _, _, _, e⟩ <;>
        rw [e] at h
      · cases h; exact memoryEffect_acceptCommand _ s
      · cases h; exact .refl s
      · exact processAt_memoryEffect hs h
      · cases h
    | wrreg addr data =>
      simp only [exec, execWrreg] at h
      split at h <;> cases h
      exact writeReg_memoryEffect addr data s
    | rdreg addr =>
      simp only [exec, execRdreg] at h
      split at h <;> cases h
      exact .of_same rfl rfl rfl rfl rfl rfl
    | pwrite idx val => exact absurd rfl (hi idx val)
    | _ => cases hm

/-! ### One step of the machine -/

/-- The micro-operation port carries rows of format U only (R63). -/
theorem isMicro_of_decode_micro {w : BitVec 32} {i : Instr} (h : decode (.micro w) = .ok i) :
    isMicro i = true := by
  have rows : ∀ e ∈ microTable, isMicro e.2 = true := by decide
  simp only [decode] at h
  split at h <;> cases h
  obtain ⟨l, r, e, _⟩ := List.lookup_eq_some_iff.1 ‹_›
  exact rows (w, i) (e ▸ List.mem_append_right l (List.mem_cons_self ..))

/-- A `PWRITE` comes from the parameter port alone (R65). -/
theorem param_of_decode_pwrite {p : Packet} {idx : BitVec 3} {v : F}
    (h : decode p = .ok (.pwrite idx v)) : ∃ w, p = .param w := by
  cases p with
  | param w => exact ⟨w, rfl⟩
  | micro w => cases isMicro_of_decode_micro h
  | command w =>
    simp only [decode] at h
    split at h
    · rename_i cmd _
      cases cmd <;> cases h
    · cases h
  | bus w =>
    simp only [decode, decodeBus] at h
    split at h <;> cases h

/-- All that one step can do to the memories. -/
inductive StepEffect (s : State) : State → Prop
  /-- The core's step or another agent's move, with at most the head of the listing taken off. -/
  | other {line : Bool} {l : List Move} {t : State} (hl : l <:+ s.listing)
      (hn : NoMicroLines s → line = false) (h : MemoryEffect line (s.setListing l) t) :
      StepEffect s t
  /-- A parameter write (R132). -/
  | stores {w : BitVec 35} {rest : List Move} {idx : BitVec 3} {v : F} {j : ParamId}
      (hl : s.listing = .send (.param w) :: rest) (hd : decode (.param w) = .ok (.pwrite idx v))
      (hj : paramOfIndex idx = some j) :
      StepEffect s ((s.setListing rest).setPar (s.par.put j (some v)))
  /-- Hardware reset (R156). -/
  | resets {rest : List Move} (hl : s.listing = .reset :: rest) :
      StepEffect s (hwReset (s.setListing rest))

theorem coreTurn_memoryEffect {s t : State} (h : coreTurn s = .next t) :
    ∃ line, (s.micro = none → line = false) ∧ MemoryEffect line s t := by
  rcases coreTurn_cases s with ⟨cmd, _, _, e⟩ | ⟨pos, _, hp, e⟩ | e <;> rw [e] at h
  · refine ⟨false, fun _ => rfl, ?_⟩
    have row := exec_memoryEffect (fun _ _ hc => by cases cmd <;> cases hc) h
    rwa [isMicro_cmdInstr] at row
  · refine ⟨true, fun hm => ?_, exec_micro_memoryEffect (isMicro_microInstr pos) h⟩
    cases hm.symm.trans hp
  · cases h
    exact ⟨false, fun _ => rfl, .refl _⟩

/-- A word on its port, when the listing's head is that word. -/
theorem portWord_stepEffect {p : Packet} {s t : State} {rest : List Move}
    (hl : s.listing = .send p :: rest) (h : portWord p (s.setListing rest) = .next t) :
    StepEffect s t := by
  have suffix : rest <:+ s.listing := hl ▸ List.suffix_cons _ rest
  rcases portWord_cases p (s.setListing rest) with ⟨i, hd, e⟩ | ⟨_, e⟩ | e | e <;> rw [e] at h
  · by_cases hi : ∃ idx v, i = .pwrite idx v
    · obtain ⟨idx, v, rfl⟩ := hi
      obtain ⟨w, rfl⟩ := param_of_decode_pwrite hd
      simp only [exec, execPwrite] at h
      split at h <;> cases h
      · exact .stores hl hd ‹_›
      · exact .other (line := false) suffix (fun _ => rfl) (.refl _)
    · refine .other suffix (fun hn => ?_) (exec_memoryEffect (fun idx v e => hi ⟨idx, v, e⟩) h)
      by_contra hm
      obtain ⟨w, rfl⟩ := isMicro_of_decode hd (Bool.eq_true_of_not_eq_false hm)
      exact hn.2 w (hl ▸ List.mem_cons_self ..)
  · cases h
    exact .other (line := false) suffix (fun _ => rfl) (memoryEffect_raise nofun)
  · cases h
    exact .other (line := false) suffix (fun _ => rfl) (.refl _)
  · cases h

theorem step_stepEffect {s t : State} (h : step s = .next t) : StepEffect s t := by
  rcases step_cases s with e | ⟨m, rest, hl, _, e⟩ <;> rw [e] at h
  · obtain ⟨line, hm, ht⟩ := coreTurn_memoryEffect h
    exact .other (List.suffix_refl _) (fun hn => hm hn.1) ht
  · have suffix : rest <:+ s.listing := hl ▸ List.suffix_cons m rest
    cases m with
    | send p => exact portWord_stepEffect hl h
    | core =>
      obtain ⟨line, hm, ht⟩ := coreTurn_memoryEffect (s := s.setListing rest) h
      exact .other suffix (fun hn => hm hn.1) ht
    | reset => cases h; exact .resets hl
    | stage u =>
      cases h
      exact .other (line := false) suffix (fun _ => rfl) (.of_same rfl rfl rfl rfl rfl rfl)
    | bufWrite ch i v =>
      cases h
      exact .other (line := false) suffix (fun _ => rfl)
        ⟨rfl, rfl, .inr ⟨_, _, rfl⟩, .keeps rfl rfl fun _ h => h⟩
    | bufRead ch i =>
      cases h
      exact .other (line := false) suffix (fun _ => rfl) (.of_same rfl rfl rfl rfl rfl rfl)

/-! ### The buffer's form (R41, log 3) -/

theorem BufEffect.wf {s t : State} (h : BufEffect s t) (hs : s.buf.wf = true) :
    t.buf.wf = true := by
  rcases h with e | ⟨a, v, e⟩ <;> rw [e]
  · exact hs
  · exact storeCell_wf a v hs

/-! ### Legal values (R32, R53) -/

theorem Params.get_put (p : Params) (i j : ParamId) (v : Option F) :
    (p.put j v).get i = if i = j then v else p.get i := by
  by_cases h : i = j
  · rw [if_pos h, h, Params.get_put_same]
  · rw [if_neg h, Params.get_put_ne p v h]

/-- A slope value with an index is one of the five patterns of R117. -/
theorem slope_of_index {v : F} (h : (slopeIndex v).isSome = true) :
    v = 0x00000000#32 ∨ v = 0x80000000#32 ∨ v = 0x3F800000#32 ∨ v = 0x40000000#32 ∨
      v = 0x40400000#32 := by
  unfold slopeIndex at h
  split at h
  · rcases (fEq_zero v).1 ‹_› with e | e
    · exact .inl e
    · exact .inr (.inl e)
  · split at h
    · exact .inr (.inr (.inl ((fEq_pos v _ (by decide) (by decide)).1 ‹_›)))
    · split at h
      · exact .inr (.inr (.inr (.inl ((fEq_pos v _ (by decide) (by decide)).1 ‹_›))))
      · split at h
        · exact .inr (.inr (.inr (.inr ((fEq_pos v _ (by decide) (by decide)).1 ‹_›))))
        · cases h

theorem legalParam_of_legalValue {j : ParamId} {v : F} (h : legalValue j v = true) :
    LegalParam j v := by
  cases j with
  | lowCutSlope => exact slope_of_index h
  | highCutSlope => exact slope_of_index h
  | _ => exact Bool.and_eq_true_iff.1 h

theorem LegalOrNovalue.put {p : Params} (h : LegalOrNovalue p) {j : ParamId} {o : Option F}
    (ho : ∀ v, o = some v → LegalParam j v) : LegalOrNovalue (p.put j o) := by
  intro i v hv
  rw [Params.get_put] at hv
  split at hv
  · subst i; exact ho v hv
  · exact h i v hv

/-- A full snapshot without illegal values raises no `PARAM` (R118 corner (a), R141). -/
theorem checkParams_ne_param {p : Params} {sr : F} (h : LegalOrNovalue p)
    (hf : ∀ j, p.get j ≠ none) : checkParams p sr ≠ some .param := by
  have legal : AllLegal p := fun j => by
    obtain ⟨v, hv⟩ := Option.ne_none_iff_exists'.1 (hf j)
    exact ⟨v, hv, h j v hv⟩
  have range : paramsInRange p = true := (paramsInRange_iff p).2 fun j => by
    obtain ⟨v, hv, hl⟩ := legal j
    rw [Params.value_eq_of_get hv]
    exact legalValue_of_legalParam hl
  simp only [checkParams, anyNovalue_of_allLegal legal, range]
  split <;> simp_all

/-! ### The contract on the store (R53) -/

/-- `F_PARAM` is bit 5 of `FAULT` (R135, R144). -/
theorem raised_fParam {t s : State} {f : FaultCode} (h : t.fault = s.fault ||| faultBit f)
    (hf : f ≠ .param) : t.fault.getLsbD 5 = s.fault.getLsbD 5 := by
  have bit : (faultBit f).getLsbD 5 = false := by
    cases f with
    | param => exact absurd rfl hf
    | _ => rfl
  rw [h, BitVec.getLsbD_or, bit, Bool.or_false]

theorem SnapEffect.legalOrNovalue {line : Bool} {s t : State} (h : SnapEffect line s t)
    (hp : LegalOrNovalue s.par) (hs : LegalOrNovalue s.stg.snap) : LegalOrNovalue t.stg.snap := by
  cases h with
  | keeps snap => rwa [snap]
  | reads j snap => rw [snap]; exact hs.put fun v hv => hp j v hv
  | ends snap => rw [snap]; exact legalOrNovalue_novalue
  | faults f snap => rw [snap]; exact legalOrNovalue_novalue

/-- `F_PARAM` stays as it is, or the tests of R118 raise it on the snapshot. -/
theorem SnapEffect.fParam {line : Bool} {s t : State} (h : SnapEffect line s t) :
    t.fault.getLsbD 5 = s.fault.getLsbD 5 ∨
      (∃ sr, checkParams s.stg.snap sr = some .param) ∧
        (line = false → ∀ j, ReadInFlight s j) := by
  cases h with
  | keeps _ fault => exact .inl (by rw [fault])
  | reads _ _ fault => exact .inl (by rw [fault])
  | ends _ fault => exact .inl (by rw [fault])
  | faults f _ fault _ param =>
    by_cases hf : f = .param
    · exact .inr (param hf)
    · exact .inl (raised_fParam fault hf)

/-- A snapshot that holds what the command has read holds it after the step too, when the store it
reads from is full. -/
theorem SnapEffect.filled {line : Bool} {s t : State} (h : SnapEffect line s t)
    (hp : ∀ j, s.par.get j ≠ none) (hs : ∀ j, ReadInFlight s j → s.stg.snap.get j ≠ none) :
    ∀ j, ReadInFlight t j → t.stg.snap.get j ≠ none := by
  intro i hi
  cases h with
  | keeps snap _ read => rw [snap]; exact hs i (read i hi)
  | reads j snap _ read =>
    rw [snap, Params.get_put]
    split
    · exact hp j
    · rename_i hij
      exact hs i ((read i hi).resolve_left hij)
  | ends _ _ read => exact absurd hi (read i)
  | faults _ _ _ read => exact absurd hi (read i)

theorem StoreFilled.of_read {s : State} (hp : ∀ j, s.par.get j ≠ none)
    (hs : ∀ j, ReadInFlight s j → s.stg.snap.get j ≠ none) : StoreFilled s :=
  ⟨hp, fun cmd ph j hq hr => hs j ⟨cmd, ph, hq, hr⟩⟩

theorem StoreFilled.read {s : State} (h : StoreFilled s) (j : ParamId) (hj : ReadInFlight s j) :
    s.stg.snap.get j ≠ none := by
  obtain ⟨cmd, ph, hq, hr⟩ := hj
  exact h.snapshot cmd ph j hq hr

/-- What is left of a conforming agent's moves is conforming. -/
theorem conformingAgent_of_suffix {s t : State} (h : conformingAgent s = true)
    (hl : t.listing <:+ s.listing) : conformingAgent t = true :=
  List.all_eq_true.2 fun m hm => List.all_eq_true.1 h m (hl.subset hm)

theorem StepEffect.storeContract {s t : State} (h : StepEffect s t) (hs : StoreContract s) :
    StoreContract t := by
  obtain ⟨agent, store, snapshot⟩ := hs
  cases h with
  | other hl _ ht =>
    refine ⟨conformingAgent_of_suffix agent (ht.listing ▸ hl), ?_,
      ht.snap.legalOrNovalue store snapshot⟩
    rw [ht.par]
    exact store
  | stores hl hd hj =>
    obtain ⟨conforms, rest⟩ := conformingAgent_cons hl agent
    refine ⟨rest, store.put fun v hv => ?_, snapshot⟩
    cases hv
    exact legalParam_of_legalValue (legalValue_of_conforming conforms hd hj)
  | resets hl =>
    exact ⟨(conformingAgent_cons hl agent).2, legalOrNovalue_novalue, legalOrNovalue_novalue⟩

/-- Under the contract `F_PARAM` means a parameter that is not in the snapshot (R118 corner (a)). -/
theorem StepEffect.fParam {s t : State} (h : StepEffect s t) (hs : StoreContract s)
    (ht : t.fault.getLsbD 5 = true) :
    s.fault.getLsbD 5 = true ∨ ∃ j, s.stg.snap.get j = none := by
  cases h with
  | other _ _ ht' =>
    rcases ht'.snap.fParam with e | ⟨⟨sr, hc⟩, _⟩
    · exact .inl (e ▸ ht)
    · by_contra hn
      exact checkParams_ne_param hs.snapshot (fun j hj => hn (.inr ⟨j, hj⟩)) hc
  | stores => exact .inl ht
  | resets =>
    rw [hwReset_fault] at ht
    exact absurd ht (by decide)

/-- Once all seven parameters are written, no step but reset loses one, and none sets `F_PARAM`. -/
theorem StepEffect.storeFilled {s t : State} (h : StepEffect s t) (hs : StoreContract s)
    (hn : NoMicroLines s) (hf : StoreFilled s) (hr : ∀ rest, s.listing ≠ .reset :: rest) :
    StoreFilled t ∧ t.fault.getLsbD 5 = s.fault.getLsbD 5 := by
  cases h with
  | other _ line ht =>
    refine ⟨.of_read (ht.par ▸ hf.store) (ht.snap.filled hf.store hf.read), ?_⟩
    rcases ht.snap.fParam with e | ⟨⟨sr, hc⟩, full⟩
    · exact e
    · exact absurd hc (checkParams_ne_param hs.snapshot fun j => hf.read j (full (line hn) j))
  | @stores w rest idx v j hl hd hj =>
    refine ⟨⟨fun i => ?_, hf.snapshot⟩, rfl⟩
    rw [State.setPar_par, Params.get_put]
    split
    · exact Option.some_ne_none v
    · exact hf.store i
  | resets hl => exact absurd hl (hr _)

end Sys2Proof.Machine

namespace Sys2Proof.Proofs

open Machine

/-- Settles O60: a step is a parameter write, a reset, or leaves the store alone and reads it into
the snapshot cell by cell; the tests of R118 raise `PARAM` on legal values only where one is missing. -/
theorem stepKeepsStoreContract : Obligations.StepKeepsStoreContract := by
  intro s t hs h
  have effect := step_stepEffect h
  exact ⟨effect.storeContract hs, effect.fParam hs,
    fun hn hf hr => ⟨step_noMicroLines hn h, effect.storeFilled hs hn hf hr⟩⟩

/-- Settles O54: a step that writes the buffer stores a cell. -/
theorem stepKeepsBufferForm : Obligations.StepKeepsBufferForm := by
  intro s t hs h
  cases step_stepEffect h with
  | other _ _ ht => exact ht.buf.wf hs
  | stores => exact hs
  | resets => exact hs

end Sys2Proof.Proofs
end

section
/-! PROOF. Whose move a step is (R54, R70, R125), the host's access to the buffer (R44), one step of
`CHAIN_PROC` and of `SNAPSHOT` (R110, R116). -/

namespace Sys2Proof.Machine

/-! ### Whose move it is -/

/-- A word on its port runs what it decodes to. -/
theorem portWord_of_decode {p : Packet} {i : Instr} (s : State) (h : decode p = .ok i) :
    portWord p s = exec i s := by
  simp only [portWord, h]

/-- A word that need not wait runs what it decodes to, with its move taken off the listing. -/
theorem step_send {s : State} {p : Packet} {rest : List Move} {i : Instr}
    (hl : s.listing = .send p :: rest) (hw : mustWait (.send p) s = false) (hd : decode p = .ok i) :
    step s = exec i (s.setListing rest) :=
  (step_moves hl hw).trans (portWord_of_decode _ hd)

/-- A table word stands for a packet that decodes to the same instruction (log 14). -/
theorem packet_of_tableWord {nbits w : Nat} {i : Instr} (h : decodeTableWord nbits w = some i) :
    ∃ p, packetOfTable nbits w = some p ∧ decode p = .ok i := by
  unfold decodeTableWord at h
  split at h
  · refine ⟨_, ‹_›, ?_⟩
    cases hd : decode _ with
    | ok i' => rw [hd] at h; exact congrArg Except.ok (Option.some.inj h)
    | error e => rw [hd] at h; cases h
  · cases h

/-- A core at rest takes a table word as the head of the listing. -/
theorem withFetchWord_at_rest {s : State} {nbits w : Nat} {p : Packet} (hb : busy s = false)
    (hp : packetOfTable nbits w = some p) :
    s.withFetchWord nbits w = s.setListing (.send p :: s.listing) := by
  simp [State.withFetchWord, fetchWord, hp, mustWait_of_not_busy _ hb]

theorem busy_of_run {s : State} {cmd : Cmd} {ph : Phase} (h : s.seq = .run cmd ph) :
    busy s = true := by
  simp [busy, h]

theorem coreTurn_of_run {s : State} {cmd : Cmd} {ph : Phase} (h : s.seq = .run cmd ph) :
    coreTurn s = exec (cmdInstr cmd) s := by
  simp only [coreTurn, h]

/-- A waiting move lets a command in flight take its next step. -/
theorem step_waiting {s : State} {cmd : Cmd} {ph : Phase} {m : Move} {rest : List Move}
    (hs : s.seq = .run cmd ph) (hl : s.listing = m :: rest) (hm : neverWaits m = false) :
    step s = exec (cmdInstr cmd) s :=
  (step_waits hl (by simp [mustWait, busy_of_run hs, hm])).trans (coreTurn_of_run hs)

/-- The word of a `PWRITE` (R65). -/
theorem decode_pwriteWord {idx : BitVec 3} (v : F) (h : idx ≠ 7) :
    decode (.param (idx ++ v)) = .ok (.pwrite idx v) := by
  have index : (idx ++ v).extractLsb' 32 3 = idx := by
    rw [BitVec.extractLsb'_append_eq_of_le (by decide), BitVec.extractLsb'_eq_self]
  have value : (idx ++ v).extractLsb' 0 32 = v := by
    rw [BitVec.extractLsb'_append_eq_of_add_le (by decide), BitVec.extractLsb'_eq_self]
  simp only [decode, index, value]
  exact if_neg h

/-- A parameter write does not wait (R53). -/
theorem step_pwrite {s : State} {idx : BitVec 3} {v : F} {rest : List Move}
    (hl : s.listing = .send (.param (idx ++ v)) :: rest) (h : idx ≠ 7) :
    step s = exec (.pwrite idx v) (s.setListing rest) :=
  step_send hl (by simp [mustWait, neverWaits, onParamPort]) (decode_pwriteWord v h)

/-! ### The buffer -/

/-- The four bytes of a stored cell, low byte at the lowest address (R45). -/
theorem loadByte_storeCell_byte {m : Memory} (hm : m.wf) (a : Nat) (v : F) {k : Nat} (hk : k < 4) :
    loadByte (storeCell m a v) (a + k) = v.extractLsb' (8 * k) 8 := by
  rw [loadByte_storeCell hm]
  match k, hk with
  | 0, _ => simp
  | 1, _ => simp
  | 2, _ => simp
  | 3, _ => simp

/-- A stored cell leaves every other byte (R42). -/
theorem sameBytesOutside_memWrite {s : State} (hm : s.buf.wf) (ch : BitVec 8) (i : BitVec 16)
    (v : F) : SameBytesOutside (cellAddr ch i) s (memWrite s ch i v) := by
  intro b hb
  rw [memWrite_buf, loadByte_storeCell hm, if_neg (by omega), if_neg (by omega),
    if_neg (by omega), if_neg (by omega)]

/-! ### `CHAIN_PROC` and `SNAPSHOT` at their positions (log 5) -/

/-- A `CHAIN_PROC` at a sample of its block takes that sample's iteration. -/
theorem exec_chainProc_at {s : State} {n : BitVec 16} (hs : s.seq ≠ .halt)
    (hp : s.micro = some (.chainProc n) ∨ s.micro = none ∧ n = 0) (hn : n < s.uop.len) :
    exec .chainProc s = .next (chainProcAt n s) := by
  have start : chainProcStart s = n := by
    rcases hp with h | ⟨h, rfl⟩ <;> simp only [chainProcStart, h]
  have hl : s.uop.len ≠ 0 := by bv_omega
  simp only [exec, execChainProc, start]
  rw [if_neg (not_or.2 ⟨hs, hl⟩), if_neg (Nat.not_le.2 (BitVec.lt_def.1 hn))]

/-- A `SNAPSHOT` at a parameter reads it. -/
theorem exec_snapshot_at {s : State} {j : ParamId} (hs : s.seq ≠ .halt)
    (hp : s.micro = some (.snapshot j) ∨ s.micro = none ∧ j = .lowCutFreq) :
    exec .snapshot s = .next ((snapStep j s).setMicro ((nextParam j).map .snapshot)) := by
  have start : snapshotStart s = j := by
    rcases hp with h | ⟨h, rfl⟩ <;> simp only [snapshotStart, h]
  simp only [exec, execSnapshot, start, coreDoes_running _ hs]

end Sys2Proof.Machine

namespace Sys2Proof.Proofs

open Machine

/-- Settles O5. -/
theorem stepRunsDecoded : Obligations.StepRunsDecoded := by
  refine ⟨fun s p rest i hl hw hd _ => step_send hl hw hd, fun s nbits w i hb h => ?_⟩
  obtain ⟨p, hp, hd⟩ := packet_of_tableWord h
  rw [withFetchWord_at_rest hb hp]
  exact step_send (s := s.setListing (.send p :: s.listing)) rfl (mustWait_of_not_busy _ hb) hd

/-- Settles O6. -/
theorem onlyParameterAgentMoves : Obligations.OnlyParameterAgentMoves := by
  intro s cmd ph hs
  refine ⟨fun hl => step_command hl hs, fun m rest hl hm => step_waiting hs hl ?_,
    fun idx v rest hl h => step_pwrite hl h⟩
  rcases hm with ⟨w, rfl⟩ | ⟨w, rfl⟩ | ⟨w, rfl⟩ | ⟨u, rfl⟩ | ⟨ch, i, v, rfl⟩ | ⟨ch, i, rfl⟩ <;> rfl

/-- Settles O53. -/
theorem hostBufferAccess : Obligations.HostBufferAccess := by
  intro s rest ch i hb hm
  refine ⟨fun v hl => ?_, fun hl => step_moves hl (mustWait_of_not_busy _ hb)⟩
  exact ⟨_, step_moves hl (mustWait_of_not_busy _ hb),
    (memRead_memWrite (s := s.setListing rest) hm ch ch i i v).trans (if_pos ⟨rfl, rfl⟩),
    fun k hk => loadByte_storeCell_byte hm _ v hk,
    sameBytesOutside_memWrite (s := s.setListing rest) hm ch i v, rfl⟩

/-- Settles O24. -/
theorem chainProcIteration : Obligations.ChainProcIteration := by
  refine ⟨fun s n hs hm hp hn => ?_, fun s hl => ?_⟩
  · have hch : (if s.uop.c = .left then 0 else 1 : BitVec 8) = channelOf s.uop.c := by
      cases s.uop.c <;> rfl
    rw [hch]
    exact ⟨_, exec_chainProc_at hs hp hn,
      (memRead_procSample s.uop.c n hm _ n).trans (if_pos ⟨rfl, rfl⟩), rfl,
      sameBytesOutside_procSample s.uop.c n hm, rfl, rfl, rfl, rfl, ⟨rfl, rfl, rfl, rfl, rfl⟩,
      rfl, rfl, rfl⟩
  · exact if_pos (.inr hl)

/-- Settles O26. -/
theorem snapshotStep : Obligations.SnapshotStep := by
  intro s j hs hp
  exact ⟨_, exec_snapshot_at hs hp, fun i => Params.get_put s.stg.snap i j (s.par.get j), rfl, rfl,
    rfl, rfl, rfl, ⟨rfl, rfl, rfl, rfl, rfl⟩, ⟨rfl, rfl, rfl⟩, fun _ => rfl⟩

end Sys2Proof.Proofs
end

section
/-! PROOF. A parameter write between the reads of a command (R51, R54 (d), R116). -/

namespace Sys2Proof.Machine

/-- The index of a parameter on its port (R65). -/
theorem toNat_of_paramOfIndex {idx : BitVec 3} {j : ParamId} (h : paramOfIndex idx = some j) :
    idx.toNat = paramNumber j := by
  revert h
  revert idx
  cases j <;> decide

/-- The core takes its next `k` steps, and the moves after them are `l`. -/
def CoreTakes (k : Nat) (s : State) (l : List Move) : Prop :=
  s.listing = List.replicate k .core ++ l ∨ s.listing = [] ∧ l = []

theorem step_core {s : State} {k : Nat} {l : List Move} (h : CoreTakes (k + 1) s l) :
    ∃ l', CoreTakes k (s.setListing l') l ∧ step s = coreTurn (s.setListing l') := by
  rcases h with hl | ⟨hl, rfl⟩
  · rw [List.replicate_succ, List.cons_append] at hl
    exact ⟨_, .inl rfl, step_moves hl (by simp [mustWait, neverWaits])⟩
  · have e : s = s.setListing [] := by rw [← hl]; rfl
    exact ⟨[], .inr ⟨rfl, rfl⟩, by rw [step_nil hl, ← e]⟩

/-- One read of a command. -/
theorem coreTurn_read {s : State} {cmd : Cmd} {j : ParamId} (hs : s.seq = .run cmd (.snap j)) :
    coreTurn s =
      .next (withSnapshot s cmd (s.stg.snap.put j (s.par.get j)) (phaseAfterSnap j)) := by
  rw [coreTurn_of_run hs, exec_cmdInstr hs]
  cases cmd <;> rfl

/-- `k` reads of a command, from the `n`-th on, copy `k` cells of the store. -/
theorem run_reads {cmd : Cmd} {l : List Move} (k : Nat) {n : Nat} {s : State} (hn : n + k ≤ 7)
    (hs : s.seq = .run cmd (phaseAfterReads n)) (hl : CoreTakes k s l) :
    ∃ p, Host.Core.run Sys2Proof.core k s =
        .next (withSnapshot (s.setListing l) cmd p (phaseAfterReads (n + k))) ∧
      ∀ i, p.get i = if n ≤ paramNumber i ∧ paramNumber i < n + k then s.par.get i
        else s.stg.snap.get i := by
  induction k generalizing n s with
  | zero =>
    have hl' : s.listing = l := by
      rcases hl with h | ⟨h, rfl⟩ <;> exact h
    refine ⟨s.stg.snap, congrArg Host.Outcome.next ?_, fun i => (if_neg (by omega)).symm⟩
    rw [← hl', Nat.add_zero, withSnapshot, ← hs]
    rfl
  | succ k ih =>
    obtain ⟨j, rfl⟩ := exists_paramNumber (n := n) (by omega)
    rw [phaseAfterReads_paramNumber] at hs
    obtain ⟨l', hl', hstep⟩ := step_core hl
    rw [coreTurn_read (s := s.setListing l') hs, phaseAfterSnap_eq] at hstep
    obtain ⟨p, hrun, hp⟩ := ih (n := paramNumber j + 1)
      (s := withSnapshot (s.setListing l') cmd (s.stg.snap.put j (s.par.get j))
        (phaseAfterReads (paramNumber j + 1))) (by omega) rfl hl'
    rw [Nat.add_right_comm] at hrun
    refine ⟨p, (run_succ hstep).trans hrun, fun i => (hp i).trans ?_⟩
    have cell : (s.stg.snap.put j (s.par.get j)).get i =
        if i = j then s.par.get i else s.stg.snap.get i := by
      rw [Params.get_put]
      split
      · rw [‹i = j›]
      · rfl
    show (if _ then s.par.get i else (s.stg.snap.put j (s.par.get j)).get i) = _
    rw [cell]
    by_cases hij : i = j
    · subst hij
      rw [if_neg (by omega), if_pos rfl, if_pos (by omega)]
    · have hne : paramNumber i ≠ paramNumber j := fun e => hij (paramNumber_injective e)
      rw [if_neg hij]
      exact if_congr (by omega) rfl rfl

end Sys2Proof.Machine

namespace Sys2Proof.Proofs

open Machine

/-- Settles O27: `m` reads of the old store, the write, and the other reads of the new store. -/
theorem snapshotInterleaving : Obligations.SnapshotInterleaving := by
  intro s cmd m idx j v hs hm hj hl
  have hidx := toNat_of_paramOfIndex hj
  have h7 : idx ≠ 7 := by
    rintro rfl
    cases hj
  obtain ⟨p, reads, hp⟩ := run_reads m (n := 0) (by omega) hs (.inl hl)
  rw [Nat.zero_add] at reads hp
  have write := step_pwrite
    (s := withSnapshot (s.setListing [.send (.param (idx ++ v))]) cmd p (phaseAfterReads m)) rfl h7
  simp only [exec, execPwrite, hj] at write
  obtain ⟨q, others, hq⟩ := run_reads (7 - m) (n := m) (l := []) (by omega)
    (s := ((withSnapshot (s.setListing [.send (.param (idx ++ v))]) cmd p
      (phaseAfterReads m)).setListing []).setPar (s.par.put j (some v))) rfl (.inr ⟨rfl, rfl⟩)
  rw [Nat.add_sub_cancel' hm] at others hq
  have total := (run_add (k := 7 - m + 1) reads).trans ((run_succ write).trans others)
  rw [show m + (7 - m + 1) = 8 by omega] at total
  refine ⟨_, total, rfl, fun i => ?_, rfl,
    fun i => Params.get_put s.par i j (some v), rfl, ⟨rfl, rfl, rfl, rfl, rfl⟩, fun _ => rfl⟩
  refine (hq i).trans ?_
  rcases Nat.lt_or_ge (paramNumber i) m with before | after
  · have unseen : ¬(i = j ∧ m ≤ idx.toNat) := by
      rintro ⟨rfl, h⟩
      omega
    rw [if_neg (by omega), if_neg unseen]
    exact (hp i).trans (if_pos ⟨Nat.zero_le _, before⟩)
  · have seen : i = j ↔ i = j ∧ m ≤ idx.toNat := by
      refine ⟨?_, And.left⟩
      rintro rfl
      exact ⟨rfl, hidx ▸ after⟩
    rw [if_pos ⟨after, paramNumber_lt i⟩]
    exact (Params.get_put s.par i j (some v)).trans (if_congr seen rfl rfl)

end Sys2Proof.Proofs
end

section
/-! PROOF. The `PROC` phase of a `PROCESS`: a block of a channel filtered in place (R110, R127,
R128). -/

namespace Sys2Proof.Machine

/-! ### A block through a chain -/

/-- A chain whose nine slots and flags are as before is as before. -/
theorem chain_eq_of_sameSlot {rf rf' : RegFile} {c : Chain} (h : ∀ k, SameSlot c k rf rf') :
    rf'.chain c = rf.chain c := by
  have slot : ∀ k, (rf'.chain c).slot k = (rf.chain c).slot k := fun k => by
    have get : ∀ j, ((rf'.chain c).slot k).get j = ((rf.chain c).slot k).get j := (h k).1
    exact Slot.mk.injEq .. ▸ ⟨get .b0, get .b1, get .b2, get .a1, get .a2, get .w1, get .w2⟩
  have flag : ∀ k, (rf'.chain c).flag k = (rf.chain c).flag k := fun k => (h k).2
  exact ChainRegs.mk.injEq .. ▸ ⟨slot .lc0, slot .lc1, slot .lc2, slot .lc3, slot .pk, slot .hc0,
    slot .hc1, slot .hc2, slot .hc3, flag .lc0, flag .lc1, flag .lc2, flag .lc3, flag .hc0,
    flag .hc1, flag .hc2, flag .hc3⟩

/-- What a chain makes of a block depends on that chain alone (R128). -/
theorem filterBlock_congr {c : Chain} {rf rf' : RegFile} (h : rf.chain c = rf'.chain c)
    (xs : List F) :
    (filterBlock c rf xs).1 = (filterBlock c rf' xs).1 ∧
      (filterBlock c rf xs).2.chain c = (filterBlock c rf' xs).2.chain c := by
  induction xs generalizing rf rf' with
  | nil => exact ⟨rfl, h⟩
  | cons x xs ih =>
    obtain ⟨hy, hc⟩ : SameOnChain c (chainStep rf c x) (chainStep rf' c x) :=
      SameOnChain.chainStep (v := (x, rf)) (v' := (x, rf')) ⟨rfl, h⟩
    obtain ⟨outputs, regs⟩ := ih hc
    exact ⟨congrArg₂ List.cons hy outputs, regs⟩

/-! ### Samples of the buffer -/

/-- The samples `n..n+k-1` of channel `ch` in the buffer. -/
def samplesFrom (s : State) (ch : BitVec 8) (n k : Nat) : List F :=
  (List.range' n k).map fun i => memRead s ch (BitVec.ofNat 16 i)

theorem blockOf_eq_samplesFrom (s : State) (ch : BitVec 8) (len : BitVec 16) :
    blockOf s ch len = samplesFrom s ch 0 len.toNat := by
  rw [blockOf, samplesFrom, List.range_eq_range']

theorem samplesFrom_add (s : State) (ch : BitVec 8) (n j k : Nat) :
    samplesFrom s ch n (j + k) = samplesFrom s ch n j ++ samplesFrom s ch (n + j) k := by
  simp only [samplesFrom, ← List.range'_append_1, List.map_append]

theorem samplesFrom_one (s : State) (ch : BitVec 8) (n : BitVec 16) :
    samplesFrom s ch n.toNat 1 = [memRead s ch n] := by
  simp [samplesFrom]

theorem samplesFrom_congr {s t : State} {ch : BitVec 8} {n k : Nat} (hk : n + k ≤ 65536)
    (h : ∀ i : BitVec 16, n ≤ i.toNat → i.toNat < n + k → memRead t ch i = memRead s ch i) :
    samplesFrom t ch n k = samplesFrom s ch n k := by
  refine List.map_congr_left fun i hi => ?_
  obtain ⟨hn, hlt⟩ := List.mem_range'_1.1 hi
  have e : (BitVec.ofNat 16 i).toNat = i := by
    rw [BitVec.toNat_ofNat]
    exact Nat.mod_eq_of_lt (by omega)
  exact h _ (by omega) (by omega)

/-- A sample whose four bytes are as before reads as before. -/
theorem memRead_congr {s t : State} {ch : BitVec 8} {i : BitVec 16}
    (h : ∀ k, k < 4 → loadByte t.buf (cellAddr ch i + k) = loadByte s.buf (cellAddr ch i + k)) :
    memRead t ch i = memRead s ch i := by
  have h0 : loadByte t.buf (cellAddr ch i) = loadByte s.buf (cellAddr ch i) := h 0 (by decide)
  simp only [memRead, loadCell, h0, h 1 (by decide), h 2 (by decide), h 3 (by decide)]

/-! ### A stretch of samples filtered in place -/

/-- From `s` to `t` the samples `n..n+k-1` of chain `c`'s channel are filtered by that chain, and
nothing but they, the register file, the staging and the position differs. -/
structure Filtered (c : Chain) (n k : Nat) (s t : State) : Prop where
  samples : samplesFrom t (channelOf c) n k =
    (filterBlock c s.rf (samplesFrom s (channelOf c) n k)).1
  rf : t.rf = (filterBlock c s.rf (samplesFrom s (channelOf c) n k)).2
  bytes : ∀ b, (∀ i : BitVec 16, n ≤ i.toNat → i.toNat < n + k →
      b < cellAddr (channelOf c) i ∨ cellAddr (channelOf c) i + 4 ≤ b) →
    loadByte t.buf b = loadByte s.buf b
  form : t.buf.wf = true
  host : SameHostRegs s t
  agents : SameAgents s t
  uop : t.uop = s.uop
  micro : t.micro = s.micro

theorem SameHostRegs.trans {s u t : State} (h : SameHostRegs s u) (h' : SameHostRegs u t) :
    SameHostRegs s t :=
  ⟨h'.prep.trans h.prep, h'.fault.trans h.fault, h'.argSr.trans h.argSr, h'.sr.trans h.sr,
    h'.maxblk.trans h.maxblk⟩

theorem SameAgents.trans {s u t : State} (h : SameAgents s u) (h' : SameAgents u t) :
    SameAgents s t :=
  ⟨h'.par.trans h.par, h'.hostData.trans h.hostData, h'.listing.trans h.listing⟩

/-- Every sample that is not of the stretch reads as before. -/
theorem Filtered.memRead_other {c : Chain} {n k : Nat} {s t : State} (h : Filtered c n k s t)
    {ch : BitVec 8} {i : BitVec 16} (ho : ¬(ch = channelOf c ∧ n ≤ i.toNat ∧ i.toNat < n + k)) :
    memRead t ch i = memRead s ch i := by
  refine memRead_congr fun m hm => h.bytes _ fun i' hn hlt => ?_
  have apart : ¬(ch = channelOf c ∧ i = i') := by
    rintro ⟨rfl, rfl⟩
    exact ho ⟨rfl, hn, hlt⟩
  have := cellAddr_disjoint apart
  omega

/-- Two stretches, one after the other. -/
theorem Filtered.trans {c : Chain} {n j k : Nat} {s u t : State} (h : Filtered c n j s u)
    (h' : Filtered c (n + j) k u t) (hk : n + j + k ≤ 65536) : Filtered c n (j + k) s t := by
  have early : samplesFrom t (channelOf c) n j = samplesFrom u (channelOf c) n j :=
    samplesFrom_congr (by omega) fun i _ hlt => h'.memRead_other (by omega)
  have late : samplesFrom u (channelOf c) (n + j) k = samplesFrom s (channelOf c) (n + j) k :=
    samplesFrom_congr hk fun i hn _ => h.memRead_other (by omega)
  refine ⟨?_, ?_, fun b hb => ?_, h'.form, h.host.trans h'.host, h.agents.trans h'.agents,
    h'.uop.trans h.uop, h'.micro.trans h.micro⟩
  · rw [samplesFrom_add, samplesFrom_add, filterBlock_append, early, h.samples, h'.samples, h.rf,
      late]
  · rw [samplesFrom_add, filterBlock_append, h'.rf, h.rf, late]
  · rw [h'.bytes b fun i hn hlt => hb i (by omega) (by omega),
      h.bytes b fun i hn hlt => hb i hn (by omega)]

/-- One `PROC` step filters one sample. -/
theorem filtered_procSample (c : Chain) (n : BitVec 16) {s : State} (hm : s.buf.wf = true)
    (g : Staging) (q : Seq) :
    Filtered c n.toNat 1 s (((procSample c n s).setStg g).setSeq q) := by
  have sample := (memRead_procSample c n hm (channelOf c) n).trans (if_pos ⟨rfl, rfl⟩)
  refine ⟨?_, ?_, fun b hb => ?_, storeCell_wf _ _ hm, ⟨rfl, rfl, rfl, rfl, rfl⟩, ⟨rfl, rfl, rfl⟩,
    rfl, rfl⟩
  · rw [samplesFrom_one, samplesFrom_one]
    exact congrArg (· :: []) sample
  · rw [samplesFrom_one]
    rfl
  · exact sameBytesOutside_procSample c n hm b (hb n (Nat.le_refl _) (Nat.lt_succ_self _))

/-! ### The samples of a command -/

/-- The position after the last sample of a channel (R25). -/
def afterChannel (cmd : Cmd) : Chain → Seq
  | .left => .run cmd (.proc .right 0)
  | .right => .idle

theorem nextPosition_sample {nch : BitVec 8} {len : BitVec 16} (c : Chain) {n : BitVec 16}
    (h : n.toNat + 1 < len.toNat) :
    nextPosition (.process nch len) (.proc c n) = .run (.process nch len) (.proc c (n + 1)) := by
  cases c <;> simp only [nextPosition, if_pos h]

theorem nextPosition_last {nch : BitVec 8} {len : BitVec 16} (c : Chain) {n : BitVec 16}
    (h : n.toNat + 1 = len.toNat) :
    nextPosition (.process nch len) (.proc c n) = afterChannel (.process nch len) c := by
  cases c <;> simp only [nextPosition, h, Nat.lt_irrefl, if_false, afterChannel]

/-- One sample of a `PROCESS` with nothing listed. -/
theorem step_sample {s : State} {nch : BitVec 8} {len : BitVec 16} {c : Chain} {n : BitVec 16}
    (hl : s.listing = []) (hs : s.seq = .run (.process nch len) (.proc c n)) (h2 : 2 ≤ nch)
    (hn : n < len) (hm : s.buf.wf = true) :
    ∃ t, step s = .next t ∧ Filtered c n.toNat 1 s t ∧
      t.seq = nextPosition (.process nch len) (.proc c n) := by
  obtain ⟨g, e⟩ := afterSample_next nch len c n (procSample c n s)
  have next : exec (.process nch len) s = .next (afterSample nch len c n (procSample c n s)) :=
    (exec_process_at hs).trans (processSample_next c s h2 hn)
  exact ⟨_, (step_command hl hs).trans (next.trans (congrArg Host.Outcome.next e)),
    filtered_procSample c n hm g _, rfl⟩

/-- From sample `n` to the end of the block of a channel. -/
theorem run_channel {nch : BitVec 8} {len : BitVec 16} {c : Chain} (h2 : 2 ≤ nch) (k : Nat)
    {s : State} {n : BitVec 16} (hk : n.toNat + (k + 1) = len.toNat) (hl : s.listing = [])
    (hs : s.seq = .run (.process nch len) (.proc c n)) (hm : s.buf.wf = true) :
    ∃ t : State, Host.Core.run Sys2Proof.core (k + 1) s = .next t ∧ Filtered c n.toNat (k + 1) s t ∧
      t.seq = afterChannel (.process nch len) c := by
  obtain ⟨u, hstep, hu, hq⟩ := step_sample hl hs h2 (by bv_omega) hm
  induction k generalizing s n u with
  | zero => exact ⟨u, run_succ hstep, hu, hq.trans (nextPosition_last c hk)⟩
  | succ k ih =>
    have hlt : n.toNat + 1 < len.toNat := by omega
    have hsucc : (n + 1).toNat = n.toNat + 1 := by bv_omega
    have hlen : len.toNat < 65536 := len.isLt
    have hs' := hq.trans (nextPosition_sample c hlt)
    have hl' : u.listing = [] := hu.agents.listing.trans hl
    obtain ⟨v, hstep', hv, hq'⟩ := step_sample hl' hs' h2 (succ_lt_of_toNat hlt) hu.form
    obtain ⟨t, hrun, ht, hend⟩ := ih (by omega) hl' hs' hu.form v hstep' hv hq'
    rw [hsucc] at ht
    refine ⟨t, (run_succ hstep).trans hrun, ?_, hend⟩
    rw [Nat.add_comm (k + 1) 1]
    exact hu.trans ht (by omega)

/-- A whole channel of a block that is not empty. -/
theorem run_whole_channel {s : State} {nch : BitVec 8} {len : BitVec 16} {c : Chain} (h2 : 2 ≤ nch)
    (h0 : len ≠ 0) (hl : s.listing = []) (hs : s.seq = .run (.process nch len) (.proc c 0))
    (hm : s.buf.wf = true) :
    ∃ t : State, Host.Core.run Sys2Proof.core len.toNat s = .next t ∧ Filtered c 0 len.toNat s t ∧
      t.seq = afterChannel (.process nch len) c := by
  have hpos : len.toNat - 1 + 1 = len.toNat := by bv_omega
  have whole : (0 : BitVec 16).toNat + (len.toNat - 1 + 1) = len.toNat := by
    rw [hpos]
    exact Nat.zero_add _
  have run := run_channel h2 (len.toNat - 1) whole hl hs hm
  rwa [hpos] at run

/-- A channel's filtering leaves every other channel's block. -/
theorem Filtered.blockOf_other {c : Chain} {n k : Nat} {s t : State} (h : Filtered c n k s t)
    {ch : BitVec 8} (hc : ch ≠ channelOf c) (len : BitVec 16) :
    blockOf t ch len = blockOf s ch len := by
  rw [blockOf_eq_samplesFrom, blockOf_eq_samplesFrom]
  exact samplesFrom_congr (by have := len.isLt; omega) fun i _ _ => h.memRead_other fun e => hc e.1

/-- A channel's filtering leaves the other chain. -/
theorem Filtered.chain_other {c c' : Chain} {n k : Nat} {s t : State} (h : Filtered c n k s t)
    (hc : c' ≠ c) : t.rf.chain c' = s.rf.chain c' := by
  rw [h.rf]
  exact chain_eq_of_sameSlot fun k => filterBlock_other_chain s.rf k _ hc

end Sys2Proof.Machine

namespace Sys2Proof.Proofs

open Machine

/-- Settles O41: channel 0 sample by sample, then channel 1, which finds its block and its chain as
they were at the start. -/
theorem processRun : Obligations.ProcessRun := by
  intro s nch len hs h2 h0 hl hmicro hm
  have h2' : 2 ≤ nch := h2
  obtain ⟨u, hrun, hu, hq⟩ := run_whole_channel h2' h0 hl hs hm
  obtain ⟨t, hrun', ht, hend⟩ :=
    run_whole_channel h2' h0 (hu.agents.listing.trans hl) hq hu.form
  have block : blockOf u 1 len = blockOf s 1 len := hu.blockOf_other (by decide) len
  obtain ⟨outputs, regs⟩ :=
    filterBlock_congr (hu.chain_other (c' := .right) nofun) (blockOf s 1 len)
  refine ⟨t, ?_, hend, ?_, ?_, ?_, ?_, fun b hb => ?_, hu.host.trans ht.host,
    hu.agents.trans ht.agents, ht.uop.trans hu.uop, (ht.micro.trans hu.micro).trans hmicro⟩
  · rw [Nat.two_mul]
    exact (run_add hrun).trans hrun'
  · rw [ht.blockOf_other (by decide), blockOf_eq_samplesFrom, blockOf_eq_samplesFrom]
    exact hu.samples
  · rw [← outputs, ← block, blockOf_eq_samplesFrom, blockOf_eq_samplesFrom]
    exact ht.samples
  · refine (ht.chain_other (c' := .left) nofun).trans ?_
    rw [hu.rf, blockOf_eq_samplesFrom]
    rfl
  · refine Eq.trans ?_ regs
    rw [ht.rf, ← block, blockOf_eq_samplesFrom]
    rfl
  · rw [ht.bytes b fun i _ hlt => hb 1 i (by decide) (by bv_omega),
      hu.bytes b fun i _ hlt => hb 0 i (by decide) (by bv_omega)]

end Sys2Proof.Proofs
end

section
/-! PROOF. The words of the four formats by their fields (R60 to R65): decoder and encoder are inverse,
the command words by match and mask, and a word that is no command (R71, R136). -/

namespace Sys2Proof.Machine

/-! ### Words as fields -/

/-- Every word of `n + m` bits is a high field of `n` bits and a low field of `m` bits. -/
theorem exists_append {n m : Nat} (w : BitVec (n + m)) :
    ∃ (hi : BitVec n) (lo : BitVec m), w = hi ++ lo :=
  ⟨_, _, BitVec.extractLsb'_append_extractLsb'.symm⟩

theorem exists_append_append {n m k : Nat} (w : BitVec (n + m + k)) :
    ∃ (hi : BitVec n) (mid : BitVec m) (lo : BitVec k), w = hi ++ mid ++ lo := by
  obtain ⟨front, lo, rfl⟩ := exists_append w
  obtain ⟨hi, mid, rfl⟩ := exists_append front
  exact ⟨hi, mid, lo, rfl⟩

/-- Two words are equal exactly when their fields are. -/
theorem append_eq_append_iff {n m : Nat} {x x' : BitVec n} {y y' : BitVec m} :
    x ++ y = x' ++ y' ↔ x = x' ∧ y = y' := by
  refine ⟨fun h => ⟨?_, ?_⟩, fun ⟨hx, hy⟩ => hx ▸ hy ▸ rfl⟩
  · rw [← BitVec.extractLsb'_append_eq_left (a := x) (b := y), h,
      BitVec.extractLsb'_append_eq_left]
  · rw [← BitVec.extractLsb'_append_eq_right (a := x) (b := y), h,
      BitVec.extractLsb'_append_eq_right]

/-- The highest of three fields. -/
theorem extractLsb'_highest {n m k : Nat} (x : BitVec n) (y : BitVec m) (z : BitVec k) :
    (x ++ y ++ z).extractLsb' (m + k) n = x := by
  rw [BitVec.extractLsb'_append_eq_of_le (Nat.le_add_left k m), Nat.add_sub_cancel,
    BitVec.extractLsb'_append_eq_left]

/-- The middle one of three fields. -/
theorem extractLsb'_middle {n m k : Nat} (x : BitVec n) (y : BitVec m) (z : BitVec k) :
    (x ++ y ++ z).extractLsb' k m = y := by
  rw [BitVec.extractLsb'_append_eq_of_le (Nat.le_refl k), Nat.sub_self,
    BitVec.extractLsb'_append_eq_right]

/-! ### The decoder on a word given by its fields -/

/-- A command word by its `op`, `nch` and 16 low bits (R61, R62, R71). -/
theorem decode_command_fields (op nch : BitVec 8) (low : BitVec 16) :
    decode (.command (op ++ nch ++ low)) =
      if op = 0x01#8 ∧ nch = 0x00#8 then .ok (.prepare low)
      else if op = 0x02#8 then .ok (.process nch low)
      else .error .illegalCommand := by
  have hop : (op ++ nch ++ low).extractLsb' 24 8 = op := extractLsb'_highest op nch low
  have hnch : (op ++ nch ++ low).extractLsb' 16 8 = nch := extractLsb'_middle op nch low
  have hlow : (op ++ nch ++ low).extractLsb' 0 16 = low := BitVec.extractLsb'_append_eq_right
  simp only [decode, decodeCommand, hop, hnch, hlow]
  by_cases h1 : op = 0x01#8
  · subst h1
    by_cases h0 : nch = 0x00#8
    · simp [h0, cmdInstr]
    · simp [h0]
  · by_cases h2 : op = 0x02#8
    · simp [h2, cmdInstr]
    · simp [h1, h2]

/-- A word of the host port by its direction bit `rw`, `addr` and `data` (R64). -/
theorem decode_bus_fields (dir : BitVec 1) (addr : BitVec 3) (data : BitVec 32) :
    decode (.bus (dir ++ addr ++ data)) =
      .ok (if dir = 1#1 then .wrreg addr data else .rdreg addr) := by
  have hdir : (dir ++ addr ++ data).extractLsb' 35 1 = dir := extractLsb'_highest dir addr data
  have haddr : (dir ++ addr ++ data).extractLsb' 32 3 = addr := extractLsb'_middle dir addr data
  have hdata : (dir ++ addr ++ data).extractLsb' 0 32 = data := BitVec.extractLsb'_append_eq_right
  simp only [decode, decodeBus, hdir, haddr, hdata]

/-- Index 7 of the parameter port (R65). -/
theorem decode_param_seven (v : F) : decode (.param (7#3 ++ v)) = .error .ignoredIndex := by
  have index : (7#3 ++ v).extractLsb' 32 3 = 7#3 := BitVec.extractLsb'_append_eq_left
  simp only [decode, index, if_true]

/-- The words of format U are the rows of the table (R63). -/
theorem decode_micro_iff {w : BitVec 32} {i : Instr} :
    decode (.micro w) = .ok i ↔ (w, i) ∈ microTable := by
  have rows : ∀ e ∈ microTable, decode (.micro e.1) = .ok e.2 := by decide
  refine ⟨fun h => ?_, rows (w, i)⟩
  simp only [decode] at h
  split at h <;> cases h
  obtain ⟨l, r, e, _⟩ := List.lookup_eq_some_iff.1 ‹_›
  exact e ▸ List.mem_append_right l (List.mem_cons_self ..)

/-- A row of the table is well formed, and its tag word is its encoding (R63). -/
theorem microTable_row {w : BitVec 32} {i : Instr} (h : (w, i) ∈ microTable) :
    i.WellFormed ∧ encode i = .micro w := by
  have rows : ∀ e ∈ microTable, e.2.WellFormed ∧ encode e.2 = .micro e.1 := by decide
  exact rows (w, i) h

/-- Every micro-operation has its row (R63). -/
theorem exists_microTable_row {i : Instr} (h : isMicro i = true) : ∃ w, (w, i) ∈ microTable := by
  have row : i ∈ microTable.map Prod.snd := by
    cases i with
    | prepare _ | process _ _ | wrreg _ _ | rdreg _ | pwrite _ _ => cases h
    | _ => decide
  obtain ⟨e, he, rfl⟩ := List.mem_map.1 row
  exact ⟨e.1, he⟩

/-- Clearing the data bits of a host-port word leaves `rw` and `addr` (R64). -/
theorem clear_bus_data (dir : BitVec 1) (addr : BitVec 3) (data : BitVec 32) :
    (dir ++ addr ++ data) &&& 0xF00000000#36 = dir ++ addr ++ 0#32 := by
  have mask : 0xF00000000#36 = BitVec.allOnes 1 ++ BitVec.allOnes 3 ++ 0#32 := by decide
  rw [mask, BitVec.and_append, BitVec.and_append, BitVec.and_allOnes, BitVec.and_allOnes,
    BitVec.and_zero]

/-! ### The command words by match and mask -/

/-- The match and mask of `PREPARE` (R61): `op` and `nch` are fixed. -/
theorem prepare_match_iff (op nch : BitVec 8) (low : BitVec 16) :
    (op ++ nch ++ low) &&& 0xFFFF0000#32 = 0x01000000#32 ↔ op = 0x01#8 ∧ nch = 0x00#8 := by
  have mask : 0xFFFF0000#32 = BitVec.allOnes 8 ++ BitVec.allOnes 8 ++ 0#16 := by decide
  have fixed : 0x01000000#32 = 0x01#8 ++ 0x00#8 ++ 0#16 := by decide
  rw [mask, fixed, BitVec.and_append, BitVec.and_append, BitVec.and_allOnes, BitVec.and_allOnes,
    BitVec.and_zero, BitVec.append_left_inj, append_eq_append_iff]

/-- The match and mask of `PROCESS` (R62): `op` alone is fixed. -/
theorem process_match_iff (op nch : BitVec 8) (low : BitVec 16) :
    (op ++ nch ++ low) &&& 0xFF000000#32 = 0x02000000#32 ↔ op = 0x02#8 := by
  have mask : 0xFF000000#32 = BitVec.allOnes 8 ++ 0#8 ++ 0#16 := by decide
  have fixed : 0x02000000#32 = 0x02#8 ++ 0#8 ++ 0#16 := by decide
  rw [mask, fixed, BitVec.and_append, BitVec.and_append, BitVec.and_allOnes, BitVec.and_zero,
    BitVec.and_zero, BitVec.append_left_inj, BitVec.append_left_inj]

/-! ### A word that is no command -/

/-- A command word that is no command, sent to an idle core (R71, R136). -/
theorem portWord_illegal {w : BitVec 32} {s : State} (hs : s.seq = .idle)
    (hd : decode (.command w) = .error .illegalCommand) :
    portWord (.command w) s = .next (raise .illcmd s) := by
  simp only [portWord, hd, hs, if_true]

end Sys2Proof.Machine

namespace Sys2Proof.Proofs

open Machine

/-- Settles O1, port by port. -/
theorem decodeEncode : Obligations.DecodeEncode := by
  intro i hi
  cases hm : isMicro i with
  | true =>
    obtain ⟨w, hw⟩ := exists_microTable_row hm
    rw [(microTable_row hw).2]
    exact decode_micro_iff.2 hw
  | false =>
    cases i with
    | prepare m => exact decode_command_fields 0x01#8 0x00#8 m
    | process nch len => exact decode_command_fields 0x02#8 nch len
    | wrreg addr data => exact decode_bus_fields 1#1 addr data
    | rdreg addr => exact decode_bus_fields 0#1 addr 0#32
    | pwrite idx v => exact decode_pwriteWord v (bne_iff_ne.1 hi)
    | _ => cases hm

/-- Settles O2: the fields of a word that decodes are the operands of its instruction, and every bit but
the data of a host read lies in a field. -/
theorem encodeDecode : Obligations.EncodeDecode := by
  intro p i h
  cases p with
  | command w =>
    obtain ⟨op, nch, low, rfl⟩ := exists_append_append (n := 8) (m := 8) (k := 16) w
    rw [decode_command_fields] at h
    split at h
    next prepare =>
      obtain ⟨rfl, rfl⟩ := prepare
      cases h
      exact ⟨rfl, fun _ => rfl, nofun⟩
    next =>
      split at h <;> cases h
      next process => exact ⟨rfl, fun _ => process ▸ rfl, nofun⟩
  | micro w =>
    obtain ⟨wf, enc⟩ := microTable_row (decode_micro_iff.1 h)
    refine ⟨wf, fun _ => enc, ?_⟩
    rintro a rfl
    cases isMicro_of_decode_micro h
  | bus w =>
    obtain ⟨dir, addr, data, rfl⟩ := exists_append_append (n := 1) (m := 3) (k := 32) w
    rw [decode_bus_fields] at h
    split at h <;> cases h
    next write => exact ⟨rfl, fun _ => write ▸ rfl, nofun⟩
    next read =>
      obtain rfl : dir = 0#1 := (BitVec.eq_zero_or_eq_one dir).resolve_right read
      refine ⟨rfl, fun notRead => absurd rfl (notRead addr), ?_⟩
      rintro a ⟨⟩
      exact ⟨_, rfl, congrArg Packet.bus (clear_bus_data 0#1 addr data).symm⟩
  | param w =>
    obtain ⟨idx, v, rfl⟩ := exists_append (n := 3) (m := 32) w
    by_cases h7 : idx = 7
    · subst h7
      cases (decode_param_seven v).symm.trans h
    · cases (decode_pwriteWord v h7).symm.trans h
      exact ⟨bne_iff_ne.2 h7, fun _ => rfl, nofun⟩

/-- Settles O3. -/
theorem commandWordPartition : Obligations.CommandWordPartition := by
  intro w
  obtain ⟨op, nch, low, rfl⟩ := exists_append_append (n := 8) (m := 8) (k := 16) w
  have hlow : (op ++ nch ++ low).setWidth 16 = low := BitVec.setWidth_append_eq_right
  have hnch : ((op ++ nch ++ low) >>> 16).setWidth 8 = nch :=
    BitVec.setWidth_ushiftRight_eq_extractLsb.trans (extractLsb'_middle op nch low)
  rw [Ne, Ne, prepare_match_iff, process_match_iff, decode_command_fields, hlow, hnch]
  refine ⟨fun prepare => if_pos prepare, fun process => ?_, fun notPrepare notProcess => ?_⟩
  · rw [if_neg (by simp [process]), if_pos process]
  · rw [if_neg notPrepare, if_neg notProcess]

/-- Settles O48: on its own port the word is refused by the decoder, on the host port by the write of
`CMD`. -/
theorem illegalCommand : Obligations.IllegalCommand := by
  intro s w rest p hs hm hp hl notPrepare notProcess
  have illegal := (commandWordPartition w).2.2 notPrepare notProcess
  have free := mustWait_of_not_busy (.send p) (show busy s = false by simp [busy, hs, hm])
  rcases hp with rfl | rfl
  · exact ⟨_, (step_moves hl free).trans (portWord_illegal hs illegal), faultEntry_raise _ _⟩
  · obtain ⟨-, -, faults, -⟩ := hostWrite (s.setListing rest) 0#3 w fun cmd ph h => by
      cases hs.symm.trans h
    rw [step_send hl free (decode_bus_fields 1#1 0#3 w)]
    exact faults rfl hs illegal

/-- Settles O4, by running the decoder on each word. -/
theorem specWordsDecode : Obligations.SpecWordsDecode :=
  ⟨rfl, rfl, rfl, rfl, rfl, rfl, rfl, rfl, rfl, rfl⟩

end Sys2Proof.Proofs
end

section
/-! PROOF. Results of binary32 that are exact (R78): multiplying and dividing by one, a quotient of equal
operands, doubling, and sums that cancel. -/

namespace Sys2Proof.Machine

/-! ### Patterns by their fields -/

/-- The magnitude bits determine the exponent field and the fraction field. -/
theorem fields_of_mag {a : F} {e f : Nat} (hf : f < 2 ^ 23) (h : a.toNat % 2 ^ 31 = e * 2 ^ 23 + f) :
    expField a = e ∧ fracField a = f := by
  have := mag_bits a
  have := fracField_lt a
  omega

theorem packBits_mag (neg : Bool) {m : Nat} (hm : m < 2 ^ 31) :
    (packBits neg m).toNat % 2 ^ 31 = m := by
  cases neg <;> simp [packBits] <;> omega

theorem signBit_packBits (neg : Bool) {m : Nat} (hm : m < 2 ^ 31) : signBit (packBits neg m) = neg := by
  cases neg <;> simp [signBit_eq, packBits] <;> omega

theorem fInf_of_isInf {a : F} (h : isInf a = true) : fInf (signBit a) = a := by
  simp only [isInf, Bool.and_eq_true, beq_iff_eq] at h
  obtain ⟨he, hf⟩ := h
  have hm : a.toNat % 2 ^ 31 = 0x7F800000 := by
    have := mag_bits a
    omega
  rw [fInf, ← hm, packBits_self]

theorem isFinite_fInf (neg : Bool) : isFinite (fInf neg) = false := by
  cases neg <;> decide

theorem isZero_false_of_isInf {a : F} (h : isInf a = true) : isZero a = false := by
  by_contra hz
  rw [Bool.not_eq_false] at hz
  cases (isInf_false_of_isFinite (isFinite_of_isZero hz)).symm.trans h

/-- A datum is a NaN, an infinity or finite. -/
theorem isInf_or_isFinite {a : F} (h : isNaN a = false) : isInf a = true ∨ isFinite a = true := by
  by_cases he : expField a = 255
  · exact .inl (by simpa [isNaN, isInf, he] using h)
  · exact .inr (by simpa [isFinite] using he)

theorem magUnits_pos {a : F} (h : isZero a = false) : 0 < magUnits a := by
  have hm := mag_bits a
  simp only [isZero, beq_eq_false_iff_ne] at h
  unfold magUnits
  split
  · omega
  · positivity

/-! ### Negation -/

theorem expField_fNeg (a : F) : expField (fNeg a) = expField a := by
  rw [expField_eq_extract, expField_eq_extract, fNeg, BitVec.extractLsb'_xor,
    (by decide : (0x80000000#32).extractLsb' 23 8 = 0#8), BitVec.xor_zero]

theorem fracField_fNeg (a : F) : fracField (fNeg a) = fracField a := by
  rw [fracField_eq_extract, fracField_eq_extract, fNeg, BitVec.extractLsb'_xor,
    (by decide : (0x80000000#32).extractLsb' 0 23 = 0#23), BitVec.xor_zero]

@[simp] theorem isFinite_fNeg (a : F) : isFinite (fNeg a) = isFinite a := by
  simp only [isFinite, expField_fNeg]

@[simp] theorem signBit_fNeg (a : F) : signBit (fNeg a) = !signBit a := by
  have top : (0x80000000#32).msb = true := rfl
  rw [signBit, fNeg, BitVec.msb_xor, top, Bool.xor_true, signBit]

@[simp] theorem signedUnits_fNeg (a : F) : signedUnits (fNeg a) = -signedUnits a := by
  have hm : magUnits (fNeg a) = magUnits a := by
    simp only [magUnits, expField_fNeg, fracField_fNeg]
  cases hs : signBit a <;> simp [signedUnits, hm, hs]

/-! ### One -/

theorem magUnits_one : magUnits fOne = 2 ^ 149 := by decide

/-- `a *. 1.0 = a`, exactly. -/
theorem fMul_one {a : F} (h : isNaN a = false) : fMul a fOne = a := by
  have neg : (signBit a != signBit fOne) = signBit a := Bool.xor_false _
  have one : isNaN fOne = false ∧ isInf fOne = false ∧ isZero fOne = false := by decide
  obtain ⟨oneNum, oneFin, oneNonzero⟩ := one
  rcases isInf_or_isFinite h with inf | fin
  · simp only [fMul, neg, h, oneNum, inf, isZero_false_of_isInf inf, oneNonzero, Bool.or_self,
      Bool.true_or, if_true, Bool.false_eq_true, if_false]
    exact fInf_of_isInf inf
  · simp only [fMul, neg, h, oneNum, oneFin, isInf_false_of_isFinite fin, Bool.or_self,
      Bool.false_eq_true, if_false]
    rw [magUnits_one, roundRatio_mul _ _ (Nat.two_pow_pos 149), roundRatio_self _ fin, packBits_self]

/-- `a /. 1.0 = a`, exactly. -/
theorem fDiv_one {a : F} (h : isNaN a = false) : fDiv a fOne = a := by
  have neg : (signBit a != signBit fOne) = signBit a := Bool.xor_false _
  have one : isNaN fOne = false ∧ isInf fOne = false ∧ isZero fOne = false := by decide
  obtain ⟨oneNum, oneFin, oneNonzero⟩ := one
  rcases isInf_or_isFinite h with inf | fin
  · simp only [fDiv, neg, h, oneNum, inf, oneFin, Bool.or_self, if_true, Bool.false_eq_true, if_false]
    exact fInf_of_isInf inf
  · simp only [fDiv, neg, h, oneNum, oneFin, oneNonzero, isInf_false_of_isFinite fin, Bool.or_self,
      Bool.false_eq_true, if_false]
    rw [magUnits_one, roundRatio_mul _ _ (Nat.two_pow_pos 149), roundRatio_self _ fin, packBits_self]

/-- `a /. a = 1.0`, exactly, for a finite datum other than a zero. -/
theorem fDiv_self {a : F} (fin : isFinite a = true) (nonzero : isZero a = false) :
    fDiv a a = fOne := by
  have oneFin : isFinite fOne = true := by decide
  simp only [fDiv, isNaN_false_of_isFinite fin, isInf_false_of_isFinite fin, nonzero, Bool.or_self,
    Bool.false_eq_true, if_false, bne_self_eq_false]
  rw [Nat.mul_comm, roundRatio_mul _ _ (magUnits_pos nonzero), ← magUnits_one,
    roundRatio_self _ oneFin]
  rfl

/-- A zero over a finite datum other than a zero is a zero. -/
theorem isZero_fDiv {a b : F} (ha : isZero a = true) (hb : isFinite b = true)
    (nonzero : isZero b = false) : isZero (fDiv a b) = true := by
  have haf := isFinite_of_isZero ha
  simp [fDiv, isNaN_false_of_isFinite haf, isNaN_false_of_isFinite hb, isInf_false_of_isFinite haf,
    isInf_false_of_isFinite hb, nonzero, magUnits_of_isZero ha]

/-- The root of one is found by running the root on it. -/
theorem fSqrt_one : fSqrt fOne = fOne := by decide +kernel

/-! ### Doubling -/

/-- A magnitude past the largest finite datum is rounded to an infinity. -/
theorem roundRatio_overflow (neg : Bool) {m k : Nat}
    (hk : (if m < 2 ^ 24 then 0 else Nat.log2 m - 23) = k)
    (hbig : 0x7F800000 ≤ k * 2 ^ 23 + m / 2 ^ k) : roundRatio neg m 1 = fInf neg := by
  simp only [roundRatio, Nat.div_one, one_mul, hk]
  refine if_pos (hbig.trans (Nat.add_le_add_left ?_ _))
  split <;> omega

/-- `2.0 *. a` rounds twice the magnitude of `a`. -/
theorem fMul_two {a : F} (fin : isFinite a = true) :
    fMul fTwo a = roundRatio (signBit a) (2 * magUnits a) 1 := by
  have two : isNaN fTwo = false ∧ isInf fTwo = false := by decide
  obtain ⟨twoNum, twoFin⟩ := two
  have neg : (signBit fTwo != signBit a) = signBit a := Bool.false_xor _
  have units : magUnits fTwo = 2 * 2 ^ 149 := by decide
  simp only [fMul, neg, twoNum, twoFin, isNaN_false_of_isFinite fin, isInf_false_of_isFinite fin,
    Bool.or_self, Bool.false_eq_true, if_false]
  rw [units, Nat.mul_right_comm, roundRatio_mul _ _ (Nat.two_pow_pos 149)]

/-- Below the highest binade there is a datum of twice the magnitude. -/
theorem exists_double {a : F} (h : expField a < 254) :
    ∃ c, isFinite c = true ∧ signBit c = signBit a ∧ magUnits c = 2 * magUnits a := by
  have datum : ∀ e f, f < 2 ^ 23 → e < 255 → ∃ c : F, isFinite c = true ∧ signBit c = signBit a ∧
      expField c = e ∧ fracField c = f := by
    intro e f hf he
    have hm : e * 2 ^ 23 + f < 2 ^ 31 := by omega
    obtain ⟨hce, hcf⟩ := fields_of_mag hf (packBits_mag (signBit a) hm)
    exact ⟨_, by simp only [isFinite, hce, bne_iff_ne]; omega, signBit_packBits _ hm, hce, hcf⟩
  have hf := fracField_lt a
  by_cases subnormal : expField a = 0
  · by_cases small : 2 * fracField a < 2 ^ 23
    · obtain ⟨c, fin, sgn, hce, hcf⟩ := datum 0 _ small (by decide)
      exact ⟨c, fin, sgn, by simp only [magUnits, hce, hcf, subnormal, if_true]⟩
    · obtain ⟨c, fin, sgn, hce, hcf⟩ := datum 1 (2 * fracField a - 2 ^ 23) (by omega) (by decide)
      refine ⟨c, fin, sgn, ?_⟩
      simp only [magUnits, hce, hcf, subnormal, if_true, if_neg Nat.one_ne_zero, Nat.sub_self]
      omega
  · obtain ⟨c, fin, sgn, hce, hcf⟩ := datum (expField a + 1) _ hf (by omega)
    refine ⟨c, fin, sgn, ?_⟩
    obtain ⟨e, he⟩ := Nat.exists_eq_succ_of_ne_zero subnormal
    simp only [magUnits, hce, hcf, he, Nat.succ_ne_zero, if_false, Nat.add_sub_cancel,
      Nat.succ_eq_add_one, Nat.pow_succ]
    ring

/-- In the highest binade doubling overflows. -/
theorem fMul_two_overflow {a : F} (h : expField a = 254) : fMul fTwo a = fInf (signBit a) := by
  have hf := fracField_lt a
  have fin : isFinite a = true := by simp [isFinite, h]
  have double : 2 * magUnits a = (2 ^ 23 + fracField a) * 2 ^ 254 := by
    rw [magUnits, h, if_neg (by decide), Nat.mul_left_comm, ← Nat.pow_succ']
  have pos : 0 < (2 ^ 23 + fracField a) * 2 ^ 254 := by positivity
  have hlog : Nat.log2 ((2 ^ 23 + fracField a) * 2 ^ 254) = 277 := by
    rw [Nat.log2_eq_iff pos.ne']
    omega
  rw [fMul_two fin, double]
  refine roundRatio_overflow (k := 254) _ ?_ ?_
  · rw [hlog, if_neg (by omega)]
  · rw [Nat.mul_div_cancel _ (Nat.two_pow_pos 254)]
    omega

/-- Only a finite datum has a finite double. -/
theorem isFinite_of_isFinite_double {a : F} (h : isFinite (fMul fTwo a) = true) :
    isFinite a = true := by
  have num : isNaN a = false := by
    by_contra nan
    rw [Bool.not_eq_false] at nan
    cases (isNaN_false_of_isFinite h).symm.trans (fMul_nan_right fTwo nan)
  refine (isInf_or_isFinite num).resolve_left fun inf => ?_
  have two : isNaN fTwo = false ∧ isZero fTwo = false := by decide
  simp [fMul, num, inf, two, isZero_false_of_isInf inf, isFinite_fInf] at h

/-- A doubling that stays finite is exact. -/
theorem fMul_two_exact {a : F} (h : isFinite (fMul fTwo a) = true) :
    signBit (fMul fTwo a) = signBit a ∧ signedUnits (fMul fTwo a) = 2 * signedUnits a := by
  have fin := isFinite_of_isFinite_double h
  have notTop : expField a ≠ 254 := fun top => by
    rw [fMul_two_overflow top, isFinite_fInf] at h
    cases h
  have belowTop : expField a < 254 := by
    have := expField_lt a
    have : expField a ≠ 255 := by simpa [isFinite] using fin
    omega
  obtain ⟨c, cFin, sgn, double⟩ := exists_double belowTop
  have doubled : fMul fTwo a = c := by
    rw [fMul_two fin, ← double, ← sgn, roundRatio_self _ cFin, packBits_self]
  rw [doubled]
  refine ⟨sgn, ?_⟩
  cases hs : signBit a <;> simp [signedUnits, sgn, hs, double]

/-! ### Sums -/

theorem fAdd_finite {a b : F} (ha : isFinite a = true) (hb : isFinite b = true) :
    fAdd a b = addFinite a b := by
  simp [fAdd, addWith, isNaN_false_of_isFinite ha, isNaN_false_of_isFinite hb,
    isInf_false_of_isFinite ha, isInf_false_of_isFinite hb]

/-- A sum that cancels is a zero, negative for two negative operands only. -/
theorem addFinite_cancel {a b : F} (h : signedUnits a + signedUnits b = 0) :
    addFinite a b = fZero (signBit a && signBit b) := by
  simp only [addFinite, h, if_true]

/-- A sum that is a datum other than a zero is that datum. -/
theorem addFinite_exact {a b c : F} (hc : isFinite c = true) (nonzero : isZero c = false)
    (h : signedUnits a + signedUnits b = signedUnits c) : addFinite a b = c := by
  have pos := magUnits_pos nonzero
  have value : signedUnits c ≠ 0 ∧ decide (signedUnits c < 0) = signBit c ∧
      (signedUnits c).natAbs = magUnits c := by
    cases hs : signBit c <;> simp [signedUnits, hs] <;> omega
  obtain ⟨hne, hneg, habs⟩ := value
  simp only [addFinite, h, if_neg hne, hneg, habs]
  rw [roundRatio_self _ hc, packBits_self]

/-- `(n - 2n) + n` is `+0.0`, whatever the sign of `n`, when the doubling stays finite. -/
theorem add_minus_double_add {n : F} (h : isFinite (fMul fTwo n) = true) :
    fAdd (fAdd n (fNeg (fMul fTwo n))) n = fZero false := by
  have fin := isFinite_of_isFinite_double h
  obtain ⟨sgn, value⟩ := fMul_two_exact h
  have first : fAdd n (fNeg (fMul fTwo n)) = addFinite n (fNeg (fMul fTwo n)) :=
    fAdd_finite fin (by rwa [isFinite_fNeg])
  cases hz : isZero n with
  | true =>
    have units := signedUnits_of_isZero hz
    have cancel : addFinite n (fNeg (fMul fTwo n)) = fZero false := by
      rw [addFinite_cancel (by simp [value, units]), signBit_fNeg, sgn, Bool.and_not_self]
    have zeroUnits : signedUnits (fZero false) = 0 := signedUnits_of_isZero (isZero_fZero false)
    rw [first, cancel, fAdd_finite (by decide) fin, addFinite_cancel (by simp [zeroUnits, units])]
    rfl
  | false =>
    have minus : addFinite n (fNeg (fMul fTwo n)) = fNeg n :=
      addFinite_exact (by rwa [isFinite_fNeg]) (by rwa [isZero_fNeg]) (by simp [value]; omega)
    rw [first, minus, fAdd_finite (by rwa [isFinite_fNeg]) fin, addFinite_cancel (by simp),
      signBit_fNeg, Bool.not_and_self]

end Sys2Proof.Machine
end

section
/-! PROOF. The coefficient calculator (file 40): the elementary functions on their domains (R79), the two
lookups (R74, R75), the peak design and its flat case (R81), and the sections of a cut design (R84). -/

namespace Sys2Proof.Machine

/-! ### The elementary functions (R79) -/

/-- A property that one has holds of every value held to it, whatever the raw value was. -/
theorem heldTo_keeps {e4 : F → Bool} (one : e4 fOne = true) (r : Ratio) (raw : F) :
    e4 (heldTo r e4 raw) = true := by
  unfold heldTo
  split
  next kept => exact (Bool.and_eq_true _ _ ▸ kept).2
  next =>
    split
    next reference => exact reference
    next => exact one

theorem isPositive_one : isPositive fOne = true := by decide

theorem isWithinOne_one : isWithinOne fOne = true := by decide

/-- E2. -/
theorem pow10_of_isZero {x : F} (h : isZero x = true) : numFns.pow10 x = fOne := if_pos h

theorem isPositive_sin {x : F} (h : inTrigDomain x = true) : isPositive (numFns.sin x) = true := by
  simp only [numFns, h, if_true]
  exact heldTo_keeps isPositive_one _ _

theorem isWithinOne_cos {x : F} (h : inTrigDomain x = true) :
    isWithinOne (numFns.cos x) = true := by
  simp only [numFns, h, if_true]
  exact heldTo_keeps isWithinOne_one _ _

theorem isPositive_tan {x : F} (h : inTanDomain x = true) : isPositive (numFns.tan x) = true := by
  simp only [numFns, h, if_true]
  exact heldTo_keeps isPositive_one _ _

theorem isPositive_pow10 {x : F} (h : inPowDomain x = true) :
    isPositive (numFns.pow10 x) = true := by
  cases hz : isZero x with
  | true => exact pow10_of_isZero hz ▸ isPositive_one
  | false =>
    simp only [numFns, hz, h, Bool.false_eq_true, if_false, if_true]
    exact heldTo_keeps isPositive_one _ _

/-! ### The four micro-operations -/

theorem exec_slope2count {s : State} (hs : s.seq ≠ .halt) :
    exec .slope2count s = .next (s.putCount (slopeCount s.uop.idx)) := coreDoes_running _ hs

theorem exec_slope2order {s : State} (hs : s.seq ≠ .halt) :
    exec .slope2order s = .next (s.putOrder (slopeOrder s.uop.idx)) := coreDoes_running _ hs

theorem exec_calcPeak {s : State} (hs : s.seq ≠ .halt) :
    exec .calcPeak s =
      .next (s.putSet (peakDesign numFns s.uop.sr s.uop.freq s.uop.q s.uop.gdb)) :=
  coreDoes_running _ hs

theorem exec_calcCut {s : State} (hs : s.seq ≠ .halt) :
    exec .calcCut s =
      .next (s.putSeqn (cutDesign numFns s.uop.freq s.uop.sr s.uop.order s.uop.kind)) :=
  coreDoes_running _ hs

/-- The frame of a result that goes to a latch. -/
theorem onlyLatches_setUop (s : State) (u : Latches) : OnlyLatches s (s.setUop u) :=
  ⟨rfl, rfl, ⟨rfl, rfl, rfl, rfl, rfl⟩, ⟨rfl, rfl, rfl⟩, rfl, rfl, fun _ => rfl⟩

/-! ### The lookups (R74, R75) -/

/-- `idx + 1` has room in three bits. -/
theorem toNat_slopeCount (idx : SlopeIndex) : (slopeCount idx).toNat = idx.toNat + 1 := by
  simp only [slopeCount]
  bv_omega

theorem slopeOrder_lookup (idx : SlopeIndex) :
    [2, 4, 6, 8][idx.toNat]? = some (orderNumber (slopeOrder idx)) := by
  revert idx
  decide

theorem orderNumber_slopeOrder (idx : SlopeIndex) :
    orderNumber (slopeOrder idx) = 2 * (idx.toNat + 1) := by
  revert idx
  decide

/-! ### The peak design at a gain of zero (R81) -/

/-- `alpha` of the peak design (R81). -/
def peakAlpha (sr f q : F) : F := fDiv (numFns.sin (fDiv (fMul fTwoPi f) sr)) (fMul fTwo q)

/-- `A` of the peak design (R81). -/
def peakAmplitude (gdb : F) : F := fSqrt (numFns.pow10 (fDiv gdb fTwenty))

/-- The peak set from the values `n1`, `alpha` and `A` of the pseudocode (R81). -/
def peakSet (n1 alpha a : F) : CoefSet where
  b0 := fDiv (fAdd fOne (fMul alpha a)) (fAdd fOne (fDiv alpha a))
  b1 := fDiv n1 (fAdd fOne (fDiv alpha a))
  b2 := fDiv (fSub fOne (fMul alpha a)) (fAdd fOne (fDiv alpha a))
  a1 := fDiv n1 (fAdd fOne (fDiv alpha a))
  a2 := fDiv (fSub fOne (fDiv alpha a)) (fAdd fOne (fDiv alpha a))

theorem peakDesign_eq (sr f q gdb : F) :
    peakDesign numFns sr f q gdb =
      peakSet (fMul fMinusTwo (numFns.cos (fDiv (fMul fTwoPi f) sr))) (peakAlpha sr f q)
        (peakAmplitude gdb) := rfl

/-- `b1` and `a1` share one division (R81 corner (b)). -/
theorem peakSet_b1 (n1 alpha a : F) : (peakSet n1 alpha a).b1 = (peakSet n1 alpha a).a1 := rfl

/-- At an amplitude of one `alpha *. A` and `alpha /. A` are both `alpha` (R81 corner (a)). -/
theorem peakSet_one (n1 : F) {alpha : F} (num : isNaN alpha = false) :
    (peakSet n1 alpha fOne).b2 = (peakSet n1 alpha fOne).a2 ∧
      (peakSet n1 alpha fOne).b0 = fDiv (fAdd fOne alpha) (fAdd fOne alpha) := by
  simp only [peakSet, fMul_one num, fDiv_one num, and_self]

/-- A gain of zero is an amplitude of one (E2). -/
theorem peakAmplitude_of_isZero {gdb : F} (h : isZero gdb = true) : peakAmplitude gdb = fOne := by
  rw [peakAmplitude, pow10_of_isZero (isZero_fDiv h (by decide) (by decide)), fSqrt_one]

/-! ### The sections of a cut design (R84) -/

theorem length_invQ (order : Order) : (invQ order).length = orderNumber order / 2 := by
  cases order <;> rfl

theorem length_cutDesign (nf : NumFns) (fc sr : F) (order : Order) (kind : Kind) :
    (cutDesign nf fc sr order kind).length = orderNumber order / 2 := by
  rw [cutDesign, List.length_map, length_invQ]

/-- Section `i` is made from the constant `INVQ[order][i]`. -/
theorem getElem?_cutDesign (nf : NumFns) (fc sr : F) {order : Order} (kind : Kind) {i : Nat} {iq : F}
    (h : (invQ order)[i]? = some iq) :
    (cutDesign nf fc sr order kind)[i]? =
      some (cutSection kind (nf.tan (fDiv (fMul fPi fc) sr))
        (fMul (nf.tan (fDiv (fMul fPi fc) sr)) (nf.tan (fDiv (fMul fPi fc) sr))) iq) := by
  rw [cutDesign, List.getElem?_map, h, Option.map_some]

/-- The normaliser `nrm` of a section (R84). -/
def cutNorm (k k2 iq : F) : F := fDiv fOne (fAdd (fAdd fOne (fMul iq k)) k2)

/-- The feedback coefficients do not depend on the kind. -/
theorem cutSection_feedback (kind : Kind) (k k2 iq : F) :
    (cutSection kind k k2 iq).a1 = fMul (fMul fTwo (fSub k2 fOne)) (cutNorm k k2 iq) ∧
      (cutSection kind k k2 iq).a2 = fMul (fAdd (fSub fOne (fMul iq k)) k2) (cutNorm k k2 iq) := by
  cases kind <;> exact ⟨rfl, rfl⟩

theorem cutSection_lp (k k2 iq : F) :
    (cutSection .lp k k2 iq).b0 = fMul k2 (cutNorm k k2 iq) ∧
      (cutSection .lp k k2 iq).b1 = fMul fTwo (cutSection .lp k k2 iq).b0 ∧
      (cutSection .lp k k2 iq).b2 = (cutSection .lp k k2 iq).b0 := ⟨rfl, rfl, rfl⟩

theorem cutSection_hp (k k2 iq : F) :
    (cutSection .hp k k2 iq).b0 = cutNorm k k2 iq ∧
      (cutSection .hp k k2 iq).b1 = fNeg (fMul fTwo (cutNorm k k2 iq)) ∧
      (cutSection .hp k k2 iq).b2 = cutNorm k k2 iq := ⟨rfl, rfl, rfl⟩

/-- A highpass section blocks a constant (R84 corner (b)). -/
theorem cutSection_hp_sum {k k2 iq : F} (h : isFinite (cutSection .hp k k2 iq).b1 = true) :
    fAdd (fAdd (cutSection .hp k k2 iq).b0 (cutSection .hp k k2 iq).b1)
      (cutSection .hp k k2 iq).b2 = 0x00000000#32 := by
  obtain ⟨b0, b1, b2⟩ := cutSection_hp k k2 iq
  rw [b1, isFinite_fNeg] at h
  rw [b0, b1, b2]
  exact add_minus_double_add h

end Sys2Proof.Machine

namespace Sys2Proof.Proofs

open Machine

/-- Settles O8. -/
theorem slopeToOrder : Obligations.SlopeToOrder := by
  intro s hs
  have twice := orderNumber_slopeOrder s.uop.idx
  refine ⟨_, exec_slope2order hs, slopeOrder_lookup _, twice, fun nf fc sr kind => ?_, rfl,
    onlyLatches_setUop _ _⟩
  rw [length_cutDesign, State.putOrder_uop, twice, Nat.mul_div_cancel_left _ Nat.two_pos]

/-- Settles O10: at a gain of zero the amplitude is one, and `b0` is a quotient of equal operands. -/
theorem flatPeak : Obligations.FlatPeak := by
  intro s t hs h
  cases (exec_calcPeak hs).symm.trans h
  rw [State.putSet_uop, peakDesign_eq]
  refine ⟨peakSet_b1 _ _ _, ?_⟩
  intro gain w0 alpha a0 num
  obtain ⟨b2, b0⟩ := peakSet_one (fMul fMinusTwo (numFns.cos w0)) num
  rw [peakAmplitude_of_isZero gain]
  have leading : a0 = fAdd fOne alpha := congrArg (fAdd fOne) (fDiv_one num)
  exact ⟨b2, fun fin nonzero => b0.trans (fDiv_self (leading ▸ fin) (leading ▸ nonzero))⟩

/-- Settles O11, section by section. -/
theorem cutDesignResult : Obligations.CutDesignResult := by
  intro s hs k k2 iq
  have constants : iq = invQ s.uop.order := by
    simp only [iq]
    cases s.uop.order <;> rfl
  refine ⟨_, exec_calcCut hs, length_cutDesign _ _ _ _ _, ?_, rfl, onlyLatches_setUop _ _⟩
  intro i q hq
  refine ⟨_, getElem?_cutDesign _ _ _ _ (constants ▸ hq), ?_⟩
  obtain ⟨a1, a2⟩ := cutSection_feedback s.uop.kind k k2 q
  refine ⟨a1, a2, fun kind => ?_, fun kind => ?_⟩ <;> rw [kind]
  · exact cutSection_lp k k2 q
  · exact cutSection_hp k k2 q

/-- Settles O12: each set of the sequence is a highpass section. -/
theorem highpassBlocksConstant : Obligations.HighpassBlocksConstant := by
  intro s t c hs kind h mem fin
  cases (exec_calcCut hs).symm.trans h
  rw [State.putSeqn_uop, kind] at mem
  obtain ⟨iq, -, rfl⟩ := List.mem_map.1 mem
  exact cutSection_hp_sum fin

/-- Settles O13. -/
theorem elementarySigns : Obligations.ElementarySigns := by
  refine ⟨fun x h => pow10_of_isZero h, fun x lo hi => ?_, fun x lo hi => ?_, fun x lo hi => ?_⟩
  · have domain : inTrigDomain x = true := Bool.and_eq_true_iff.2 ⟨lo, hi⟩
    exact ⟨isPositive_sin domain, Bool.and_eq_true_iff.1 (isWithinOne_cos domain)⟩
  · exact isPositive_tan (Bool.and_eq_true_iff.2 ⟨lo, hi⟩)
  · exact isPositive_pow10 (Bool.and_eq_true_iff.2 ⟨lo, hi⟩)

/-- Settles O7. -/
theorem slopeToCount : Obligations.SlopeToCount := fun s hs =>
  ⟨_, exec_slope2count hs, toNat_slopeCount s.uop.idx, rfl, onlyLatches_setUop _ _⟩

/-- Settles O9. -/
theorem peakDesignResult : Obligations.PeakDesignResult := fun _ hs =>
  ⟨_, exec_calcPeak hs, rfl, rfl, rfl, rfl, rfl, rfl, onlyLatches_setUop _ _⟩

end Sys2Proof.Proofs
end

section
/-! PROOF. The biquad section (file 41): `BQ_LOAD`, `BQ_RESET` and `BQ_STEP` with their frame (R92 to R94),
a section at rest, and a NaN in a section. -/

namespace Sys2Proof.Machine

/-! ### The three micro-operations -/

theorem exec_bqLoad {s : State} (hs : s.seq ≠ .halt) :
    exec .bqLoad s = .next (s.setRf (bqLoad s.rf s.uop.c s.uop.k s.uop.set)) :=
  coreDoes_running _ hs

theorem exec_bqReset {s : State} (hs : s.seq ≠ .halt) :
    exec .bqReset s = .next (s.setRf (bqReset s.rf s.uop.c s.uop.k)) := coreDoes_running _ hs

theorem exec_bqStep {s : State} (hs : s.seq ≠ .halt) :
    exec .bqStep s =
      .next ((s.setRf (bqStep s.rf s.uop.c s.uop.k s.uop.x).2).putY
        (bqOutput s.rf s.uop.c s.uop.k s.uop.x)) :=
  coreDoes_running _ hs

/-- The frame of an operation on the register file. -/
theorem onlyRegFile_setRf (s : State) (rf : RegFile) : OnlyRegFile s (s.setRf rf) :=
  ⟨rfl, ⟨rfl, rfl, rfl, rfl, rfl⟩, ⟨rfl, rfl, rfl⟩, rfl, rfl, fun _ => rfl⟩

/-- The frame of an operation on the register file whose result goes to a latch. -/
theorem onlyRegFile_setRf_setUop (s : State) (rf : RegFile) (u : Latches) :
    OnlyRegFile s ((s.setRf rf).setUop u) :=
  ⟨rfl, ⟨rfl, rfl, rfl, rfl, rfl⟩, ⟨rfl, rfl, rfl⟩, rfl, rfl, fun _ => rfl⟩

theorem bqLoad_slot_ne (rf : RegFile) {c c' : Chain} {k k' : SlotId} (set : CoefSet)
    (h : ¬(c' = c ∧ k' = k)) : SameSlot c' k' rf (bqLoad rf c k set) :=
  ⟨fun j => bqLoad_read_ne rf set j h, bqLoad_flag rf c c' k k' set⟩

theorem bqReset_slot_ne (rf : RegFile) {c c' : Chain} {k k' : SlotId} (h : ¬(c' = c ∧ k' = k)) :
    SameSlot c' k' rf (bqReset rf c k) :=
  ⟨fun j => bqReset_read_ne rf j h, bqReset_flag rf c c' k k'⟩

/-- The delay line after a step as operands of the next one. -/
theorem bqStep_values (rf : RegFile) (c : Chain) (k : SlotId) (x : F) :
    (bqStep rf c k x).2.value c k .w1 = bqInner rf c k x ∧
      (bqStep rf c k x).2.value c k .w2 = rf.value c k .w1 :=
  ⟨RegFile.value_eq_of_read (bqStep_w1 rf c k x), RegFile.value_eq_of_read (bqStep_w2 rf c k x)⟩

/-! ### A section at rest (R94 corner (b)) -/

theorem bqInner_isZero {rf : RegFile} {c : Chain} {k : SlotId} {x : F}
    (coefs : ∀ j, isDelay j = false → isFinite (rf.value c k j) = true)
    (h1 : isZero (rf.value c k .w1) = true) (h2 : isZero (rf.value c k .w2) = true)
    (hx : isZero x = true) : isZero (bqInner rf c k x) = true :=
  fSub_zero (fSub_zero hx (fMul_zero_right (coefs .a1 rfl) h1)) (fMul_zero_right (coefs .a2 rfl) h2)

theorem bqOutput_isZero {rf : RegFile} {c : Chain} {k : SlotId} {x : F}
    (coefs : ∀ j, isDelay j = false → isFinite (rf.value c k j) = true)
    (h1 : isZero (rf.value c k .w1) = true) (h2 : isZero (rf.value c k .w2) = true)
    (h0 : isZero (bqInner rf c k x) = true) : isZero (bqOutput rf c k x) = true :=
  fAdd_zero (fAdd_zero (fMul_zero_right (coefs .b0 rfl) h0) (fMul_zero_right (coefs .b1 rfl) h1))
    (fMul_zero_right (coefs .b2 rfl) h2)

/-! ### A NaN in a section (R94 corner (c), R169) -/

/-- Input and both delay registers are operands of `w0`. -/
theorem bqInner_isNaN {rf : RegFile} {c : Chain} {k : SlotId} {x : F}
    (h : isNaN x = true ∨ isNaN (rf.value c k .w1) = true ∨ isNaN (rf.value c k .w2) = true) :
    isNaN (bqInner rf c k x) = true := by
  rcases h with hx | h1 | h2
  · exact fSub_nan_left _ (fSub_nan_left _ hx)
  · exact fSub_nan_left _ (fSub_nan_right _ (fMul_nan_right _ h1))
  · exact fSub_nan_right _ (fMul_nan_right _ h2)

/-- `w0` is an operand of the output. -/
theorem bqOutput_isNaN {rf : RegFile} {c : Chain} {k : SlotId} {x : F}
    (h : isNaN (bqInner rf c k x) = true) : isNaN (bqOutput rf c k x) = true :=
  fAdd_nan_left _ (fAdd_nan_left _ (fMul_nan_right _ h))

end Sys2Proof.Machine

namespace Sys2Proof.Proofs

open Machine

/-- Settles O14. -/
theorem sectionLoad : Obligations.SectionLoad := by
  intro s hs
  refine ⟨_, exec_bqLoad hs, fun j hj => ?_, bqLoad_delays _ _ _ _, fun c k => bqLoad_flag _ _ _ _ _ _,
    fun c k other => bqLoad_slot_ne _ _ other, rfl, onlyRegFile_setRf _ _⟩
  exact (bqLoad_read_same _ _ _ _ j).trans (if_neg (by simp [hj]))

/-- Settles O15. -/
theorem sectionReset : Obligations.SectionReset := fun _ hs =>
  ⟨_, exec_bqReset hs, bqReset_read_same _ _ _ .w1, bqReset_read_same _ _ _ .w2,
    bqReset_config _ _ _, fun _ _ other => bqReset_slot_ne _ other, rfl, onlyRegFile_setRf _ _⟩

/-- Settles O16. -/
theorem sectionStep : Obligations.SectionStep := fun _ hs =>
  ⟨_, exec_bqStep hs, rfl, bqStep_w1 _ _ _ _, bqStep_w2 _ _ _ _, bqStep_config _ _ _ _,
    fun _ _ other => bqStep_slot_ne _ _ other, onlyRegFile_setRf_setUop _ _ _⟩

/-- Settles O17: `w0` is a zero, the output is a sum of products with zeros, and the delay line shifts
zeros. -/
theorem sectionRestStaysRest : Obligations.SectionRestStaysRest := by
  intro s t hs h coefs h1 h2 hx
  cases (exec_bqStep hs).symm.trans h
  obtain ⟨w1, w2⟩ := bqStep_values s.rf s.uop.c s.uop.k s.uop.x
  have inner := bqInner_isZero coefs h1 h2 hx
  exact ⟨bqOutput_isZero coefs h1 h2 inner, (congrArg isZero w1).trans inner,
    (congrArg isZero w2).trans h1⟩

/-- Settles O18: the NaN reaches `w0`, which is stored and reaches the output. -/
theorem nanStaysInSection : Obligations.NaNStaysInSection := by
  intro s t hs h nan
  cases (exec_bqStep hs).symm.trans h
  obtain ⟨w1, -⟩ := bqStep_values s.rf s.uop.c s.uop.k s.uop.x
  have inner := bqInner_isNaN nan
  exact ⟨bqOutput_isNaN inner, (congrArg isNaN w1).trans inner⟩

end Sys2Proof.Proofs
end

section
/-! PROOF. A signal cut into two `PROCESS` commands (R95, R111): a command from its word to `IDLE`, and an
update that finds its own configuration in force. -/

namespace Sys2Proof.Machine

/-! ### An update on the configuration it makes (R119, R121) -/

/-- Two register files with the same configuration and the same delay lines are equal. -/
theorem regFile_eq_of_config_of_delays {rf rf' : RegFile} (hc : SameConfiguration rf rf')
    (hd : SameDelayLines rf rf') : rf' = rf := by
  obtain ⟨coefs, flags⟩ := hc
  refine RegFile.ext_chain fun c => chain_eq_of_sameSlot fun k => ⟨fun j => ?_, flags c k⟩
  cases hj : isDelay j with
  | false => exact coefs c k j hj
  | true => exact hd c k j hj

/-- An update of a register file that has the configuration it makes changes no configuration: what it
loads is there, and the slots past a side's count are bypassed and kept. -/
theorem loadDesign_config {d : Design} {rf rf' : RegFile}
    (h : SameConfiguration (loadDesign d rf) rf') : SameConfiguration rf' (loadDesign d rf') := by
  obtain ⟨coefs, flags⟩ := h
  refine ⟨fun c k j hj => ?_, fun c k => ?_⟩ <;> rcases slotId_cases k with rfl | ⟨side, i, rfl⟩
  · rw [coefs c _ j hj, loadDesign_peak d rf c j hj, loadDesign_peak d rf' c j hj]
  · obtain ⟨on, -⟩ := loadDesign_cut d rf c side i
    obtain ⟨on', off'⟩ := loadDesign_cut d rf' c side i
    rcases Nat.lt_or_ge (d.index side).toNat i.val with hi | hi
    · exact (off' hi).2 j
    · rw [coefs c _ j hj, (on hi).2 j hj, (on' hi).2 j hj]
  · rw [RegFile.flag_pk, RegFile.flag_pk]
  · obtain ⟨on, off⟩ := loadDesign_cut d rf c side i
    obtain ⟨on', off'⟩ := loadDesign_cut d rf' c side i
    rcases Nat.lt_or_ge (d.index side).toNat i.val with hi | hi
    · rw [flags, (off hi).1, (off' hi).1]
    · rw [flags, (on hi).1, (on' hi).1]

/-- An update made again changes nothing, whatever the delay lines hold by then. -/
theorem loadDesign_again {d : Design} {rf rf' : RegFile}
    (h : SameConfiguration (loadDesign d rf) rf') : loadDesign d rf' = rf' :=
  regFile_eq_of_config_of_delays (loadDesign_config h) (loadDesign_delays d rf')

/-! ### The blocks of both channels -/

theorem exists_channelOf {ch : BitVec 8} (h : ch < 2) : ∃ c, channelOf c = ch := by
  rcases (by bv_omega : ch = 0 ∨ ch = 1) with rfl | rfl
  · exact ⟨.left, rfl⟩
  · exact ⟨.right, rfl⟩

theorem channelOf_lt (c : Chain) : channelOf c < 2 := by cases c <;> decide

/-- From `s` to `t` each of channels 0 and 1 has its block filtered by its own chain, from that chain's
registers in `rf` (R128). -/
def BlocksFiltered (rf : RegFile) (len : BitVec 16) (s t : State) : Prop :=
  ∀ c, blockOf t (channelOf c) len = (filterBlock c rf (blockOf s (channelOf c) len)).1 ∧
    t.rf.chain c = (filterBlock c rf (blockOf s (channelOf c) len)).2.chain c

theorem sameConfiguration_of_chain {rf rf' : RegFile}
    (h : ∀ c, ∃ r, SameConfiguration rf r ∧ rf'.chain c = r.chain c) : SameConfiguration rf rf' := by
  refine ⟨fun c k j hj => ?_, fun c k => ?_⟩ <;> obtain ⟨r, ⟨coefs, flags⟩, e⟩ := h c
  · rw [← coefs c k j hj, RegFile.read, RegFile.slot, e]
    rfl
  · rw [← flags c k, RegFile.flag, e]
    rfl

/-- Filtering blocks writes no coefficient and no flag. -/
theorem BlocksFiltered.config {rf : RegFile} {len : BitVec 16} {s t : State}
    (h : BlocksFiltered rf len s t) : SameConfiguration rf t.rf :=
  sameConfiguration_of_chain fun c => ⟨_, filterBlock_config c rf _, (h c).2⟩

/-- A block cut in two, the second part filtered on the registers the first one left. -/
theorem BlocksFiltered.append {rf : RegFile} {l m n : BitVec 16} {s t a a' b b' : State}
    (whole : BlocksFiltered rf l s t) (first : BlocksFiltered rf m a a')
    (second : BlocksFiltered a'.rf n b b')
    (cut : ∀ c, blockOf s (channelOf c) l = blockOf a (channelOf c) m ++ blockOf b (channelOf c) n) :
    t.rf = b'.rf ∧ ∀ c,
      blockOf t (channelOf c) l = blockOf a' (channelOf c) m ++ blockOf b' (channelOf c) n := by
  have parts : ∀ c,
      blockOf t (channelOf c) l = blockOf a' (channelOf c) m ++ blockOf b' (channelOf c) n ∧
        t.rf.chain c = b'.rf.chain c := fun c => by
    obtain ⟨out, regs⟩ := whole c
    obtain ⟨outA, regsA⟩ := first c
    obtain ⟨outB, regsB⟩ := second c
    obtain ⟨outputs, left⟩ := filterBlock_congr regsA (blockOf b (channelOf c) n)
    rw [cut c, filterBlock_append] at out regs
    exact ⟨by rw [out, outA, outB, outputs], by rw [regs, regsB, left]⟩
  exact ⟨RegFile.ext_chain fun c => (parts c).2, fun c => (parts c).1⟩

/-! ### A `PROCESS` left to itself -/

theorem decode_processWord (nch : BitVec 8) (len : BitVec 16) :
    decode (.command (0x02#8 ++ nch ++ len)) = .ok (.process nch len) :=
  decode_command_fields 0x02#8 nch len

/-- With nothing listed the step is the one of `PROCESS`'s position. -/
theorem step_process {s : State} {nch : BitVec 8} {len : BitVec 16} {ph : Phase}
    (hl : s.listing = []) (hs : s.seq = .run (.process nch len) ph) :
    step s = processAt nch len ph s :=
  (step_command hl hs).trans (exec_process_at hs)

theorem processCheck_pass {s : State} {nch : BitVec 8} {len : BitVec 16} (hp : s.prep = true)
    (h2 : 2 ≤ nch) (hf : len ≤ s.maxblk) :
    processCheck nch len s = s.setSeq (.run (.process nch len) (.snap .lowCutFreq)) := by
  rw [processCheck, if_neg (by simp [hp]), if_neg (BitVec.not_lt.2 h2), if_neg (BitVec.not_lt.2 hf)]

theorem processAt_pcheck_pass (nch : BitVec 8) (len : BitVec 16) {s : State}
    (h : checkParams s.stg.snap s.sr = none) :
    processAt nch len .pcheck s = .next (s.setSeq (.run (.process nch len) .commit)) := by
  simp only [processAt, pcheckStep, h]

/-- From `CHECK` to `COMMIT` in nine steps, when every test passes. -/
theorem run_process_to_commit {s : State} {nch : BitVec 8} {len : BitVec 16} (hl : s.listing = [])
    (hs : s.seq = .run (.process nch len) .check) (hp : s.prep = true) (h2 : 2 ≤ nch)
    (hf : len ≤ s.maxblk) (legal : AllLegal s.par) (below : BelowHalf s.par s.sr) :
    Host.Core.run Sys2Proof.core 9 s =
      .next (withSnapshot s (.process nch len) s.par .commit) := by
  have check : step s = .next (withSnapshot s (.process nch len) s.stg.snap (.snap .lowCutFreq)) :=
    (step_process hl hs).trans (congrArg Host.Outcome.next (processCheck_pass hp h2 hf))
  have reads := run_snapshot (s := s) (cmd := .process nch len) hl s.stg.snap
  have pcheck := (step_process (s := withSnapshot s (.process nch len) s.par .pcheck) hl rfl).trans
    (processAt_pcheck_pass nch len (checkParams_of_legal legal below))
  exact (run_succ check).trans ((run_add (k := 1) reads).trans (run_succ (k := 0) pcheck))

/-- The samples of a command, an empty block included (R127, R129). -/
theorem run_blocks {s : State} {nch : BitVec 8} {len : BitVec 16}
    (hs : s.seq = nextPosition (.process nch len) .commit) (h2 : 2 ≤ nch.toNat)
    (hl : s.listing = []) (hm : s.micro = none) (hf : s.buf.wf = true) :
    ∃ t : State, Host.Core.run Sys2Proof.core (2 * len.toNat) s = .next t ∧ t.seq = .idle ∧
      BlocksFiltered s.rf len s t := by
  by_cases h0 : len = 0
  · subst h0
    exact ⟨s, rfl, hs, fun c => ⟨rfl, rfl⟩⟩
  · obtain ⟨t, run, idle, out0, out1, regs0, regs1, -⟩ :=
      Proofs.processRun s nch len (hs.trans (if_neg h0)) h2 h0 hl hm hf
    refine ⟨t, run, idle, fun c => ?_⟩
    cases c with
    | left => exact ⟨out0, regs0⟩
    | right => exact ⟨out1, regs1⟩

/-- The register file after an update with the parameters and the rate in force. -/
def updatedRf (s : State) : RegFile := loadDesign (designOf numFns s.par s.sr) s.rf

/-- The word of a `PROCESS` is accepted (R31). -/
theorem step_processWord {s : State} {nch : BitVec 8} {len : BitVec 16}
    (h : ReadyToProcess nch len s) :
    step s = .next (acceptCommand (.process nch len) (s.setListing [])) := by
  have free := mustWait_of_not_busy (.send (.command (0x02#8 ++ nch ++ len)))
    (show busy s = false by simp [busy, h.seq, h.micro])
  rw [step_send h.listing free (decode_processWord nch len)]
  simp only [exec, execProcess, State.setListing_seq, h.seq]

/-- The commit of a `PROCESS` does the update and goes on to the samples (R127, R129). -/
theorem step_processCommit {s : State} {nch : BitVec 8} {len : BitVec 16} (hl : s.listing = [])
    (hs : s.seq = .run (.process nch len) .commit) :
    ∃ u : State, step s = .next u ∧ u.seq = nextPosition (.process nch len) .commit ∧
      u.rf = loadDesign (designOf numFns s.stg.snap s.sr) s.rf ∧ u.buf = s.buf ∧ u.listing = [] ∧
      u.micro = s.micro := by
  obtain ⟨g, e⟩ := processCommit_next nch len s
  exact ⟨_, (step_process hl hs).trans (congrArg Host.Outcome.next e), rfl, rfl, rfl, hl, rfl⟩

/-- Eleven steps take a `PROCESS` from its word to its samples, with the update done and the buffer as it
was (R25, R127). -/
theorem run_to_blocks {s : State} {nch : BitVec 8} {len : BitVec 16} (h : ReadyToProcess nch len s) :
    ∃ u : State, Host.Core.run Sys2Proof.core 11 s = .next u ∧
      u.seq = nextPosition (.process nch len) .commit ∧ u.rf = updatedRf s ∧ u.buf = s.buf ∧
      u.listing = [] ∧ u.micro = none := by
  have ten := (run_succ (step_processWord h)).trans
    (run_process_to_commit rfl rfl h.prep h.channels h.fits h.legal h.below)
  obtain ⟨u, commit, hq, hr, hb, hl, hm⟩ := step_processCommit (nch := nch) (len := len)
    (s := withSnapshot (acceptCommand _ (s.setListing [])) _ s.par _) rfl rfl
  exact ⟨u, (run_add (k := 1) ten).trans (run_succ (k := 0) commit), hq, hr, hb, hl,
    hm.trans h.micro⟩

/-- A whole `PROCESS`, from its word to `IDLE` (R127). -/
theorem run_process {s : State} {nch : BitVec 8} {len : BitVec 16} (h : ReadyToProcess nch len s) :
    ∃ t : State, Host.Core.run Sys2Proof.core (11 + 2 * len.toNat) s = .next t ∧ t.seq = .idle ∧
      BlocksFiltered (updatedRf s) len s t := by
  obtain ⟨u, eleven, hs, hr, hb, hl, hm⟩ := run_to_blocks h
  obtain ⟨t, run, idle, filtered⟩ := run_blocks hs h.channels hl hm (hb ▸ h.form)
  have blocks : ∀ ch, blockOf u ch len = blockOf s ch len := fun ch => by
    simp only [blockOf, memRead, hb]
  refine ⟨t, (run_add eleven).trans run, idle, fun c => ?_⟩
  rw [← blocks, ← hr]
  exact filtered c

end Sys2Proof.Machine

namespace Sys2Proof.Proofs

open Machine

/-- Settles O25: the second command's update finds its configuration in force, so its blocks are filtered
on the registers the first command left. -/
theorem streamingAcrossBlocks : Obligations.StreamingAcrossBlocks := by
  intro s a b ns na nb m n fits readyS readyA readyB parA parB srA srB rfA cut
  have len : (m + n).toNat = m.toNat + n.toNat := BitVec.toNat_add_of_lt fits
  obtain ⟨t, runS, idleS, whole⟩ := run_process readyS
  obtain ⟨a', runA, idleA, first⟩ := run_process readyA
  obtain ⟨b', runB, idleB, second⟩ := run_process readyB
  refine ⟨t, a', b', len ▸ runS, runA, runB, idleS, idleA, idleB, fun left => ?_⟩
  have inForce : updatedRf b = a'.rf := by
    rw [updatedRf, left, parB.trans parA.symm, srB.trans srA.symm]
    exact loadDesign_again first.config
  have start : updatedRf a = updatedRf s := by rw [updatedRf, parA, srA, rfA, updatedRf]
  obtain ⟨regs, out⟩ :=
    whole.append (start ▸ first) (inForce ▸ second) fun c => cut _ (channelOf_lt c)
  refine ⟨regs, fun ch hch => ?_⟩
  obtain ⟨c, rfl⟩ := exists_channelOf hch
  exact out c

end Sys2Proof.Proofs
end

section
/-! PROOF. The cut cascade (file 42): `CFG_CUT` with its frame and its count (R99, R100), and the four turns
of `CASC_STEP` (R102, R103). -/

namespace Sys2Proof.Machine

/-! ### The two micro-operations -/

theorem exec_cfgCut {s : State} (hs : s.seq ≠ .halt) :
    exec .cfgCut s =
      .next (s.setRf (cfgCut s.rf s.uop.c s.uop.side s.uop.idx s.uop.seqn)) :=
  coreDoes_running _ hs

theorem exec_cascStep {s : State} (hs : s.seq ≠ .halt) :
    exec .cascStep s =
      .next ((s.setRf (cascStep s.rf s.uop.c s.uop.side s.uop.x).2).putY
        (cascStep s.rf s.uop.c s.uop.side s.uop.x).1) :=
  coreDoes_running _ hs

/-! ### The active slots after `CFG_CUT` (R100) -/

theorem cfgCut_flag_iff (rf : RegFile) (c : Chain) (side : Side) (idx : SlopeIndex)
    (seqn : List CoefSet) (i : Fin 4) :
    (cfgCut rf c side idx seqn).flag c (slotOf side i) = some true ↔ i.val ≤ idx.toNat := by
  rcases Nat.lt_or_ge idx.toNat i.val with past | within
  · simp [(cfgCut_bypassed rf c side idx seqn past).1, past]
  · simp [(cfgCut_active rf c side idx seqn within).1, within]

theorem length_filter_cutSlots (idx : SlopeIndex) :
    (cutSlots.filter fun i => i.val ≤ idx.toNat).length = idx.toNat + 1 := by
  revert idx; decide

/-! ### `BQ_STEP` reads its own slot only -/

theorem SameSlot.value_eq {c : Chain} {k : SlotId} {rf rf' : RegFile} (h : SameSlot c k rf rf')
    (j : Reg) : rf'.value c k j = rf.value c k j := by
  simp only [RegFile.value, h.1 j]

theorem SameSlot.active_eq {c : Chain} {k : SlotId} {rf rf' : RegFile} (h : SameSlot c k rf rf') :
    rf'.active c k = rf.active c k := by
  simp only [RegFile.active, h.2]

theorem SameSlot.bqInner_eq {c : Chain} {k : SlotId} {rf rf' : RegFile} (h : SameSlot c k rf rf')
    (x : F) : bqInner rf' c k x = bqInner rf c k x := by
  simp only [bqInner, h.value_eq]

theorem SameSlot.bqOutput_eq {c : Chain} {k : SlotId} {rf rf' : RegFile} (h : SameSlot c k rf rf')
    (x : F) : bqOutput rf' c k x = bqOutput rf c k x := by
  simp only [bqOutput, h.value_eq, h.bqInner_eq]

/-! ### What a sample does at one slot (R102, R103) -/

/-- Between `rf` and `rf'` the slot `(c, k)` has answered `y` to `x`: by a step where it is active, by the
identity where it is bypassed. -/
def SlotTurn (c : Chain) (k : SlotId) (x y : F) (rf rf' : RegFile) : Prop :=
  if rf.active c k = true then
    y = bqOutput rf c k x ∧
      rf'.read c k .w1 = some (bqInner rf c k x) ∧
      rf'.read c k .w2 = some (rf.value c k .w1)
  else y = x ∧ SameSlot c k rf rf'

theorem cascTurn_slotTurn (c : Chain) (side : Side) (v : F × RegFile) (i : Fin 4) :
    SlotTurn c (slotOf side i) v.1 (cascTurn c side v i).1 v.2 (cascTurn c side v i).2 := by
  unfold SlotTurn cascTurn
  split
  · exact ⟨rfl, bqStep_w1 _ _ _ _, bqStep_w2 _ _ _ _⟩
  · exact ⟨rfl, .refl _ _ _⟩

/-- Earlier turns at other slots do not show in a turn. -/
theorem SlotTurn.of_same_before {c : Chain} {k : SlotId} {x y : F} {rf u rf' : RegFile}
    (before : SameSlot c k rf u) (h : SlotTurn c k x y u rf') : SlotTurn c k x y rf rf' := by
  unfold SlotTurn at *
  rw [before.active_eq, before.bqOutput_eq, before.bqInner_eq, before.value_eq] at h
  split_ifs at h ⊢
  · exact h
  · exact ⟨h.1, before.trans h.2⟩

/-- Later turns at other slots do not touch what a turn left. -/
theorem SlotTurn.then_same {c : Chain} {k : SlotId} {x y : F} {rf u rf' : RegFile}
    (h : SlotTurn c k x y rf u) (after : SameSlot c k u rf') : SlotTurn c k x y rf rf' := by
  unfold SlotTurn at *
  split_ifs at h ⊢
  · obtain ⟨out, w1, w2⟩ := h
    exact ⟨out, (after.1 _).trans w1, (after.1 _).trans w2⟩
  · exact ⟨h.1, h.2.trans after⟩

/-! ### The turns of a cascade, one after the other -/

theorem cascTurn_slot_ne (c : Chain) (side : Side) (v : F × RegFile) {i i' : Fin 4} (h : i ≠ i') :
    SameSlot c (slotOf side i) v.2 (cascTurn c side v i').2 :=
  cascTurn_keeps (P := SameSlot c (slotOf side i) v.2)
    (fun _ x _ kept => kept.trans (bqStep_slot_ne _ x fun e => h (slotOf_injective e.2).2))
    (.refl _ _ _)

/-- The turns of a list of slots leave alone every slot of the side that is not listed. -/
theorem cascTurns_slot_ne (c : Chain) (side : Side) {l : List (Fin 4)} {i : Fin 4} (h : i ∉ l)
    (v : F × RegFile) : SameSlot c (slotOf side i) v.2 (l.foldl (cascTurn c side) v).2 := by
  induction l generalizing v with
  | nil => exact .refl _ _ _
  | cons a l ih =>
    obtain ⟨ne, rest⟩ := not_or.1 (List.mem_cons.not.1 h)
    exact (cascTurn_slot_ne c side v ne).trans (ih rest _)

/-- The sample and the register file after the first `n` turns of `CASC_STEP`. -/
def cascAfter (rf : RegFile) (c : Chain) (side : Side) (x : F) (n : Nat) : F × RegFile :=
  (cutSlots.take n).foldl (cascTurn c side) (x, rf)

theorem take_succ_cutSlots (i : Fin 4) :
    cutSlots.take (i.val + 1) = cutSlots.take i.val ++ [i] := by
  revert i; decide

theorem cascAfter_succ (rf : RegFile) (c : Chain) (side : Side) (x : F) (i : Fin 4) :
    cascAfter rf c side x (i.val + 1) = cascTurn c side (cascAfter rf c side x i.val) i := by
  simp only [cascAfter, take_succ_cutSlots, List.foldl_append, List.foldl_cons, List.foldl_nil]

/-- A slot is untouched until its turn. -/
theorem cascAfter_before (rf : RegFile) (c : Chain) (side : Side) (x : F) (i : Fin 4) :
    SameSlot c (slotOf side i) rf (cascAfter rf c side x i.val).2 :=
  cascTurns_slot_ne c side (fun h => Nat.lt_irrefl _ ((mem_take_cutSlots _ i).1 h)) (x, rf)

/-- A slot is untouched after its turn. -/
theorem cascAfter_later (rf : RegFile) (c : Chain) (side : Side) (x : F) (i : Fin 4) :
    SameSlot c (slotOf side i) (cascAfter rf c side x (i.val + 1)).2 (cascStep rf c side x).2 := by
  have past : i ∉ cutSlots.drop (i.val + 1) := by revert i; decide
  have rest : cascStep rf c side x =
      (cutSlots.drop (i.val + 1)).foldl (cascTurn c side) (cascAfter rf c side x (i.val + 1)) := by
    rw [cascAfter, ← List.foldl_append, List.take_append_drop, cascStep]
  exact rest ▸ cascTurns_slot_ne c side past _

/-- Slot `i` answers with value `i + 1` to value `i`, from its registers before the operation. -/
theorem cascStep_slotTurn (rf : RegFile) (c : Chain) (side : Side) (x : F) (i : Fin 4) :
    SlotTurn c (slotOf side i) (cascAfter rf c side x i.val).1
      (cascAfter rf c side x (i.val + 1)).1 rf (cascStep rf c side x).2 := by
  have turn := cascTurn_slotTurn c side (cascAfter rf c side x i.val) i
  rw [← cascAfter_succ] at turn
  exact (turn.of_same_before (cascAfter_before rf c side x i)).then_same
    (cascAfter_later rf c side x i)

end Sys2Proof.Machine

namespace Sys2Proof.Proofs

open Machine

/-- Settles O19. -/
theorem configureCut : Obligations.ConfigureCut := by
  intro s hs
  refine ⟨_, exec_cfgCut hs, fun i within => ?_, fun i past => cfgCut_bypassed _ _ _ _ _ past,
    cfgCut_delays _ _ _ _ _, fun c k other => cfgCut_other _ _ _ other, rfl, onlyRegFile_setRf _ _⟩
  obtain ⟨on, loaded⟩ := cfgCut_active s.rf s.uop.c s.uop.side s.uop.idx s.uop.seqn within
  exact ⟨on, fun set there j hj => setAt_of_getElem? there ▸ loaded j hj⟩

/-- Settles O20: the flags say which slots are active, and of the four numbers `idx + 1` are at most
`idx`. -/
theorem cutCountExact : Obligations.CutCountExact := by
  intro s t hs h
  cases (exec_cfgCut hs).symm.trans h
  have active := cfgCut_flag_iff s.rf s.uop.c s.uop.side s.uop.idx s.uop.seqn
  refine ⟨?_, active⟩
  simp only [State.setRf, active]
  exact length_filter_cutSlots s.uop.idx

/-- Settles O21: the five values are the sample after none, one, ... four turns. -/
theorem cascadeStep : Obligations.CascadeStep := fun s hs =>
  ⟨_, exec_cascStep hs,
    ⟨fun n => (cascAfter s.rf s.uop.c s.uop.side s.uop.x n.val).1, rfl, rfl,
      cascStep_slotTurn s.rf s.uop.c s.uop.side s.uop.x⟩,
    cascStep_config _ _ _ _,
    fun _ _ other => cascStep_slot_other _ _ fun i ec ek => absurd ⟨ec, ek⟩ (other i),
    onlyRegFile_setRf_setUop _ _ _⟩

end Sys2Proof.Proofs
end

section
/-! PROOF. The mono channel chain (file 43): `CFG_PEAK` with its frame (R108), and the nine slots of
`CHAIN_STEP` in signal order (R107, R109). -/

namespace Sys2Proof.Machine

/-! ### The two micro-operations -/

theorem exec_cfgPeak {s : State} (hs : s.seq ≠ .halt) :
    exec .cfgPeak s = .next (s.setRf (cfgPeak s.rf s.uop.c s.uop.set)) := coreDoes_running _ hs

theorem exec_chainStep {s : State} (hs : s.seq ≠ .halt) :
    exec .chainStep s =
      .next ((s.setRf (chainStep s.rf s.uop.c s.uop.x).2).putY
        (chainStep s.rf s.uop.c s.uop.x).1) :=
  coreDoes_running _ hs

/-! ### The sample between two slots -/

/-- The sample and the register file after the low cut and the peak slot. -/
def chainPeak (rf : RegFile) (c : Chain) (x : F) : F × RegFile :=
  bqStep (cascStep rf c .low x).2 c .pk (cascStep rf c .low x).1

theorem chainStep_eq (rf : RegFile) (c : Chain) (x : F) :
    chainStep rf c x = cascStep (chainPeak rf c x).2 c .high (chainPeak rf c x).1 := rfl

/-- The sample after the first `n` slots of the chain in signal order. -/
def chainValue (rf : RegFile) (c : Chain) (x : F) (n : Nat) : F :=
  if n ≤ 4 then (cascAfter rf c .low x n).1
  else (cascAfter (chainPeak rf c x).2 c .high (chainPeak rf c x).1 (n - 5)).1

theorem chainValue_low (rf : RegFile) (c : Chain) (x : F) {n : Nat} (h : n ≤ 4) :
    chainValue rf c x n = (cascAfter rf c .low x n).1 := if_pos h

theorem chainValue_high (rf : RegFile) (c : Chain) (x : F) (n : Nat) :
    chainValue rf c x (5 + n) =
      (cascAfter (chainPeak rf c x).2 c .high (chainPeak rf c x).1 n).1 := by
  rw [chainValue, if_neg (by omega), Nat.add_sub_cancel_left]

/-! ### What each part of the chain leaves alone -/

theorem slotOf_low_ne_high (i i' : Fin 4) : slotOf .low i ≠ slotOf .high i' := fun e =>
  absurd (slotOf_injective e).1 nofun

theorem cascStep_slot_outside (rf : RegFile) (c : Chain) {side : Side} {k : SlotId} (x : F)
    (h : ∀ i, k ≠ slotOf side i) : SameSlot c k rf (cascStep rf c side x).2 :=
  cascStep_slot_other rf x fun i _ e => absurd e (h i)

/-- The peak slot and the high cut leave the low cut's slots. -/
theorem chainStep_after_low (rf : RegFile) (c : Chain) (x : F) (i : Fin 4) :
    SameSlot c (slotOf .low i) (cascStep rf c .low x).2 (chainStep rf c x).2 := by
  have peak : SameSlot c (slotOf .low i) (cascStep rf c .low x).2 (chainPeak rf c x).2 :=
    bqStep_slot_ne _ _ fun e => slotOf_ne_pk _ _ e.2
  rw [chainStep_eq]
  exact peak.trans (cascStep_slot_outside _ c _ (slotOf_low_ne_high i))

/-- The low cut and the peak slot leave the high cut's slots. -/
theorem chainPeak_before_high (rf : RegFile) (c : Chain) (x : F) (i : Fin 4) :
    SameSlot c (slotOf .high i) rf (chainPeak rf c x).2 := by
  have low := cascStep_slot_outside rf c x fun i' => (slotOf_low_ne_high i' i).symm
  exact low.trans (bqStep_slot_ne _ _ fun e => slotOf_ne_pk _ _ e.2)

/-! ### The nine turns (R107) -/

/-- The peak slot's flag is hard-wired to 1 (R23). -/
theorem active_pk (rf : RegFile) (c : Chain) : rf.active c .pk = true := rfl

theorem pk_or_active_iff (rf : RegFile) (c : Chain) (k : SlotId) :
    k = .pk ∨ rf.active c k = true ↔ rf.active c k = true :=
  or_iff_right_of_imp fun e => e ▸ active_pk rf c

theorem bqStep_slotTurn_pk (rf : RegFile) (c : Chain) (x : F) :
    SlotTurn c .pk x (bqStep rf c .pk x).1 rf (bqStep rf c .pk x).2 :=
  (if_pos (active_pk rf c)).mpr ⟨rfl, bqStep_w1 _ _ _ _, bqStep_w2 _ _ _ _⟩

theorem chainStep_turn_low (rf : RegFile) (c : Chain) (x : F) (i : Fin 4) :
    SlotTurn c (slotOf .low i) (chainValue rf c x i.val) (chainValue rf c x (i.val + 1)) rf
      (chainStep rf c x).2 := by
  rw [chainValue_low rf c x (by omega), chainValue_low rf c x (by omega)]
  exact (cascStep_slotTurn rf c .low x i).then_same (chainStep_after_low rf c x i)

theorem chainStep_turn_pk (rf : RegFile) (c : Chain) (x : F) :
    SlotTurn c .pk (chainValue rf c x 4) (chainValue rf c x 5) rf (chainStep rf c x).2 := by
  have before := cascStep_slot_outside rf c x fun i => (slotOf_ne_pk .low i).symm
  have turn := (bqStep_slotTurn_pk _ c (cascStep rf c .low x).1).of_same_before before
  rw [chainValue_low rf c x le_rfl, chainValue_high rf c x 0, chainStep_eq]
  exact turn.then_same (cascStep_slot_outside _ c _ fun i => (slotOf_ne_pk .high i).symm)

theorem chainStep_turn_high (rf : RegFile) (c : Chain) (x : F) (i : Fin 4) :
    SlotTurn c (slotOf .high i) (chainValue rf c x (5 + i.val)) (chainValue rf c x (5 + i.val + 1))
      rf (chainStep rf c x).2 := by
  rw [Nat.add_assoc, chainValue_high, chainValue_high]
  exact (cascStep_slotTurn _ c .high _ i).of_same_before (chainPeak_before_high rf c x i)

/-- The signal order of R18: four low cut slots, the peak slot, four high cut slots. -/
theorem allSlots_at (n : Fin 9) :
    (∃ i : Fin 4, n.val = i.val ∧ allSlots[n.val]? = some (slotOf .low i)) ∨
      (n.val = 4 ∧ allSlots[n.val]? = some .pk) ∨
      ∃ i : Fin 4, n.val = 5 + i.val ∧ allSlots[n.val]? = some (slotOf .high i) := by
  revert n; decide

/-- Slot `n` in signal order answers with value `n + 1` to value `n`, from its registers before the
operation. -/
theorem chainStep_slotTurn (rf : RegFile) (c : Chain) (x : F) (n : Fin 9) {k : SlotId}
    (h : allSlots[n.val]? = some k) :
    SlotTurn c k (chainValue rf c x n.val) (chainValue rf c x (n.val + 1)) rf
      (chainStep rf c x).2 := by
  rcases allSlots_at n with ⟨i, place, slot⟩ | ⟨place, slot⟩ | ⟨i, place, slot⟩ <;>
    cases slot.symm.trans h <;> rw [place]
  · exact chainStep_turn_low rf c x i
  · exact chainStep_turn_pk rf c x
  · exact chainStep_turn_high rf c x i

end Sys2Proof.Machine

namespace Sys2Proof.Proofs

open Machine

/-- Settles O22: `BQ_LOAD` of the peak slot. -/
theorem configurePeak : Obligations.ConfigurePeak := by
  intro s hs
  refine ⟨_, exec_cfgPeak hs, fun j hj => ?_, bqLoad_delays _ _ _ _, fun c k => bqLoad_flag _ _ _ _ _ _,
    fun c k other => bqLoad_slot_ne _ _ other, rfl, onlyRegFile_setRf _ _⟩
  exact (bqLoad_read_same _ _ _ _ j).trans (if_neg (by simp [hj]))

/-- Settles O23: the ten values are the sample after none, one, ... nine slots. -/
theorem chainStepNineSlots : Obligations.ChainStepNineSlots := fun s hs =>
  ⟨_, exec_chainStep hs,
    ⟨fun n => chainValue s.rf s.uop.c s.uop.x n.val, rfl, rfl, fun n k slot =>
      (if_congr (pk_or_active_iff s.rf s.uop.c k) rfl rfl).mpr
        (chainStep_slotTurn s.rf s.uop.c s.uop.x n slot)⟩,
    chainStep_config _ _ _, fun _ _ other => chainStep_other_chain _ _ _ other,
    onlyRegFile_setRf_setUop _ _ _⟩

end Sys2Proof.Proofs
end

section
/-! PROOF. Every command terminates (R114, R173): a count of the positions a command has before it, which
every step lowers by one until the core is idle or halted. -/

namespace Sys2Proof.Machine

/-! ### The positions a command has before it -/

/-- The samples of a channel that a command has. -/
def blockLength : Cmd → Nat
  | .prepare _ => 0
  | .process _ len => len.toNat

/-- The positions of R25 from `ph` to the end of the command, `ph` among them, when no fault is raised:
`CHECK`, seven reads, `PCHECK`, `COMMIT`, and the samples of both channels. -/
def positionsFrom (cmd : Cmd) : Phase → Nat
  | .check => 10 + 2 * blockLength cmd
  | .snap j => 9 - paramNumber j + 2 * blockLength cmd
  | .pcheck => 2 + 2 * blockLength cmd
  | .commit => 1 + 2 * blockLength cmd
  | .proc .left n => 2 * blockLength cmd - n.toNat
  | .proc .right n => blockLength cmd - n.toNat

/-- The positions left to a core; an idle or halted one has none. -/
def positionsLeft : Seq → Nat
  | .idle => 0
  | .halt => 0
  | .run cmd ph => positionsFrom cmd ph

/-- A command at a position of the schedule has that position left. -/
theorem positionsFrom_pos {cmd : Cmd} {ph : Phase} (h : PositionExists (.run cmd ph)) :
    0 < positionsFrom cmd ph := by
  cases ph with
  | check => exact Nat.lt_of_lt_of_le (by decide) (Nat.le_add_right _ _)
  | snap j =>
    have := paramNumber_lt j
    simp only [positionsFrom]
    omega
  | pcheck => exact Nat.lt_of_lt_of_le (by decide) (Nat.le_add_right _ _)
  | commit => exact Nat.lt_of_lt_of_le (by decide) (Nat.le_add_right _ _)
  | proc c n =>
    cases cmd with
    | prepare m => exact h.elim
    | process nch len =>
      have hn : n.toNat < len.toNat := h.2
      cases c <;> simp only [positionsFrom, blockLength] <;> omega

/-- The next position is one less. -/
theorem positionsLeft_next {cmd : Cmd} {ph : Phase} (h : PositionExists (.run cmd ph)) :
    positionsLeft (nextPosition cmd ph) + 1 = positionsFrom cmd ph := by
  cases ph with
  | check => simp only [nextPosition, positionsLeft, positionsFrom, paramNumber]; omega
  | snap j => cases j <;> simp only [nextPosition, positionsLeft, positionsFrom, paramNumber] <;> omega
  | pcheck => simp only [nextPosition, positionsLeft, positionsFrom]; omega
  | commit =>
    cases cmd with
    | prepare m => rfl
    | process nch len =>
      by_cases h0 : len = 0
      · subst h0; rfl
      · simp only [nextPosition, if_neg h0, positionsLeft, positionsFrom]
        exact Nat.add_comm _ _
  | proc c n =>
    cases cmd with
    | prepare m => exact h.elim
    | process nch len =>
      have hn : n.toNat < len.toNat := h.2
      by_cases more : n.toNat + 1 < len.toNat
      · have : (n + 1).toNat = n.toNat + 1 := by bv_omega
        rw [nextPosition_sample c more]
        cases c <;> simp only [positionsLeft, positionsFrom, blockLength] <;> omega
      · rw [nextPosition_last c (by omega)]
        have first : (0 : BitVec 16).toNat = 0 := rfl
        cases c <;> simp only [afterChannel, positionsLeft, positionsFrom, blockLength] <;> omega

/-! ### A command left to itself -/

/-- A command in flight goes to its next position, or to `HALT`. -/
theorem exec_command_next {s : State} {cmd : Cmd} {ph : Phase} (hs : s.seq = .run cmd ph)
    (h : PositionExists (.run cmd ph)) :
    ∃ t, exec (cmdInstr cmd) s = .next t ∧ (t.seq = .halt ∨ t.seq = nextPosition cmd ph) := by
  by_cases hc : ph = .check
  · subst hc
    obtain ⟨t, e, ht⟩ := exec_check hs
    exact ⟨t, e, ht.imp_right And.left⟩
  · obtain ⟨t, e, ht⟩ := exec_past_check hs h hc
    exact ⟨t, e, ht.symm.imp_left And.left⟩

/-- A core at a position of the schedule that no other agent disturbs: nothing is listed and no `C:` line
is in flight. -/
structure LeftToItself (s : State) : Prop where
  listing : s.listing = []
  micro : s.micro = none
  position : PositionExists s.seq

/-- A command left to itself takes a step, stays left to itself, and has fewer positions left. -/
theorem LeftToItself.step_command {s : State} (h : LeftToItself s) {cmd : Cmd} {ph : Phase}
    (hs : s.seq = .run cmd ph) :
    ∃ t, step s = .next t ∧ LeftToItself t ∧ positionsLeft t.seq < positionsLeft s.seq := by
  have here : PositionExists (.run cmd ph) := hs ▸ h.position
  obtain ⟨t, e, ht⟩ := exec_command_next hs here
  have effect := exec_effect (isMicro_cmdInstr cmd) e
  obtain ⟨t', e', there⟩ := exec_command_position hs h.position
  cases e.symm.trans e'
  refine ⟨t, (Machine.step_command h.listing hs).trans e,
    ⟨effect.listing.trans h.listing, ?_, there⟩, ?_⟩
  · rcases effect.position.2 with same | ⟨_, dead⟩
    · exact same.trans h.micro
    · exact dead
  · have left : positionsLeft s.seq = positionsFrom cmd ph := congrArg positionsLeft hs
    rw [left]
    rcases ht with halt | next
    · rw [halt]; exact positionsFrom_pos here
    · rw [next]; exact Nat.lt_of_succ_le (positionsLeft_next here).le

/-- Left to itself, the core is at rest after as many steps as it has positions left, and stays so. -/
theorem run_to_rest {s : State} {k : Nat} (h : LeftToItself s) (hk : positionsLeft s.seq ≤ k) :
    ∃ t : State, Host.Core.run Sys2Proof.core k s = .next t ∧ (t.seq = .idle ∨ t.seq = .halt) := by
  induction k generalizing s with
  | zero =>
    refine ⟨s, rfl, ?_⟩
    cases hs : s.seq with
    | idle => exact .inl rfl
    | halt => exact .inr rfl
    | run cmd ph =>
      rw [hs] at hk
      exact absurd (positionsFrom_pos (hs ▸ h.position)) (Nat.not_lt.2 hk)
  | succ k ih =>
    cases hs : s.seq with
    | idle => exact ⟨s, run_rest h.listing (.inr ⟨hs, h.micro⟩) _, .inl hs⟩
    | halt => exact ⟨s, run_rest h.listing (.inl hs) _, .inr hs⟩
    | run cmd ph =>
      obtain ⟨u, taken, hu, fewer⟩ := h.step_command hs
      obtain ⟨t, run, rest⟩ := ih hu (by omega)
      exact ⟨t, (run_succ taken).trans run, rest⟩

theorem positionExists_check (cmd : Cmd) : PositionExists (.run cmd .check) := by
  cases cmd <;> trivial

end Sys2Proof.Machine

namespace Sys2Proof.Proofs

open Machine

/-- Settles O59: at `CHECK` the positions left are the ten of the update and the samples. -/
theorem commandsTerminate : Obligations.CommandsTerminate := by
  intro s cmd hs hl hm
  have alone : LeftToItself s := ⟨hl, hm, hs ▸ positionExists_check cmd⟩
  have left : positionsLeft s.seq = 10 + 2 * blockLength cmd := congrArg positionsLeft hs
  cases cmd with
  | prepare m => exact run_to_rest alone left.le
  | process nch len => exact run_to_rest alone left.le

end Sys2Proof.Proofs
end

section
/-! PROOF. The update orchestrator (file 44): slope values (R117), the outcomes of `PCHECK` (R118), the
steps of `UPDATE` (R115), and `UPD_APPLY` with what it leaves and what it depends on (R119, R121, R122). -/

namespace Sys2Proof.Machine

/-! ### Slope values (R117) -/

/-- A value is one of the five patterns that have a slope index, or has none. -/
theorem slope_cases (v : F) :
    (v = 0x00000000#32 ∨ v = 0x80000000#32 ∨ v = 0x3F800000#32 ∨ v = 0x40000000#32 ∨
        v = 0x40400000#32) ∨ slopeIndex v = none := by
  cases h : slopeIndex v with
  | none => exact .inr rfl
  | some idx => exact .inl (slope_of_index (by rw [h]; rfl))

/-- The five patterns have an index. -/
theorem ne_slopes_of_slopeIndex_none {v : F} (h : slopeIndex v = none) :
    v ≠ 0x00000000#32 ∧ v ≠ 0x80000000#32 ∧ v ≠ 0x3F800000#32 ∧ v ≠ 0x40000000#32 ∧
      v ≠ 0x40400000#32 := by
  refine ⟨?_, ?_, ?_, ?_, ?_⟩ <;> rintro rfl <;> exact absurd h (by decide)

/-! ### The tests of `PCHECK` (R118) -/

/-- The `PARAM` tests pass on the snapshots of legal values alone. -/
theorem allLegal_of_tests {p : Params} (present : anyNovalue p = false)
    (range : paramsInRange p = true) : AllLegal p := fun j => by
  obtain ⟨v, hv⟩ := anyNovalue_eq_false present j
  have legal := (paramsInRange_iff p).1 range j
  rw [Params.value_eq_of_get hv] at legal
  exact ⟨v, hv, legalParam_of_legalValue legal⟩

/-- The Nyquist tests, where they pass, say that the three frequencies are below half the rate. -/
theorem belowHalf_of_belowNyquist {p : Params} {sr : F} (h : belowNyquist p sr = true) :
    BelowHalf p sr := by
  simp only [belowNyquist, Bool.and_eq_true] at h
  obtain ⟨⟨low, high⟩, peak⟩ := h
  intro j v hj hv
  rw [← Params.value_eq_of_get hv]
  rcases hj with rfl | rfl | rfl <;> assumption

/-- A `novalue` or an illegal value raises `PARAM`, whatever the Nyquist tests would say. -/
theorem checkParams_of_illegal {p : Params} (sr : F) (h : ¬AllLegal p) :
    checkParams p sr = some .param := by
  rcases checkParams_cases p sr with ⟨_, hn, hr, _⟩ | ⟨e, _⟩ | ⟨_, hn, hr, _⟩
  · exact absurd (allLegal_of_tests hn hr) h
  · exact e
  · exact absurd (allLegal_of_tests hn hr) h

/-- Legal values with a frequency at or above half the rate raise `NYQ`. -/
theorem checkParams_of_above {p : Params} {sr : F} (legal : AllLegal p) (above : ¬BelowHalf p sr) :
    checkParams p sr = some .nyq := by
  rcases checkParams_cases p sr with ⟨_, _, _, hb⟩ | ⟨e, _⟩ | ⟨e, _⟩
  · exact absurd (belowHalf_of_belowNyquist hb) above
  · refine absurd e (checkParams_ne_param (fun j v hv => ?_) fun j hj => ?_)
    · obtain ⟨w, hw, hl⟩ := legal j
      exact Option.some.inj (hw.symm.trans hv) ▸ hl
    · obtain ⟨w, hw, _⟩ := legal j
      exact absurd (hw.symm.trans hj) nofun
  · exact e

theorem pcheckStep_raises {s : State} {sr : F} {f : FaultCode} (pass : State)
    (h : checkParams s.stg.snap sr = some f) : pcheckStep sr s pass = raise f s := by
  simp only [pcheckStep, h]

/-- The three outcomes of a step that is the check of the snapshot (R118): it goes on, raises `PARAM`, or
then `NYQ`. -/
theorem pcheck_outcomes {r : Result} {s pass : State} {sr : F}
    (h : r = .next (pcheckStep sr s pass)) :
    (AllLegal s.stg.snap → BelowHalf s.stg.snap sr → r = .next pass) ∧
      (¬AllLegal s.stg.snap → ∃ t, r = .next t ∧ FaultEntry .param s t) ∧
      (AllLegal s.stg.snap → ¬BelowHalf s.stg.snap sr →
        ∃ t, r = .next t ∧ FaultEntry .nyq s t) := by
  refine ⟨fun legal below => ?_, fun illegal => ?_, fun legal above => ?_⟩
  · rw [h, pcheckStep, checkParams_of_legal legal below]
  · rw [h, pcheckStep_raises pass (checkParams_of_illegal sr illegal)]
    exact ⟨_, rfl, faultEntry_raise .param s⟩
  · rw [h, pcheckStep_raises pass (checkParams_of_above legal above)]
    exact ⟨_, rfl, faultEntry_raise .nyq s⟩

/-! ### The micro-operations of the update -/

theorem exec_pcheck {s : State} (hs : s.seq ≠ .halt) :
    exec .pcheck s = .next (pcheckStep s.uop.sr s s) := coreDoes_running _ hs

theorem exec_updApply {s : State} (hs : s.seq ≠ .halt) :
    exec .updApply s = .next (applyUpdate s.uop.sr s) := coreDoes_running _ hs

/-- An `UPDATE` at a position, or at its start, takes that position's step (R115; log 5). -/
theorem exec_update_at {s : State} {ph : UpdPhase} (hs : s.seq ≠ .halt)
    (hp : s.micro = some (.update ph) ∨ s.micro = none ∧ ph = .snap .lowCutFreq) :
    exec .update s = .next (updateAt ph s) := by
  have start : updateStart s = ph := by
    rcases hp with h | ⟨h, rfl⟩ <;> simp only [updateStart, h]
  simp only [exec, execUpdate, start, coreDoes_running _ hs]

/-- A command at `SNAP(j)` copies that cell and stands at the next phase (R116). -/
theorem exec_cmd_read {s : State} {cmd : Cmd} {j : ParamId} (hs : s.seq = .run cmd (.snap j)) :
    exec (cmdInstr cmd) s =
      .next (withSnapshot s cmd (s.stg.snap.put j (s.par.get j)) (phaseAfterSnap j)) :=
  (coreTurn_of_run hs).symm.trans (coreTurn_read hs)

/-! ### `UPD_APPLY` made twice, and on two register files (R122) -/

/-- The flags of the cut slots after an update: a function of the design alone. -/
theorem loadDesign_flag_cut (d : Design) (rf : RegFile) (c : Chain) (side : Side) (i : Fin 4) :
    (loadDesign d rf).flag c (slotOf side i) =
      some (decide (i.val ≤ (d.index side).toNat)) := by
  obtain ⟨on, off⟩ := loadDesign_cut d rf c side i
  rcases Nat.lt_or_ge (d.index side).toNat i.val with hi | hi
  · rw [(off hi).1, decide_eq_false (Nat.not_le.2 hi)]
  · rw [(on hi).1, decide_eq_true hi]

theorem loadDesign_flag_congr (d : Design) (rf rf' : RegFile) (c : Chain) (k : SlotId) :
    (loadDesign d rf).flag c k = (loadDesign d rf').flag c k := by
  rcases slotId_cases k with rfl | ⟨side, i, rfl⟩
  · rw [RegFile.flag_pk, RegFile.flag_pk]
  · rw [loadDesign_flag_cut, loadDesign_flag_cut]

/-- The coefficients of a slot that an update leaves active come from the design alone. -/
theorem loadDesign_read_congr {d : Design} {rf : RegFile} (rf' : RegFile) {c : Chain} {k : SlotId}
    {j : Reg} (active : (loadDesign d rf).flag c k = some true) (hj : isDelay j = false) :
    (loadDesign d rf).read c k j = (loadDesign d rf').read c k j := by
  rcases slotId_cases k with rfl | ⟨side, i, rfl⟩
  · rw [loadDesign_peak d rf c j hj, loadDesign_peak d rf' c j hj]
  · rw [loadDesign_flag_cut] at active
    have hi := of_decide_eq_true (Option.some.inj active)
    rw [((loadDesign_cut d rf c side i).1 hi).2 j hj, ((loadDesign_cut d rf' c side i).1 hi).2 j hj]

/-- An update made again at the same rate changes nothing: register file and staging are its own. -/
theorem applyUpdate_again (sr : F) (s : State) :
    applyUpdate sr (applyUpdate sr s) = applyUpdate sr s := by
  have regs : loadDesign (designOf numFns s.stg.snap sr) (applyUpdate sr s).rf =
      (applyUpdate sr s).rf := loadDesign_again (.refl _)
  calc applyUpdate sr (applyUpdate sr s)
      = (applyUpdate sr s).setRf
          (loadDesign (designOf numFns s.stg.snap sr) (applyUpdate sr s).rf) := rfl
    _ = applyUpdate sr s := by rw [regs]; rfl

/-! ### Delay lines (R121) -/

/-- A micro-operation writes no delay line if its effect writes none. -/
theorem coreDoes_delays {s u t : State} (h : coreDoes s u = .next t)
    (hu : SameDelayLines s.rf u.rf) : SameDelayLines s.rf t.rf := by
  rcases coreDoes_cases h with ⟨_, rfl⟩ | ⟨_, rfl⟩
  · exact .refl _
  · exact hu

theorem pcheckStep_delays (sr : F) {s pass : State} (h : SameDelayLines s.rf pass.rf) :
    SameDelayLines s.rf (pcheckStep sr s pass).rf := by
  rcases pcheckStep_cases sr s pass with ⟨_, e⟩ | ⟨f, _, e⟩ <;> rw [e]
  · exact h
  · exact .refl _

theorem applyUpdate_delays (sr : F) (s : State) : SameDelayLines s.rf (applyUpdate sr s).rf :=
  loadDesign_delays _ s.rf

theorem updateAt_delays (ph : UpdPhase) (s : State) : SameDelayLines s.rf (updateAt ph s).rf := by
  cases ph with
  | snap j => exact .refl _
  | pcheck => exact pcheckStep_delays _ (.refl _)
  | commit => exact applyUpdate_delays _ s

end Sys2Proof.Machine

namespace Sys2Proof.Proofs

open Machine

/-- Settles O28: each of the five patterns is evaluated, and every other pattern has no index. -/
theorem slopeDecoding : Obligations.SlopeDecoding := by
  intro v
  rcases slope_cases v with pattern | noIndex
  · rcases pattern with rfl | rfl | rfl | rfl | rfl <;> decide
  · obtain ⟨h0, h0', h1, h2, h3⟩ := ne_slopes_of_slopeIndex_none noIndex
    simp [noIndex, h0, h0', h1, h2, h3]

/-- Settles O29. -/
theorem parameterCheck : Obligations.ParameterCheck := fun _ hs => pcheck_outcomes (exec_pcheck hs)

/-- Settles O30. -/
theorem updateSteps : Obligations.UpdateSteps := by
  intro s hs
  refine ⟨fun j hp => ?_, fun hp => pcheck_outcomes (exec_update_at hs (.inl hp)), fun hp _ => ?_⟩
  · refine ⟨_, exec_update_at (ph := .snap j) hs ?_, fun i => Params.get_put s.stg.snap i j _, rfl,
      rfl, rfl, rfl, rfl, ⟨rfl, rfl, rfl, rfl, rfl⟩, ⟨rfl, rfl, rfl⟩, fun _ => rfl⟩
    exact hp.imp_right fun ⟨start, first⟩ => ⟨start, congrArg UpdPhase.snap first⟩
  · exact ⟨_, exec_update_at hs (.inl hp), configuredBy_loadDesign _ _ _, rfl, rfl, rfl, rfl,
      ⟨rfl, rfl, rfl, rfl, rfl⟩, ⟨rfl, rfl, rfl⟩, fun _ => rfl⟩

/-- Settles O31. -/
theorem updateApply : Obligations.UpdateApply := fun _ hs _ =>
  ⟨_, exec_updApply hs, configuredBy_loadDesign _ _ _, rfl, rfl, rfl, rfl,
    ⟨rfl, rfl, rfl, rfl, rfl⟩, ⟨rfl, rfl, rfl⟩, fun _ => rfl⟩

/-- Settles O32: both parts go by the design, which snapshot and rate determine. -/
theorem updateIdempotent : Obligations.UpdateIdempotent := by
  refine ⟨fun s t hs h => ?_, fun s s' t t' hs hs' snap rate h h' c k => ?_⟩
  · cases (exec_updApply hs).symm.trans h
    exact (exec_updApply (s := applyUpdate s.uop.sr s) hs).trans
      (congrArg Host.Outcome.next (applyUpdate_again s.uop.sr s))
  · cases (exec_updApply hs).symm.trans h
    cases (exec_updApply hs').symm.trans h'
    rw [applyUpdate_rf, applyUpdate_rf, ← snap, ← rate]
    exact ⟨loadDesign_flag_congr _ _ _ c k, fun active j hj => loadDesign_read_congr _ active hj⟩

/-- Settles O33. -/
theorem updateWritesNoDelayLine : Obligations.UpdateWritesNoDelayLine := by
  intro i s t hi h
  simp only [List.mem_cons, List.not_mem_nil, or_false] at hi
  rcases hi with rfl | rfl | rfl | rfl | rfl | rfl | rfl
  · exact coreDoes_delays h (.refl _)
  · exact coreDoes_delays h (pcheckStep_delays _ (.refl _))
  · exact coreDoes_delays h (applyUpdate_delays _ s)
  · exact coreDoes_delays h (bqLoad_delays _ _ _ _)
  · exact coreDoes_delays h (cfgCut_delays _ _ _ _ _)
  · exact coreDoes_delays h (bqLoad_delays _ _ _ _)
  · exact coreDoes_delays h (updateAt_delays _ s)

/-- Settles O35. -/
theorem commandSnapAndCheck : Obligations.CommandSnapAndCheck := by
  refine fun s cmd => ⟨fun j hs => ?_, fun hs => ?_⟩
  · exact ⟨_, exec_cmd_read hs, phaseAfterSnap_next cmd j,
      fun i => Params.get_put s.stg.snap i j _, rfl, rfl, rfl, rfl, ⟨rfl, rfl, rfl, rfl, rfl⟩,
      ⟨rfl, rfl, rfl⟩, fun _ => rfl⟩
  · cases cmd with
    | prepare m => exact pcheck_outcomes (exec_prepare_at hs)
    | process nch len => exact pcheck_outcomes (exec_process_at hs)

end Sys2Proof.Proofs
end

section
/-! PROOF. The driver's `PROCESS` at its two ends, the tests of `CHECK` (R127, R137, R138, R139) and the
update of `COMMIT` (R129); and the parameter write (R132). -/

namespace Sys2Proof.Machine

/-! ### The tests of `PROCESS`'s `CHECK`, in the order of R143 -/

/-- An idle core accepts the word of a `PROCESS`, as a step of its own (R31; log 1). -/
theorem exec_process_idle {s : State} (nch : BitVec 8) (len : BitVec 16) (hs : s.seq = .idle) :
    exec (.process nch len) s = .next (acceptCommand (.process nch len) s) := by
  simp only [exec, execProcess, hs]

theorem exec_process_check {s : State} {nch : BitVec 8} {len : BitVec 16}
    (hs : s.seq = .run (.process nch len) .check) :
    exec (.process nch len) s = .next (processCheck nch len s) := exec_process_at hs

/-- `PREP` is tested before any operand. -/
theorem processCheck_notprep {s : State} (nch : BitVec 8) (len : BitVec 16) (hp : s.prep = false) :
    processCheck nch len s = raise .notprep s := if_pos hp

theorem processCheck_nch {s : State} {nch : BitVec 8} (len : BitVec 16) (hp : s.prep = true)
    (few : nch < 2) : processCheck nch len s = raise .nch s := by
  rw [processCheck, if_neg (by simp [hp]), if_pos few]

theorem processCheck_len {s : State} {nch : BitVec 8} {len : BitVec 16} (hp : s.prep = true)
    (h2 : 2 ≤ nch) (long : s.maxblk < len) : processCheck nch len s = raise .len s := by
  rw [processCheck, if_neg (by simp [hp]), if_neg (BitVec.not_lt.2 h2), if_pos long]

/-- A fault raised at `CHECK` is an entry of that fault (R144). -/
theorem faultEntry_of_processCheck {s : State} {nch : BitVec 8} {len : BitVec 16} {f : FaultCode}
    (hs : s.seq = .run (.process nch len) .check) (h : processCheck nch len s = raise f s) :
    ∃ t, exec (.process nch len) s = .next t ∧ FaultEntry f s t :=
  ⟨_, (exec_process_check hs).trans (congrArg Host.Outcome.next h), faultEntry_raise f s⟩

/-! ### The parameter write (R132) -/

/-- The indices of the parameter port number the parameters in the order of R32. -/
theorem paramOfIndex_eq_getElem? (idx : BitVec 3) :
    paramOfIndex idx =
      [ParamId.lowCutFreq, .highCutFreq, .peakFreq, .peakGainDb, .peakQuality, .lowCutSlope,
        .highCutSlope][idx.toNat]? := by
  revert idx
  decide

theorem exec_pwrite_param {idx : BitVec 3} {j : ParamId} (v : F) (s : State)
    (h : paramOfIndex idx = some j) :
    exec (.pwrite idx v) s = .next (s.setPar (s.par.put j (some v))) := by
  simp only [exec, execPwrite, h]

theorem exec_pwrite_unused {idx : BitVec 3} (v : F) (s : State) (h : paramOfIndex idx = none) :
    exec (.pwrite idx v) s = .next s := by
  simp only [exec, execPwrite, h]

end Sys2Proof.Machine

namespace Sys2Proof.Proofs

open Machine

/-- Settles O38, test by test. -/
theorem processCheck : Obligations.ProcessCheck := by
  refine fun s nch len => ⟨exec_process_idle nch len, fun hs => ⟨fun unprepared => ?_,
    fun prep few => ?_, fun prep enough long => ?_, fun prep enough fits => ?_⟩⟩
  · exact faultEntry_of_processCheck hs (processCheck_notprep nch len unprepared)
  · exact faultEntry_of_processCheck hs (processCheck_nch len prep (BitVec.lt_def.2 few))
  · exact faultEntry_of_processCheck hs
      (processCheck_len prep (BitVec.le_def.2 enough) (BitVec.lt_def.2 long))
  · exact (exec_process_check hs).trans (congrArg Host.Outcome.next
      (processCheck_pass prep (BitVec.le_def.2 enough) (BitVec.le_def.2 fits)))

/-- Settles O39: the commit is the update, and R25's next position. -/
theorem processCommit : Obligations.ProcessCommit := by
  intro s nch len hs _
  obtain ⟨g, commit⟩ := processCommit_next nch len s
  exact ⟨_, (exec_process_at hs).trans (congrArg Host.Outcome.next commit), rfl,
    configuredBy_loadDesign _ _ _, rfl, rfl, ⟨rfl, rfl, rfl, rfl, rfl⟩, ⟨rfl, rfl, rfl⟩, fun _ => rfl⟩

/-- Settles O46. -/
theorem parameterWrite : Obligations.ParameterWrite := by
  refine fun s idx v => ⟨?_, ?_⟩
  · rintro n j hj rfl
    exact ⟨_, exec_pwrite_param v s ((paramOfIndex_eq_getElem? idx).trans hj), rfl,
      fun i => Params.get_put s.par i j (some v)⟩
  · rintro rfl
    exact exec_pwrite_unused v s rfl

end Sys2Proof.Proofs
end

section
/-! PROOF. The faults (file 60): what fault entry makes of `STATUS` (R135, R144), what a halted core does
with each row of the table (R145), and the state a command that faults leaves (R146). -/

namespace Sys2Proof.Machine

/-! ### `STATUS` after fault entry (R27, R144) -/

theorem haltedBit_raise (f : FaultCode) (s : State) : haltedBit (raise f s) = 1#1 :=
  if_neg fun clear => faultBit_ne_zero f (BitVec.or_eq_zero_iff.1 clear).2

/-- The bits of `STATUS` that fault entry sets, field by field (R27). -/
theorem faultStatus_fields (f : FaultCode) :
    2#32 ||| (1#32 <<< (7 + faultCode f)) = 0#17 ++ faultBit f ++ 0#6 ++ 1#1 ++ 0#1 := by
  cases f <;> decide

/-- A fault bit and `HALTED` put into the fields of `STATUS`. -/
theorem or_statusFields (fault bit : BitVec 7) (halted prep : BitVec 1) :
    0#17 ++ fault ++ 0#6 ++ halted ++ prep ||| 0#17 ++ bit ++ 0#6 ++ 1#1 ++ 0#1 =
      0#17 ++ (fault ||| bit) ++ 0#6 ++ 1#1 ++ prep := by
  have isHalted : halted ||| 1#1 = 1#1 := BitVec.or_allOnes
  simp only [BitVec.or_append, isHalted, BitVec.or_zero]

theorem statusWord_raise (f : FaultCode) (s : State) :
    statusWord (raise f s) = statusWord s ||| 2#32 ||| (1#32 <<< (7 + faultCode f)) := by
  rw [BitVec.or_assoc, faultStatus_fields, statusWord, haltedBit_raise]
  exact (or_statusFields s.fault (faultBit f) (haltedBit s) (BitVec.ofBool s.prep)).symm

/-! ### A halted core (R145) -/

/-- The core takes no step of a micro-operation in `HALT` (log 5). -/
theorem exec_micro_halted {i : Instr} {s : State} (hi : isMicro i = true) (hs : s.seq = .halt) :
    exec i s = .next s := by
  cases i with
  | chainProc => exact if_pos (.inl hs)
  | prepare m => cases hi
  | process nch len => cases hi
  | wrreg addr data => cases hi
  | rdreg addr => cases hi
  | pwrite idx val => cases hi
  | _ => exact coreDoes_halted _ hs

theorem exec_command_halted {s : State} (cmd : Cmd) (hs : s.seq = .halt) :
    exec (cmdInstr cmd) s = .next s := by
  cases cmd <;> simp only [cmdInstr, exec, execPrepare, execProcess, hs]

theorem not_running_of_halted {s : State} (hs : s.seq = .halt) (cmd : Cmd) (ph : Phase) :
    s.seq ≠ .run cmd ph := by
  simp [hs]

theorem exec_pwrite_stores (idx : BitVec 3) (v : F) (s : State) :
    ∃ p, exec (.pwrite idx v) s = .next (s.setPar p) := by
  cases h : paramOfIndex idx with
  | some j => exact ⟨_, exec_pwrite_param v s h⟩
  | none => exact ⟨s.par, exec_pwrite_unused v s h⟩

/-- All an instruction can do in `HALT`: nothing, or the one register change of a write to `ARG_SR`, of a
host read or of a parameter write. -/
theorem exec_halted_cases (i : Instr) {s : State} (hs : s.seq = .halt) :
    ((∀ d, i ≠ .wrreg 2 d) ∧ exec i s = .next s) ∨
      (∃ d, i = .wrreg 2 d ∧ exec i s = .next (s.setArgSr d)) ∨
      (∃ addr v, i = .rdreg addr ∧ exec i s = .next (s.setHostData v)) ∨
      ∃ idx v p, i = .pwrite idx v ∧ exec i s = .next (s.setPar p) := by
  cases i with
  | prepare m => exact .inl ⟨nofun, exec_command_halted (.prepare m) hs⟩
  | process nch len => exact .inl ⟨nofun, exec_command_halted (.process nch len) hs⟩
  | wrreg addr data =>
    rw [exec_wrreg_at_rest addr data (not_running_of_halted hs)]
    rcases writeReg_cases addr data s with ⟨_, idle, _⟩ | ⟨rfl, e⟩ | ⟨h2, _, e⟩
    · cases hs.symm.trans idle
    · exact .inr (.inl ⟨data, rfl, congrArg _ e⟩)
    · exact .inl ⟨fun d same => h2 (Instr.wrreg.inj same).1, congrArg _ e⟩
  | rdreg addr =>
    exact .inr (.inr (.inl ⟨addr, _, rfl, exec_rdreg_at_rest addr (not_running_of_halted hs)⟩))
  | pwrite idx v =>
    obtain ⟨p, e⟩ := exec_pwrite_stores idx v s
    exact .inr (.inr (.inr ⟨idx, v, p, rfl, e⟩))
  | _ => exact .inl ⟨nofun, exec_micro_halted rfl hs⟩

/-! ### A command up to its tests, and past them (R25, R143) -/

/-- The positions at which a command only reads and tests. -/
def onlyTests : Phase → Bool
  | .check | .snap _ | .pcheck => true
  | .commit | .proc _ _ => false

/-- Where a core is once a command has committed: at a sample, or idle. -/
def pastCommit : Seq → Bool
  | .idle => true
  | .halt => false
  | .run _ ph =>
    match ph with
    | .proc _ _ => true
    | _ => false

theorem pastCommit_next {cmd : Cmd} {ph : Phase} (h : onlyTests ph = false) :
    pastCommit (nextPosition cmd ph) = true := by
  cases ph with
  | check => cases h
  | snap j => cases h
  | pcheck => cases h
  | commit =>
    cases cmd with
    | prepare m => rfl
    | process nch len => simp only [nextPosition]; split <;> rfl
  | proc c n =>
    cases cmd with
    | prepare m => rfl
    | process nch len => cases c <;> simp only [nextPosition] <;> split <;> rfl

theorem onlyTests_of_pastCommit {cmd : Cmd} {ph : Phase} (h : pastCommit (.run cmd ph) = true) :
    onlyTests ph = false := by
  cases ph with
  | proc c n => rfl
  | _ => cases h

/-- The check of the snapshot enters a fault, or changes the position only. -/
theorem pcheckStep_tests (sr : F) (s : State) (cmd : Cmd) :
    (∃ f, pcheckStep sr s (s.setSeq (.run cmd .commit)) = raise f s) ∨
      ∃ g ph, pcheckStep sr s (s.setSeq (.run cmd .commit)) = (s.setStg g).setSeq (.run cmd ph) := by
  rcases pcheckStep_cases sr s (s.setSeq (.run cmd .commit)) with ⟨_, e⟩ | ⟨f, _, e⟩
  · exact .inr ⟨s.stg, .commit, e⟩
  · exact .inl ⟨f, e⟩

/-- Up to `PCHECK` a step of a command enters a fault, or changes staging and position only (R146). -/
theorem exec_onlyTests {s t : State} {cmd : Cmd} {ph : Phase} (hs : s.seq = .run cmd ph)
    (tests : onlyTests ph = true) (h : exec (cmdInstr cmd) s = .next t) :
    (∃ f, t = raise f s) ∨ ∃ g ph', t = (s.setStg g).setSeq (.run cmd ph') := by
  rw [exec_cmdInstr hs] at h
  cases cmd with
  | prepare m =>
    cases ph with
    | check =>
      cases h
      rcases prepareCheck_cases m s with ⟨_, e⟩ | ⟨_, e⟩
      · exact .inr ⟨{ s.stg with rate := s.argSr }, _, e⟩
      · exact .inl ⟨_, e⟩
    | snap j => cases h; exact .inr ⟨_, _, rfl⟩
    | pcheck => cases h; exact pcheckStep_tests _ s _
    | commit => cases tests
    | proc c n => cases tests
  | process nch len =>
    cases ph with
    | check =>
      cases h
      rcases processCheck_cases nch len s with ⟨f, _, e⟩ | ⟨_, _, _, e⟩
      · exact .inl ⟨f, e⟩
      · exact .inr ⟨s.stg, _, e⟩
    | snap j => cases h; exact .inr ⟨_, _, rfl⟩
    | pcheck => cases h; exact pcheckStep_tests _ s _
    | commit => cases tests
    | proc c n => cases tests

/-- From `COMMIT` on a command meets no fault (R143, R146). -/
theorem exec_pastTests {s t : State} {cmd : Cmd} {ph : Phase} (hs : s.seq = .run cmd ph)
    (position : PositionExists (.run cmd ph)) (past : onlyTests ph = false)
    (h : exec (cmdInstr cmd) s = .next t) : pastCommit t.seq = true := by
  obtain ⟨t', e, next⟩ := exec_past_check hs position (by rintro rfl; cases past)
  cases h.symm.trans e
  rcases next with next | ⟨_, rfl⟩
  · rw [next]; exact pastCommit_next past
  · cases past

/-! ### A command from its word on (R146) -/

/-- The states of a command that was issued in the state `b`: nothing but staging and position has
changed; or a fault was entered on `b` as it was; or the command has committed. -/
inductive Issued (b : State) : State → Prop
  | pending (g : Staging) (cmd : Cmd) (ph : Phase) : Issued b ((b.setStg g).setSeq (.run cmd ph))
  | faulted (f : FaultCode) : Issued b (raise f b)
  | committed {s : State} (h : pastCommit s.seq = true) : Issued b s

/-- A command that is halted has entered a fault on the state in which it was issued. -/
theorem Issued.faultEntry {b t : State} (h : Issued b t) (ht : t.seq = .halt) :
    ∃ f, FaultEntry f b t := by
  cases h with
  | pending g cmd ph => cases ht
  | faulted f => exact ⟨f, faultEntry_raise f b⟩
  | committed past => rw [ht] at past; cases past

theorem Issued.exec_command {b s t : State} {cmd : Cmd} {ph : Phase} (h : Issued b s)
    (hs : s.seq = .run cmd ph) (position : PositionExists (.run cmd ph))
    (taken : exec (cmdInstr cmd) s = .next t) : Issued b t := by
  cases tests : onlyTests ph with
  | false => exact .committed (exec_pastTests hs position tests taken)
  | true =>
    cases h with
    | pending g cmd' ph' =>
      rcases exec_onlyTests hs tests taken with ⟨f, rfl⟩ | ⟨g', ph'', rfl⟩
      · exact .faulted f
      · exact .pending g' cmd ph''
    | faulted f => cases hs
    | committed past =>
      rw [hs] at past
      cases tests.symm.trans (onlyTests_of_pastCommit past)

theorem Issued.run {b s t : State} {k : Nat} (h : Issued b s) (alone : LeftToItself s)
    (hk : Host.Core.run Sys2Proof.core k s = .next t) : Issued b t := by
  induction k generalizing s with
  | zero => cases hk; exact h
  | succ k ih =>
    cases hs : s.seq with
    | idle => cases (run_rest alone.listing (.inr ⟨hs, alone.micro⟩) _).symm.trans hk; exact h
    | halt => cases (run_rest alone.listing (.inl hs) _).symm.trans hk; exact h
    | run cmd ph =>
      obtain ⟨u, taken, hu, _⟩ := alone.step_command hs
      have next := h.exec_command hs (hs ▸ alone.position)
        ((step_command alone.listing hs).symm.trans taken)
      exact ih next hu ((run_succ taken).symm.trans hk)

/-! ### The command word (R31, R71) -/

theorem portWord_command {s : State} (w : BitVec 32) (hs : s.seq = .idle) :
    portWord (.command w) s = .next (writeCommand w s) := by
  rcases writeCommand_cases w s with ⟨cmd, hd, e⟩ | ⟨hd, e⟩ <;> rw [e]
  · rw [portWord_of_decode (i := cmdInstr cmd) s (by simp only [decode, hd])]
    cases cmd <;> simp only [cmdInstr, exec, execPrepare, execProcess, hs]
  · exact portWord_illegal hs (by simp only [decode, hd])

theorem portWord_writeCmd {s : State} (w : BitVec 32) (hs : s.seq = .idle) :
    portWord (.bus (1#1 ++ 0#3 ++ w)) s = .next (writeCommand w s) := by
  rw [portWord_of_decode s (decode_bus_fields 1#1 0#3 w), if_pos rfl,
    exec_wrreg_at_rest _ _ (by simp [hs])]
  exact congrArg Host.Outcome.next (if_pos hs)

/-- A command word issues a command, or a fault is entered on the state it is written in. -/
theorem issued_writeCommand (w : BitVec 32) {b : State} (hl : b.listing = []) (hm : b.micro = none) :
    Issued b (writeCommand w b) ∧ LeftToItself (writeCommand w b) := by
  rcases writeCommand_cases w b with ⟨cmd, _, e⟩ | ⟨_, e⟩ <;> rw [e]
  · exact ⟨.pending b.stg cmd .check, hl, hm, positionExists_check cmd⟩
  · exact ⟨.faulted .illcmd, hl, rfl, trivial⟩

end Sys2Proof.Machine

namespace Sys2Proof.Proofs

open Machine

/-- Settles O47. -/
theorem faultStatus : Obligations.FaultStatus := by
  refine fun f s => ⟨faultEntry_raise f s, statusWord_raise f s, ?_, ?_, ?_, ?_, ?_, ?_, ?_⟩ <;>
    rintro rfl <;> rfl

/-- Settles O49: up to `PCHECK` a command changes staging and position only, and from `COMMIT` on it meets
no fault, so the fault is entered on the state in which the word was sent. -/
theorem faultsArePrecise : Obligations.FaultsArePrecise := by
  intro s t w p k hs hm hp hl hk ht
  have word : step s = .next (writeCommand w (s.setListing [])) := by
    refine (step_moves hl (mustWait_of_not_busy _ (by simp [busy, hs, hm]))).trans ?_
    rcases hp with rfl | rfl
    · exact portWord_command w hs
    · exact portWord_writeCmd w hs
  cases k with
  | zero =>
    cases hk
    cases hs.symm.trans ht
  | succ k =>
    obtain ⟨issued, alone⟩ := issued_writeCommand w (b := s.setListing []) rfl hm
    exact (issued.run alone ((run_succ word).symm.trans hk)).faultEntry ht

/-- Settles O50, row by row. -/
theorem haltedCore : Obligations.HaltedCore := by
  intro i s hs
  rcases exec_halted_cases i hs with ⟨h2, e⟩ | ⟨d, rfl, e⟩ | ⟨addr, v, rfl, e⟩ | ⟨idx, v, p, rfl, e⟩
  · exact ⟨_, e, hs, rfl, rfl, rfl, rfl, rfl, fun _ => rfl, rfl, fun _ => rfl,
      fun d same => absurd same (h2 d), fun _ => rfl⟩
  · exact ⟨_, e, hs, rfl, rfl, rfl, rfl, rfl, fun _ => rfl, rfl, fun other => absurd rfl (other d),
      fun _ same => (Instr.wrreg.inj same).2, fun _ => rfl⟩
  · exact ⟨_, e, hs, rfl, rfl, rfl, rfl, rfl, fun _ => rfl, rfl, fun _ => rfl, nofun, fun _ => rfl⟩
  · exact ⟨_, e, hs, rfl, rfl, rfl, rfl, rfl, fun _ => rfl, rfl, fun _ => rfl, nofun,
      fun other => absurd rfl (other idx v)⟩

end Sys2Proof.Proofs
end
